-- ==== Sys2Proof/Word.lean ====
section
/-! DEFINITION. The unit of data and the words built from it: pents, N-pent words held by value, the three-valued flag,
and the index types of the register files and their views (00_scope.md rules R5, R7, R8; 30_encoding.md rule R82). -/

namespace Sys2Proof

/-- One pent: a balanced base-5 digit with a value in {-2, -1, 0, +1, +2} (R7). -/
inductive Pent where
  | n2 | n1 | zero | p1 | p2
deriving DecidableEq, Repr, Inhabited

/-- The value of one pent (R7). -/
def Pent.toInt : Pent → Int
  | .n2 => -2
  | .n1 => -1
  | .zero => 0
  | .p1 => 1
  | .p2 => 2

/-- The pent whose value is `v`, for `v` in {-2, ..., +2}; any other `v` is read as 0. -/
def Pent.ofInt (v : Int) : Pent :=
  if v = -2 then .n2 else if v = -1 then .n1 else if v = 1 then .p1 else if v = 2 then .p2 else .zero

/-- The pent of opposite value (R13). -/
def Pent.neg : Pent → Pent
  | .n2 => .p2
  | .n1 => .p1
  | .zero => .zero
  | .p1 => .n1
  | .p2 => .n2

/-- `5^N`, the number of N-pent words (R9). -/
def radixPow (n : Nat) : Int := (5 ^ n : Nat)

/-- `M_N = (5^N - 1)/2`, the largest magnitude of an N-pent word (R8, R9). -/
def maxMag (n : Nat) : Int := ((5 ^ n - 1) / 2 : Nat)

/-- An N-pent word, held by its value: the values of N-pent words are exactly the integers in [-M_N, M_N] (R8). -/
structure PWord (n : Nat) where
  val : Int
  lower : -maxMag n ≤ val
  upper : val ≤ maxMag n
deriving DecidableEq, Repr

/-- The word whose pents are all 0. -/
def PWord.zero (n : Nat) : PWord n :=
  ⟨0, by unfold maxMag; omega, by unfold maxMag; omega⟩

/-- A value set {-1, 0, +1}: the sign of an integer, and the flags `CC` and `C` (R10 `sgn`, R32). -/
inductive Sign where
  | neg | zero | pos
deriving DecidableEq, Repr, Inhabited

/-- The value of a sign. -/
def Sign.toInt : Sign → Int
  | .neg => -1
  | .zero => 0
  | .pos => 1

/-- The pent with the value of a sign (R31: a flag stands in one pent of SR14). -/
def Sign.toPent : Sign → Pent
  | .neg => .n1
  | .zero => .zero
  | .pos => .p1

/-- Index of a 14-pent general register, R0 to R31 (R22, R82). -/
abbrev RIdx := Fin 32

/-- Index of a pair view, D0 to D15 (R24, R82). -/
abbrev DIdx := Fin 16

/-- Index of a quad view, Q0 to Q7 (R25, R82). -/
abbrev QIdx := Fin 8

/-- Index of a 16-pent register of the P16 file, X0 to X31 (R30, R82). -/
abbrev XIdx := Fin 32

/-- D<k> is R<2k+1> : R<2k>; this is the low register (R24). -/
def DIdx.low (k : DIdx) : RIdx := ⟨2 * k.val, by omega⟩

/-- D<k> is R<2k+1> : R<2k>; this is the high register (R24). -/
def DIdx.high (k : DIdx) : RIdx := ⟨2 * k.val + 1, by omega⟩

/-- Q<k> is D<2k+1> : D<2k>; this is the low pair (R25). -/
def QIdx.low (k : QIdx) : DIdx := ⟨2 * k.val, by omega⟩

/-- Q<k> is D<2k+1> : D<2k>; this is the high pair (R25). -/
def QIdx.high (k : QIdx) : DIdx := ⟨2 * k.val + 1, by omega⟩

end Sys2Proof
end

