-- ==== Sys2Proof/Syntax.lean ====
section
/-! DEFINITION. The instructions as typed terms: one constructor per row of spec/opcode_table.json, in its order, with the
operands of its format (30_encoding.md rules R81, R82, R84). There is no binary encoding (R80). -/

namespace Sys2Proof

/-- A memory operand `[base+offset]`: `base` a general register, `offset` an integer constant (R53, R82, R83). -/
structure MemOperand where
  base : RIdx
  offset : Int
deriving DecidableEq, Repr

/-- The instructions of R84. The operands stand in the order the assembler writes them (R81); their index ranges are
those of R82, so that the checks `r_index`, `d_index` and `q_index` of R90 hold of every term of this type. -/
inductive Instr where
  /-- ADD14, format R3 (R101). -/
  | add14 (rd rs1 rs2 : RIdx)
  /-- SUB14, format R3 (R102). -/
  | sub14 (rd rs1 rs2 : RIdx)
  /-- MUL14, format R3 (R103). -/
  | mul14 (rd rs1 rs2 : RIdx)
  /-- DIV14, format R3 (R104). -/
  | div14 (rd rs1 rs2 : RIdx)
  /-- EXTEND14, format XR (R105). -/
  | extend14 (xd : XIdx) (rs : RIdx)
  /-- TRUNC16, format RX (R106). -/
  | trunc16 (rd : RIdx) (xs : XIdx)
  /-- ADD28, format D3 (R110). -/
  | add28 (dd ds1 ds2 : DIdx)
  /-- SUB28, format D3 (R111). -/
  | sub28 (dd ds1 ds2 : DIdx)
  /-- MUL28, format D3 (R112). -/
  | mul28 (dd ds1 ds2 : DIdx)
  /-- DIV28, format D3 (R113). -/
  | div28 (dd ds1 ds2 : DIdx)
  /-- NEG28, format D2 (R114). -/
  | neg28 (dd ds : DIdx)
  /-- CMP28, format DD (R115). -/
  | cmp28 (ds1 ds2 : DIdx)
  /-- TST28, format Ds (R116). -/
  | tst28 (ds : DIdx)
  /-- LOAD28, format DM (R117). -/
  | load28 (dd : DIdx) (m : MemOperand)
  /-- STORE28, format MD (R118). -/
  | store28 (m : MemOperand) (ds : DIdx)
  /-- SPLIT28, format RRD (R119). -/
  | split28 (rdHi rdLo : RIdx) (ds : DIdx)
  /-- JOIN28, format DRR (R120). -/
  | join28 (dd : DIdx) (rsHi rsLo : RIdx)
  /-- MACC28, format DD (R121). -/
  | macc28 (ds1 ds2 : DIdx)
  /-- MSUB28, format DD (R122). -/
  | msub28 (ds1 ds2 : DIdx)
  /-- GETACC28_HI, format Dd (R123). -/
  | getacc28Hi (dd : DIdx)
  /-- GETACC28_LO, format Dd (R124). -/
  | getacc28Lo (dd : DIdx)
  /-- CLRACC, format N0 (R125). -/
  | clracc
  /-- ADD56, format Q3 (R130). -/
  | add56 (qd qs1 qs2 : QIdx)
  /-- SUB56, format Q3 (R131). -/
  | sub56 (qd qs1 qs2 : QIdx)
  /-- MUL56, format Q3 (R132). -/
  | mul56 (qd qs1 qs2 : QIdx)
  /-- DIV56, format Q3 (R133). -/
  | div56 (qd qs1 qs2 : QIdx)
  /-- NEG56, format Q2 (R134). -/
  | neg56 (qd qs : QIdx)
  /-- B128_TO_P56, format QM (R135). -/
  | b128ToP56 (qd : QIdx) (m : MemOperand)
  /-- P56_TO_B128, format MQ (R136). -/
  | p56ToB128 (m : MemOperand) (qs : QIdx)
  /-- P56_TO_B128_SAT, format MQ (R137). -/
  | p56ToB128Sat (m : MemOperand) (qs : QIdx)
  /-- CMP56, format QQ (R138). -/
  | cmp56 (qs1 qs2 : QIdx)
  /-- TST56, format Qs (R139). -/
  | tst56 (qs : QIdx)
  /-- LOAD56, format QM (R140). -/
  | load56 (qd : QIdx) (m : MemOperand)
  /-- STORE56, format MQ (R141). -/
  | store56 (m : MemOperand) (qs : QIdx)
  /-- MACC56, format QQ (R142). -/
  | macc56 (qs1 qs2 : QIdx)
  /-- MSUB56, format QQ (R143). -/
  | msub56 (qs1 qs2 : QIdx)
  /-- GETACC56_HI, format Qd (R144). -/
  | getacc56Hi (qd : QIdx)
  /-- GETACC56_LO, format Qd (R145). -/
  | getacc56Lo (qd : QIdx)
  /-- CLRACC112, format N0 (R146). -/
  | clracc112
  /-- ADD_MIX, format DXR (R150). -/
  | addMix (dd : DIdx) (xs : XIdx) (rt : RIdx)
  /-- ADDS14, format R3 (R151). -/
  | adds14 (rd rs1 rs2 : RIdx)
  /-- ADDS28, format D3 (R152). -/
  | adds28 (dd ds1 ds2 : DIdx)
  /-- SEXT14_28, format DR (R153). -/
  | sext14To28 (dd : DIdx) (rs : RIdx)
  /-- SEXT14_56, format QR (R154). -/
  | sext14To56 (qd : QIdx) (rs : RIdx)
  /-- SEXT28_56, format QD (R155). -/
  | sext28To56 (qd : QIdx) (ds : DIdx)
  /-- TRUNC28_14, format RD (R156). -/
  | trunc28To14 (rd : RIdx) (ds : DIdx)
  /-- TRUNC56_28, format DQ (R157). -/
  | trunc56To28 (dd : DIdx) (qs : QIdx)
  /-- TRUNC56_14, format RQ (R158). -/
  | trunc56To14 (rd : RIdx) (qs : QIdx)
  /-- P56_TRUNC_B128, format Q2 (R159). -/
  | p56TruncB128 (qd qs : QIdx)
  /-- P28_TRUNC_B64, format D2 (R160). -/
  | p28TruncB64 (dd ds : DIdx)
  /-- P14_TRUNC_B32, format R2 (R161). -/
  | p14TruncB32 (rd rs : RIdx)
  /-- ADD28C, format D3 (R171). -/
  | add28c (dd ds1 ds2 : DIdx)
  /-- ADDC28, format D3 (R172). -/
  | addc28 (dd ds1 ds2 : DIdx)
  /-- OVFCHK14, format R3 (R173). -/
  | ovfchk14 (rd rs1 rs2 : RIdx)
  /-- OVFCHK28, format D3 (R174). -/
  | ovfchk28 (dd ds1 ds2 : DIdx)
  /-- LOADU28, format DM (R180). -/
  | loadu28 (dd : DIdx) (m : MemOperand)
  /-- STOREU28, format MD (R181). -/
  | storeu28 (m : MemOperand) (ds : DIdx)
  /-- LOADU56, format QM (R182). -/
  | loadu56 (qd : QIdx) (m : MemOperand)
  /-- STOREU56, format MQ (R183). -/
  | storeu56 (m : MemOperand) (qs : QIdx)
  /-- BVS, format L (R190). -/
  | bvs (target : Int)
deriving DecidableEq, Repr

end Sys2Proof
end

