-- ==== Sys2Proof/Syntax/Term.lean ====
section
/-! DEFINITION. Assembler terms as the program text holds them: a mnemonic with operands whose indices nothing has checked
yet (30_encoding.md rules R80, R82, R88, R90), and the names of the checks they must pass. -/

namespace Sys2Proof

/-- An operand as written. `name` is an identifier that is no register (a label not yet resolved), `other` is text that is
no operand of R82 at all. -/
inductive Operand where
  | r (index : Nat)
  | d (index : Nat)
  | q (index : Nat)
  | x (index : Nat)
  | mem (base : Nat) (offset : Int)
  | label (address : Int)
  | name (text : List Char)
  | other (text : List Char)
deriving DecidableEq, Repr

/-- An assembler term: the mnemonic's letters and the operands in the order written (R80, R81). -/
structure Term where
  mnemonic : List Char
  operands : List Operand
deriving DecidableEq, Repr

/-- The named checks of R90 that an admitted program passes, and the requirement of R226 on `EndPC`. -/
inductive Check where
  /-- The mnemonic is one of the 60 of R84. -/
  | mnemonicKnown
  /-- The number and classes of operands are those of the format (R81). -/
  | operandCount
  /-- Every `R` operand has index 0..31. -/
  | rIndex
  /-- Every `D` operand has index 0..15. -/
  | dIndex
  /-- Every `Q` operand has index 0..7. -/
  | qIndex
  /-- Every `X` source has index 0..31, every `X` destination 1..31. -/
  | xIndex
  /-- SPLIT28: the destinations differ, or both are R0. -/
  | splitDests
  /-- The BVS target is an address where `Prog` is defined, or `EndPC`. -/
  | labelDefined
  /-- The addresses of `Prog` are `a0 + k * ILEN`, k = 0..n-1, all within [-M_14, M_14]. -/
  | placement
  /-- `EndPC`, given or by default, lies in [-M_14, M_14] and `Prog` is undefined there (R226). -/
  | endAddress
deriving DecidableEq, Repr

end Sys2Proof
end

