-- ==== Sys2Proof/WellFormed.lean ====
section
/-! DEFINITION. Well-formedness (30_encoding.md rules R86, R90): the checks that the types of `Instr` do not already make
(`x_index` of a destination, `split_dests`), and the checks of a whole program (`label_defined`, `placement`). The checks
`mnemonic_known`, `operand_count`, `r_index`, `d_index` and `q_index` of a raw term are made by the decoder
(Sys2Proof/Decode.lean), which answers with the name of the check that fails. -/

namespace Sys2Proof

/-- The check of R90 that the instruction fails on its own operands, if any: EXTEND14 needs a destination index of 1..31
(R30, `x_index`), SPLIT28 two destinations that differ or are both R0 (R119, `split_dests`). -/
def Instr.failedCheck : Instr → Option Check
  | .extend14 xd _ => if xd = 0 then some .xIndex else none
  | .split28 rdHi rdLo _ => if rdHi = rdLo ∧ rdHi ≠ 0 then some .splitDests else none
  | _ => none

/-- An instruction is well formed when it fails no check of R90. -/
def Instr.wf (i : Instr) : Bool := i.failedCheck.isNone

/-- A program of decoded instructions with their addresses, in the order of the addresses. -/
abbrev Program := List (Int × Instr)

/-- Whether the program has an instruction at `a`. -/
def Program.definedAt (p : Program) (a : Int) : Bool := p.any (fun e => e.1 == a)

/-- `placement` (R90): the addresses are `a, a + ilen, a + 2*ilen, ...` and lie within [-M_14, M_14]. -/
def Program.placedFrom (ilen : Nat) (a : Int) : Program → Bool
  | [] => true
  | (b, _) :: rest => b == a && decide (-maxMag 14 ≤ b) && decide (b ≤ maxMag 14) && placedFrom ilen (a + ilen) rest

/-- `placement` (R90) with the address of the first instruction as `a0`. -/
def Program.placed (ilen : Nat) : Program → Bool
  | [] => true
  | (a, i) :: rest => Program.placedFrom ilen a ((a, i) :: rest)

/-- `label_defined` (R90): a BVS target is an address where the program is defined, or the end address. -/
def Program.labelOk (p : Program) (endAddr : Option Int) : Instr → Bool
  | .bvs target => p.definedAt target || endAddr == some target
  | _ => true

/-- The check of R90 (or of R226, for the end address) that a program fails, if any, in the order of R90's table. -/
def Program.failedCheck (p : Program) (ilen : Nat) (endAddr : Option Int) : Option Check :=
  match p.findSome? (fun e => e.2.failedCheck) with
  | some c => some c
  | none =>
    if p.any (fun e => !p.labelOk endAddr e.2) then some .labelDefined
    else if !p.placed ilen then some .placement
    else none

end Sys2Proof
end

