-- ==== Sys2Proof/Decode.lean ====
section
/-! DEFINITION. The decoder and the encoder. The source gives no binary encoding of any instruction (30_encoding.md rules
R80, R91): what is decoded is the assembler term (R81, R82, R84, R90), and, before it, the line of assembler text that
writes the term (R88, R89). Bytes are the characters of such a line, which is the only written form of an instruction the
source has; they are no bit pattern of the hardware (log entry 1). -/

namespace Sys2Proof

/-! ## From a term to an instruction -/

/-- An index below `n`, or the failing index check (R82, R90). -/
def readIndex (n : Nat) (c : Check) (k : Nat) : Except Check (Fin n) :=
  if h : k < n then .ok ⟨k, h⟩ else .error c

/-- Operand class `R` (R82). -/
def readClassR : Operand → Except Check RIdx
  | .r k => readIndex 32 .rIndex k
  | _ => .error .operandCount

/-- Operand class `D` (R82). -/
def readClassD : Operand → Except Check DIdx
  | .d k => readIndex 16 .dIndex k
  | _ => .error .operandCount

/-- Operand class `Q` (R82). -/
def readClassQ : Operand → Except Check QIdx
  | .q k => readIndex 8 .qIndex k
  | _ => .error .operandCount

/-- Operand class `X` (R82); that a destination index is not 0 is checked afterwards. -/
def readClassX : Operand → Except Check XIdx
  | .x k => readIndex 32 .xIndex k
  | _ => .error .operandCount

/-- Operand class `M` (R82): the base is an `R` register. -/
def readClassM : Operand → Except Check MemOperand
  | .mem base offset => (readIndex 32 .rIndex base).bind fun b => .ok ⟨b, offset⟩
  | _ => .error .operandCount

/-- Operand class `L` (R82): an address; a label that stands for none fails `label_defined` (R90). -/
def readClassL : Operand → Except Check Int
  | .label a => .ok a
  | .name _ => .error .labelDefined
  | _ => .error .operandCount

/-- A format of no operand (R81). -/
def readFormat0 (k : Instr) : List Operand → Except Check Instr
  | [] => .ok k
  | _ => .error .operandCount

/-- A format of one operand (R81). -/
def readFormat1 {α : Type} (fa : Operand → Except Check α) (k : α → Instr) : List Operand → Except Check Instr
  | [a] => (fa a).bind fun a => .ok (k a)
  | _ => .error .operandCount

/-- A format of two operands, in the order written (R81). -/
def readFormat2 {α β : Type} (fa : Operand → Except Check α) (fb : Operand → Except Check β) (k : α → β → Instr) :
    List Operand → Except Check Instr
  | [a, b] => (fa a).bind fun a => (fb b).bind fun b => .ok (k a b)
  | _ => .error .operandCount

/-- A format of three operands, in the order written (R81). -/
def readFormat3 {α β γ : Type} (fa : Operand → Except Check α) (fb : Operand → Except Check β)
    (fc : Operand → Except Check γ) (k : α → β → γ → Instr) : List Operand → Except Check Instr
  | [a, b, c] => (fa a).bind fun a => (fb b).bind fun b => (fc c).bind fun c => .ok (k a b c)
  | _ => .error .operandCount

/-- The instruction table of R84 in its order: each mnemonic with the reader of its format's operands (R81, R82). -/
def instrTable : List (List Char × (List Operand → Except Check Instr)) := [
  ("ADD14".toList, readFormat3 readClassR readClassR readClassR .add14),
  ("SUB14".toList, readFormat3 readClassR readClassR readClassR .sub14),
  ("MUL14".toList, readFormat3 readClassR readClassR readClassR .mul14),
  ("DIV14".toList, readFormat3 readClassR readClassR readClassR .div14),
  ("EXTEND14".toList, readFormat2 readClassX readClassR .extend14),
  ("TRUNC16".toList, readFormat2 readClassR readClassX .trunc16),
  ("ADD28".toList, readFormat3 readClassD readClassD readClassD .add28),
  ("SUB28".toList, readFormat3 readClassD readClassD readClassD .sub28),
  ("MUL28".toList, readFormat3 readClassD readClassD readClassD .mul28),
  ("DIV28".toList, readFormat3 readClassD readClassD readClassD .div28),
  ("NEG28".toList, readFormat2 readClassD readClassD .neg28),
  ("CMP28".toList, readFormat2 readClassD readClassD .cmp28),
  ("TST28".toList, readFormat1 readClassD .tst28),
  ("LOAD28".toList, readFormat2 readClassD readClassM .load28),
  ("STORE28".toList, readFormat2 readClassM readClassD .store28),
  ("SPLIT28".toList, readFormat3 readClassR readClassR readClassD .split28),
  ("JOIN28".toList, readFormat3 readClassD readClassR readClassR .join28),
  ("MACC28".toList, readFormat2 readClassD readClassD .macc28),
  ("MSUB28".toList, readFormat2 readClassD readClassD .msub28),
  ("GETACC28_HI".toList, readFormat1 readClassD .getacc28Hi),
  ("GETACC28_LO".toList, readFormat1 readClassD .getacc28Lo),
  ("CLRACC".toList, readFormat0 .clracc),
  ("ADD56".toList, readFormat3 readClassQ readClassQ readClassQ .add56),
  ("SUB56".toList, readFormat3 readClassQ readClassQ readClassQ .sub56),
  ("MUL56".toList, readFormat3 readClassQ readClassQ readClassQ .mul56),
  ("DIV56".toList, readFormat3 readClassQ readClassQ readClassQ .div56),
  ("NEG56".toList, readFormat2 readClassQ readClassQ .neg56),
  ("B128_TO_P56".toList, readFormat2 readClassQ readClassM .b128ToP56),
  ("P56_TO_B128".toList, readFormat2 readClassM readClassQ .p56ToB128),
  ("P56_TO_B128_SAT".toList, readFormat2 readClassM readClassQ .p56ToB128Sat),
  ("CMP56".toList, readFormat2 readClassQ readClassQ .cmp56),
  ("TST56".toList, readFormat1 readClassQ .tst56),
  ("LOAD56".toList, readFormat2 readClassQ readClassM .load56),
  ("STORE56".toList, readFormat2 readClassM readClassQ .store56),
  ("MACC56".toList, readFormat2 readClassQ readClassQ .macc56),
  ("MSUB56".toList, readFormat2 readClassQ readClassQ .msub56),
  ("GETACC56_HI".toList, readFormat1 readClassQ .getacc56Hi),
  ("GETACC56_LO".toList, readFormat1 readClassQ .getacc56Lo),
  ("CLRACC112".toList, readFormat0 .clracc112),
  ("ADD_MIX".toList, readFormat3 readClassD readClassX readClassR .addMix),
  ("ADDS14".toList, readFormat3 readClassR readClassR readClassR .adds14),
  ("ADDS28".toList, readFormat3 readClassD readClassD readClassD .adds28),
  ("SEXT14_28".toList, readFormat2 readClassD readClassR .sext14To28),
  ("SEXT14_56".toList, readFormat2 readClassQ readClassR .sext14To56),
  ("SEXT28_56".toList, readFormat2 readClassQ readClassD .sext28To56),
  ("TRUNC28_14".toList, readFormat2 readClassR readClassD .trunc28To14),
  ("TRUNC56_28".toList, readFormat2 readClassD readClassQ .trunc56To28),
  ("TRUNC56_14".toList, readFormat2 readClassR readClassQ .trunc56To14),
  ("P56_TRUNC_B128".toList, readFormat2 readClassQ readClassQ .p56TruncB128),
  ("P28_TRUNC_B64".toList, readFormat2 readClassD readClassD .p28TruncB64),
  ("P14_TRUNC_B32".toList, readFormat2 readClassR readClassR .p14TruncB32),
  ("ADD28C".toList, readFormat3 readClassD readClassD readClassD .add28c),
  ("ADDC28".toList, readFormat3 readClassD readClassD readClassD .addc28),
  ("OVFCHK14".toList, readFormat3 readClassR readClassR readClassR .ovfchk14),
  ("OVFCHK28".toList, readFormat3 readClassD readClassD readClassD .ovfchk28),
  ("LOADU28".toList, readFormat2 readClassD readClassM .loadu28),
  ("STOREU28".toList, readFormat2 readClassM readClassD .storeu28),
  ("LOADU56".toList, readFormat2 readClassQ readClassM .loadu56),
  ("STOREU56".toList, readFormat2 readClassM readClassQ .storeu56),
  ("BVS".toList, readFormat1 readClassL .bvs)]

/-- The decoder: an assembler term is an instruction when its mnemonic stands in R84, its operands are those of the
mnemonic's format with legal indices, and the instruction is well formed; otherwise the answer is the name of a check of
R90 that the term fails. DESIGN CHOICE: a mnemonic is known in capitals alone, as R88's listings write it (log entry 23). -/
def decode (t : Term) : Except Check Instr :=
  match instrTable.find? (fun row => row.1 == t.mnemonic) with
  | none => .error .mnemonicKnown
  | some row =>
    match row.2 t.operands with
    | .error c => .error c
    | .ok i =>
      match i.failedCheck with
      | some c => .error c
      | none => .ok i

/-! ## From an instruction to a term -/

/-- The mnemonic of an instruction (R84). -/
def Instr.mnemonic : Instr → List Char
  | .add14 _ _ _ => "ADD14".toList
  | .sub14 _ _ _ => "SUB14".toList
  | .mul14 _ _ _ => "MUL14".toList
  | .div14 _ _ _ => "DIV14".toList
  | .extend14 _ _ => "EXTEND14".toList
  | .trunc16 _ _ => "TRUNC16".toList
  | .add28 _ _ _ => "ADD28".toList
  | .sub28 _ _ _ => "SUB28".toList
  | .mul28 _ _ _ => "MUL28".toList
  | .div28 _ _ _ => "DIV28".toList
  | .neg28 _ _ => "NEG28".toList
  | .cmp28 _ _ => "CMP28".toList
  | .tst28 _ => "TST28".toList
  | .load28 _ _ => "LOAD28".toList
  | .store28 _ _ => "STORE28".toList
  | .split28 _ _ _ => "SPLIT28".toList
  | .join28 _ _ _ => "JOIN28".toList
  | .macc28 _ _ => "MACC28".toList
  | .msub28 _ _ => "MSUB28".toList
  | .getacc28Hi _ => "GETACC28_HI".toList
  | .getacc28Lo _ => "GETACC28_LO".toList
  | .clracc => "CLRACC".toList
  | .add56 _ _ _ => "ADD56".toList
  | .sub56 _ _ _ => "SUB56".toList
  | .mul56 _ _ _ => "MUL56".toList
  | .div56 _ _ _ => "DIV56".toList
  | .neg56 _ _ => "NEG56".toList
  | .b128ToP56 _ _ => "B128_TO_P56".toList
  | .p56ToB128 _ _ => "P56_TO_B128".toList
  | .p56ToB128Sat _ _ => "P56_TO_B128_SAT".toList
  | .cmp56 _ _ => "CMP56".toList
  | .tst56 _ => "TST56".toList
  | .load56 _ _ => "LOAD56".toList
  | .store56 _ _ => "STORE56".toList
  | .macc56 _ _ => "MACC56".toList
  | .msub56 _ _ => "MSUB56".toList
  | .getacc56Hi _ => "GETACC56_HI".toList
  | .getacc56Lo _ => "GETACC56_LO".toList
  | .clracc112 => "CLRACC112".toList
  | .addMix _ _ _ => "ADD_MIX".toList
  | .adds14 _ _ _ => "ADDS14".toList
  | .adds28 _ _ _ => "ADDS28".toList
  | .sext14To28 _ _ => "SEXT14_28".toList
  | .sext14To56 _ _ => "SEXT14_56".toList
  | .sext28To56 _ _ => "SEXT28_56".toList
  | .trunc28To14 _ _ => "TRUNC28_14".toList
  | .trunc56To28 _ _ => "TRUNC56_28".toList
  | .trunc56To14 _ _ => "TRUNC56_14".toList
  | .p56TruncB128 _ _ => "P56_TRUNC_B128".toList
  | .p28TruncB64 _ _ => "P28_TRUNC_B64".toList
  | .p14TruncB32 _ _ => "P14_TRUNC_B32".toList
  | .add28c _ _ _ => "ADD28C".toList
  | .addc28 _ _ _ => "ADDC28".toList
  | .ovfchk14 _ _ _ => "OVFCHK14".toList
  | .ovfchk28 _ _ _ => "OVFCHK28".toList
  | .loadu28 _ _ => "LOADU28".toList
  | .storeu28 _ _ => "STOREU28".toList
  | .loadu56 _ _ => "LOADU56".toList
  | .storeu56 _ _ => "STOREU56".toList
  | .bvs _ => "BVS".toList

/-- The operands of an instruction in the order the assembler writes them (R81). -/
def Instr.operands : Instr → List Operand
  | .add14 rd rs1 rs2 => [.r rd, .r rs1, .r rs2]
  | .sub14 rd rs1 rs2 => [.r rd, .r rs1, .r rs2]
  | .mul14 rd rs1 rs2 => [.r rd, .r rs1, .r rs2]
  | .div14 rd rs1 rs2 => [.r rd, .r rs1, .r rs2]
  | .extend14 xd rs => [.x xd, .r rs]
  | .trunc16 rd xs => [.r rd, .x xs]
  | .add28 dd ds1 ds2 => [.d dd, .d ds1, .d ds2]
  | .sub28 dd ds1 ds2 => [.d dd, .d ds1, .d ds2]
  | .mul28 dd ds1 ds2 => [.d dd, .d ds1, .d ds2]
  | .div28 dd ds1 ds2 => [.d dd, .d ds1, .d ds2]
  | .neg28 dd ds => [.d dd, .d ds]
  | .cmp28 ds1 ds2 => [.d ds1, .d ds2]
  | .tst28 ds => [.d ds]
  | .load28 dd m => [.d dd, .mem m.base m.offset]
  | .store28 m ds => [.mem m.base m.offset, .d ds]
  | .split28 rdHi rdLo ds => [.r rdHi, .r rdLo, .d ds]
  | .join28 dd rsHi rsLo => [.d dd, .r rsHi, .r rsLo]
  | .macc28 ds1 ds2 => [.d ds1, .d ds2]
  | .msub28 ds1 ds2 => [.d ds1, .d ds2]
  | .getacc28Hi dd => [.d dd]
  | .getacc28Lo dd => [.d dd]
  | .clracc => []
  | .add56 qd qs1 qs2 => [.q qd, .q qs1, .q qs2]
  | .sub56 qd qs1 qs2 => [.q qd, .q qs1, .q qs2]
  | .mul56 qd qs1 qs2 => [.q qd, .q qs1, .q qs2]
  | .div56 qd qs1 qs2 => [.q qd, .q qs1, .q qs2]
  | .neg56 qd qs => [.q qd, .q qs]
  | .b128ToP56 qd m => [.q qd, .mem m.base m.offset]
  | .p56ToB128 m qs => [.mem m.base m.offset, .q qs]
  | .p56ToB128Sat m qs => [.mem m.base m.offset, .q qs]
  | .cmp56 qs1 qs2 => [.q qs1, .q qs2]
  | .tst56 qs => [.q qs]
  | .load56 qd m => [.q qd, .mem m.base m.offset]
  | .store56 m qs => [.mem m.base m.offset, .q qs]
  | .macc56 qs1 qs2 => [.q qs1, .q qs2]
  | .msub56 qs1 qs2 => [.q qs1, .q qs2]
  | .getacc56Hi qd => [.q qd]
  | .getacc56Lo qd => [.q qd]
  | .clracc112 => []
  | .addMix dd xs rt => [.d dd, .x xs, .r rt]
  | .adds14 rd rs1 rs2 => [.r rd, .r rs1, .r rs2]
  | .adds28 dd ds1 ds2 => [.d dd, .d ds1, .d ds2]
  | .sext14To28 dd rs => [.d dd, .r rs]
  | .sext14To56 qd rs => [.q qd, .r rs]
  | .sext28To56 qd ds => [.q qd, .d ds]
  | .trunc28To14 rd ds => [.r rd, .d ds]
  | .trunc56To28 dd qs => [.d dd, .q qs]
  | .trunc56To14 rd qs => [.r rd, .q qs]
  | .p56TruncB128 qd qs => [.q qd, .q qs]
  | .p28TruncB64 dd ds => [.d dd, .d ds]
  | .p14TruncB32 rd rs => [.r rd, .r rs]
  | .add28c dd ds1 ds2 => [.d dd, .d ds1, .d ds2]
  | .addc28 dd ds1 ds2 => [.d dd, .d ds1, .d ds2]
  | .ovfchk14 rd rs1 rs2 => [.r rd, .r rs1, .r rs2]
  | .ovfchk28 dd ds1 ds2 => [.d dd, .d ds1, .d ds2]
  | .loadu28 dd m => [.d dd, .mem m.base m.offset]
  | .storeu28 m ds => [.mem m.base m.offset, .d ds]
  | .loadu56 qd m => [.q qd, .mem m.base m.offset]
  | .storeu56 m qs => [.mem m.base m.offset, .q qs]
  | .bvs target => [.label target]

/-- The encoder: the assembler term of an instruction (R80, R81, R84). -/
def encode (i : Instr) : Term := ⟨i.mnemonic, i.operands⟩

/-! ## Assembler text (R88, R89): reading -/

/-- A blank between the parts of a line. DESIGN CHOICE: a space, a tab, a carriage return or a line feed; a text handed over as
one line is one line, whatever it holds (log entry 27). -/
def isBlank (c : Char) : Bool := c == ' ' || c == '\t' || c == '\r' || c == '\n'

/-- A decimal digit. -/
def isDigitChar (c : Char) : Bool := decide (48 ≤ c.toNat) && decide (c.toNat ≤ 57)

/-- A character that may begin a label's name (number syntax and names are log entry 17). -/
def isNameStart (c : Char) : Bool :=
  (decide (65 ≤ c.toNat) && decide (c.toNat ≤ 90)) || (decide (97 ≤ c.toNat) && decide (c.toNat ≤ 122)) || c == '_'

/-- Whether the text is a name: a letter or underscore, then letters, digits and underscores. -/
def isName : List Char → Bool
  | [] => false
  | c :: cs => isNameStart c && cs.all (fun d => isNameStart d || isDigitChar d)

/-- The value of a row of decimal digits, most significant first, after the value `n` read so far. -/
def digitsValue (n : Nat) : List Char → Nat
  | [] => n
  | c :: cs => digitsValue (10 * n + (c.toNat - 48)) cs

/-- A decimal number: at least one digit and nothing else. -/
def readNat (cs : List Char) : Option Nat :=
  if cs.isEmpty then none else if cs.all isDigitChar then some (digitsValue 0 cs) else none

/-- A decimal number with an optional sign. -/
def readInt : List Char → Option Int
  | '-' :: cs => (readNat cs).map fun n => -(n : Int)
  | '+' :: cs => (readNat cs).map fun n => (n : Int)
  | cs => (readNat cs).map fun n => (n : Int)

/-- The offset after a base register: nothing (`[Rn]` is `[Rn+0]`, R89), or a signed number. -/
def readOffset : List Char → Option Int
  | [] => some 0
  | '-' :: cs => (readNat cs).map fun n => -(n : Int)
  | '+' :: cs => (readNat cs).map fun n => (n : Int)
  | _ => none

/-- The inside of a memory operand: `Rn`, `Rn+k`, `Rn-k`, or a plain address, which is `R0+addr` (R53, R89).
DESIGN CHOICE: the base's letter is read in capitals alone (log entry 23). -/
def readMemInside : List Char → Option Operand
  | 'R' :: cs =>
    (readNat (cs.takeWhile isDigitChar)).bind fun b =>
      (readOffset (cs.dropWhile isDigitChar)).map fun o => .mem b o
  | cs => (readInt cs).map fun a => .mem 0 a

/-- A register, pair, quad or P16 register: its letter and a decimal index (R88; `X<n>` is R82's own spelling). DESIGN
CHOICE: the letter is read in capitals alone; a small letter begins a name (log entry 23). -/
def readRegister : List Char → Option Operand
  | 'R' :: cs => (readNat cs).map .r
  | 'D' :: cs => (readNat cs).map .d
  | 'Q' :: cs => (readNat cs).map .q
  | 'X' :: cs => (readNat cs).map .x
  | _ => none

/-- A memory operand in square brackets (R88). -/
def readBracketed : List Char → Option Operand
  | '[' :: cs => if cs.getLast? == some ']' then readMemInside cs.dropLast else none
  | _ => none

/-- One operand's text (R82, R88). -/
def readOperand (cs : List Char) : Operand :=
  match readRegister cs with
  | some o => o
  | none =>
    match readBracketed cs with
    | some o => o
    | none =>
      match readInt cs with
      | some a => .label a
      | none => if isName cs then .name cs else .other cs

/-- The text without blanks at its ends. -/
def trimBlanks (cs : List Char) : List Char :=
  (((cs.dropWhile isBlank).reverse).dropWhile isBlank).reverse

/-- The pieces of a text between its commas (R88). -/
def splitCommas : List Char → List (List Char)
  | [] => [[]]
  | c :: cs =>
    if c == ',' then [] :: splitCommas cs
    else match splitCommas cs with
      | [] => [[c]]
      | piece :: more => (c :: piece) :: more

/-- The operands' text: nothing, or operands separated by commas (R88). -/
def readOperands (cs : List Char) : List Operand :=
  if (trimBlanks cs).isEmpty then [] else (splitCommas (trimBlanks cs)).map fun piece => readOperand (trimBlanks piece)

/-- A line without its comment, which starts with `;` and runs to the end of the line (R88). DESIGN CHOICE: that is the end of
the text handed over, past any line feed in it (log entry 27). -/
def dropComment (cs : List Char) : List Char := cs.takeWhile fun c => c != ';'

/-- The name a line declares, if it has the form `name: ...` (R88; the colon is log entry 17). DESIGN CHOICE: whatever stands
before the first colon is taken as the declaration, also text that is no name (empty, or `1x`), and the line is not refused
for it (log entry 26). -/
def lineLabel (cs : List Char) : Option (List Char) :=
  if (dropComment cs).any (fun c => c == ':') then some (trimBlanks ((dropComment cs).takeWhile fun c => c != ':')) else none

/-- What a line holds beside its comment and its label declaration: all after the first colon, where there is one (DESIGN
CHOICE, log entry 26). -/
def lineBody (cs : List Char) : List Char :=
  if (dropComment cs).any (fun c => c == ':') then trimBlanks (((dropComment cs).dropWhile fun c => c != ':').drop 1)
  else trimBlanks (dropComment cs)

/-- The term a line writes: the mnemonic up to the first blank, then the operands (R88). -/
def readTerm (cs : List Char) : Term :=
  ⟨(lineBody cs).takeWhile (fun c => !isBlank c), readOperands ((lineBody cs).dropWhile fun c => !isBlank c)⟩

/-- The decoder on a line of assembler text. -/
def decodeText (cs : List Char) : Except Check Instr := decode (readTerm cs)

/-! ## Assembler text: writing -/

/-- The decimal digits of `n`, most significant first, with enough fuel when `n < 2^fuel`. -/
def decimalDigits : Nat → Nat → List Char
  | 0, _ => []
  | fuel + 1, n =>
    if n < 10 then [Char.ofNat (48 + n)] else decimalDigits fuel (n / 10) ++ [Char.ofNat (48 + n % 10)]

/-- A natural number in decimal. -/
def writeNat (n : Nat) : List Char := decimalDigits (n.log2 + 1) n

/-- An offset with its sign. -/
def writeOffset (v : Int) : List Char := (if v < 0 then '-' else '+') :: writeNat v.natAbs

/-- An address: a sign only where it is negative. -/
def writeInt (v : Int) : List Char := if v < 0 then '-' :: writeNat v.natAbs else writeNat v.natAbs

/-- The text of one operand (R82, R88). -/
def writeOperand : Operand → List Char
  | .r k => 'R' :: writeNat k
  | .d k => 'D' :: writeNat k
  | .q k => 'Q' :: writeNat k
  | .x k => 'X' :: writeNat k
  | .mem b o => '[' :: 'R' :: (writeNat b ++ writeOffset o ++ [']'])
  | .label a => writeInt a
  | .name text => text
  | .other text => text

/-- Operands separated by commas (R88). -/
def writeOperands : List Operand → List Char
  | [] => []
  | [o] => writeOperand o
  | o :: more => writeOperand o ++ (',' :: ' ' :: writeOperands more)

/-- A term as a line of assembler text (R88). -/
def writeTerm (t : Term) : List Char :=
  if t.operands.isEmpty then t.mnemonic else t.mnemonic ++ (' ' :: writeOperands t.operands)

/-- The encoder to a line of assembler text. -/
def encodeText (i : Instr) : List Char := writeTerm (encode i)

/-! ## Programs in assembler text (R88) -/

/-- The terms of the lines with their addresses, `ilen` apart from `a` on; a line without a term takes no address. -/
def placeLines (ilen : Nat) : Int → List (List Char) → List (Int × Term)
  | _, [] => []
  | a, l :: ls => if (lineBody l).isEmpty then placeLines ilen a ls else (a, readTerm l) :: placeLines ilen (a + ilen) ls

/-- The labels the lines declare, in the order of the lines: each stands for the address of the next instruction. DESIGN
CHOICE: a name declared on two lines is refused nowhere and stands in the list twice (log entry 24). DESIGN CHOICE: a name on a
line without a term belongs to the next instruction, and one after the last instruction, which marks none, stands for the
address `ilen` past it (log entry 28). -/
def lineLabels (ilen : Nat) : Int → List (List Char) → List (List Char × Int)
  | _, [] => []
  | a, l :: ls =>
    match lineLabel l with
    | some n => (n, a) :: lineLabels ilen (if (lineBody l).isEmpty then a else a + ilen) ls
    | none => lineLabels ilen (if (lineBody l).isEmpty then a else a + ilen) ls

/-- A label's name replaced by the address it stands for (R82 class `L`); a name nothing declares stays a name. DESIGN CHOICE:
where two lines declare the name it stands for the address of the first (log entry 24), and capital and small letters of a
name differ (log entry 23). -/
def resolveOperand (labels : List (List Char × Int)) : Operand → Operand
  | .name n =>
    match labels.find? (fun e => e.1 == n) with
    | some e => .label e.2
    | none => .name n
  | o => o

/-- The program text `Prog` that lines of assembler write, from the address `a0` on (R80, R88). -/
def assemble (ilen : Nat) (a0 : Int) (lines : List (List Char)) : List (Int × Term) :=
  (placeLines ilen a0 lines).map fun e =>
    (e.1, ⟨e.2.mnemonic, e.2.operands.map (resolveOperand (lineLabels ilen a0 lines))⟩)

/-! ## Bytes: the characters of a line (log entry 1) -/

/-- The characters of a row of bytes, up to the first zero byte. -/
def textOfBytes (bytes : List (BitVec 8)) : List Char :=
  (bytes.takeWhile fun b => b != 0).map fun b => Char.ofNat b.toNat

/-- The bytes of a row of characters. -/
def bytesOfText (cs : List Char) : List (BitVec 8) := cs.map fun c => BitVec.ofNat 8 c.toNat

/-- The decoder on bytes, total on any bytes. -/
def decodeBytes (bytes : List (BitVec 8)) : Except Check Instr := decodeText (textOfBytes bytes)

/-- The encoder to bytes. -/
def encodeBytes (i : Instr) : List (BitVec 8) := bytesOfText (encodeText i)

/-- The first `nbits / 8` bytes of a number, the lowest first. -/
def bytesOfNat (nbits w : Nat) : List (BitVec 8) :=
  (List.range (nbits / 8)).map fun k => BitVec.ofNat 8 (w / 256 ^ k)

/-- The instruction the decoder reads from `nbits` bits. The opcode table gives no row a bit (R91), so the bits are read as
the characters of a line of assembler text, the first in the lowest byte (log entry 1). -/
def decodeTableWord (nbits w : Nat) : Option Instr :=
  match decodeBytes (bytesOfNat nbits w) with
  | .ok i => some i
  | .error _ => none

end Sys2Proof
end

