-- ==== Sys2Proof/Config.lean ====
section
/-! DEFINITION. What an implementation fixes and the spec leaves open (00_scope.md rule R6): the parameters as plain data in
one structure, and the free values, opaque constants of which nothing can be proved. No rule depends on a parameter except
through its name (R6), so a statement about a step holds for every configuration. -/

namespace Sys2Proof

/-- `PentOrder` (R6, R54, R56). -/
inductive PentOrder where
  | lspFirst
  | mspFirst
deriving DecidableEq, Repr

/-- `EndPC` (R6, R226): an address, or R6's default, the address after the last instruction of `Prog`. -/
inductive EndPC where
  | afterLast
  | at (address : Int)
deriving DecidableEq, Repr

/-- A set of addresses that exist. `MemDomain` is the union of a list of them (R6, R51; log entry 6). -/
inductive Region where
  /-- `first, ..., first + size - 1`. -/
  | run (first : Int) (size : Nat)
  /-- Every address from `first` up. -/
  | upFrom (first : Int)
  /-- Every address from `last` down. -/
  | downFrom (last : Int)
  /-- Any set of integers: the free value number `k`. -/
  | free (k : Nat)
deriving DecidableEq, Repr

/-- What the addresses that `InitMem` does not list hold at reset: one pent for all, or any function of the address, the free
value number `k` (R6, R39; log entry 6). -/
inductive InitRest where
  | all (p : Pent)
  | free (k : Nat)
deriving DecidableEq, Repr

/-- `InitMem` (R6, R39): pents listed with their addresses, the first entry of an address counting, and the rest. -/
structure InitMem where
  listed : List (Int × Pent)
  rest : InitRest
deriving DecidableEq, Repr

/-- `DivQ` (R6, R100 law 5): the default, truncation toward zero, or another quotient, a free value (log entry 7). -/
inductive QuotientRule where
  | truncate
  | free (k : Nat)
deriving DecidableEq, Repr

/-- `BinTrunc` (R6; 43_mixed_and_conversion.md section 5): the default, the two's-complement wrap, or another result, a free
value (log entry 8). -/
inductive BinTruncRule where
  | twosComplement
  | free (k : Nat)
deriving DecidableEq, Repr

/-- `PentCode` (R6): an injective map from pents to 3-bit codes. No instruction exposes it (92_eei_decisions.md D2). -/
structure PentCode where
  n2 : BitVec 3
  n1 : BitVec 3
  zero : BitVec 3
  p1 : BitVec 3
  p2 : BitVec 3
  injective : [n2, n1, zero, p1, p2].Nodup
deriving DecidableEq, Repr

/-- The parameters of R6, but for `Prog`, which stands in the state beside them. -/
structure Config where
  /-- `ILEN` (R6, R27). -/
  ilen : Nat
  ilen_pos : 0 < ilen
  /-- `ResetPC` (R6, R39). -/
  resetPC : PWord 14
  /-- `EndPC` (R6, R226). -/
  endPC : EndPC
  /-- `MemDomain` (R6, R51). -/
  memDomain : List Region
  /-- `InitMem` (R6, R39). -/
  initMem : InitMem
  /-- `PentOrder` (R6, R56). -/
  pentOrder : PentOrder
  /-- `ALIGN28` (R6, R58). -/
  align28 : Nat
  align28_pos : 0 < align28
  /-- `ALIGN56` (R6, R58). -/
  align56 : Nat
  align56_pos : 0 < align56
  /-- `B128_PENTS` (R6, R60): the round-trip law of R60 needs `2^128 ≤ 5^B128_PENTS` (DEDUCED, log entry 9). -/
  b128Pents : Nat
  b128Pents_fit : 56 ≤ b128Pents
  /-- `ALIGN_B128` (R6, R60). -/
  alignB128 : Nat
  alignB128_pos : 0 < alignB128
  /-- Which pair `B128Enc`, `B128Dec` (R6, R60); the pair itself is a free value (log entry 9). -/
  b128Codec : Nat
  /-- `PentCode` (R6). -/
  pentCode : PentCode
  /-- `DivQ` (R6). -/
  quotient : QuotientRule
  /-- `BinTrunc` (R6). -/
  binTrunc : BinTruncRule
deriving DecidableEq, Repr

/-- R6's defaults where it gives one; where it gives none, a value named in log entry 2 (DESIGN CHOICE, unsafe for what is
claimed of this one configuration alone): `ILEN` 1, `ResetPC` 0, `MemDomain` 0..511 and `InitMem` 0 as in
95_test_vectors.md, `B128_PENTS` 56, codec number 0, a coding of the pents. -/
def Config.default : Config where
  ilen := 1
  ilen_pos := by decide
  resetPC := PWord.zero 14
  endPC := .afterLast
  memDomain := [.run 0 512]
  initMem := ⟨[], .all .zero⟩
  pentOrder := .lspFirst
  align28 := 32
  align28_pos := by decide
  align56 := 64
  align56_pos := by decide
  b128Pents := 56
  b128Pents_fit := by decide
  alignB128 := 1
  alignB128_pos := by decide
  b128Codec := 0
  pentCode := ⟨0#3, 1#3, 2#3, 3#3, 4#3, by decide⟩
  quotient := .truncate
  binTrunc := .twosComplement

/-- The largest magnitude of a binary128 value the source's tests name, `2^127 - 1` (R9, R14). -/
def b128Max : Int := 2 ^ 127 - 1

/-- A binary128 value: a signed two's-complement 128-bit integer (R14). -/
abbrev IsB128 (b : Int) : Prop := -(2 ^ 127) ≤ b ∧ b ≤ 2 ^ 127 - 1

/-- A codec between 128-bit integers and memory images of pents, the pent of the lowest address first (R60). -/
structure B128Codec where
  enc : Int → List Pent
  dec : List Pent → Int

/-- All that R60 says of a codec of `n` pents: an image has `n` pents, every sequence of `n` pents decodes to a binary128
value, and decoding an image gives the value back. -/
def B128Codec.Lawful (c : B128Codec) (n : Nat) : Prop :=
  (∀ b, IsB128 b → (c.enc b).length = n) ∧ (∀ w, w.length = n → IsB128 (c.dec w)) ∧
    (∀ b, IsB128 b → c.dec (c.enc b) = b)

/-- A free value (log entry 9): codec number `k` for images of `n` pents, where there is one. -/
opaque Config.freeCodec : (k n : Nat) → Option { c : B128Codec // c.Lawful n }

/-- A free value (log entry 6): whether the address `a` is in set number `k` of addresses that exist. -/
opaque Config.freeDomain : (k : Nat) → (a : Int) → Bool

/-- A free value (log entry 6): the pent that function number `k` gives the address `a` at reset. -/
opaque Config.freeInit : (k : Nat) → (a : Int) → Pent

/-- A free value (log entry 10): pent `i` of the image that the draw number `n` leaves in memory (R136, U1). -/
opaque Config.freePent : (n i : Nat) → Pent

/-- A free value (log entry 7): quotient rule number `k` on dividend `a` and divisor `b`. -/
opaque Config.freeQuotient : (k : Nat) → (a b : Int) → Int

/-- A free value (log entry 8): rule number `k` for the result of a truncation to `m` bits of a `v` out of range. -/
opaque Config.freeBinTrunc : (k m : Nat) → (v : Int) → Int

end Sys2Proof
end

