-- ==== Sys2Proof/Machine/Numbers.lean ====
section
/-! DEFINITION. The number system (00_scope.md rules R8 to R14) and the parameters that are functions of values (R6):
wrapping, carry, clamping, splitting, the pents of a value, quotients, the truncation to a binary range, the binary128
codec. All arithmetic is on unbounded integers; a value is narrowed only where a rule says so (R15). -/

namespace Sys2Proof.Machine

/-! ## Narrowing (R10, R11) -/

/-- `bal_N(v)`: the integer in [-M_N, M_N] congruent to `v` modulo `5^N` (R10). -/
def bal (n : Nat) (v : Int) : Int := (v + maxMag n) % radixPow n - maxMag n

/-- `carry_N(v) = (v - bal_N(v)) / 5^N`, an exact integer (R10). -/
def carry (n : Nat) (v : Int) : Int := (v - bal n v) / radixPow n

/-- `clamp_N(v)` (R10). -/
def clamp (n : Nat) (v : Int) : Int := if v > maxMag n then maxMag n else if v < -maxMag n then -maxMag n else v

/-- `sgn(v)` (R10). -/
def sgn (v : Int) : Sign := if v > 0 then .pos else if v = 0 then .zero else .neg

/-- `lo_k(v)`: the value of pents k-1 .. 0 of `v` (R11). -/
def lo (k : Nat) (v : Int) : Int := bal k v

/-- `hi_k(v)`: the value of the pents above them (R11). -/
def hi (k : Nat) (v : Int) : Int := (v - bal k v) / radixPow k

/-- Whether `v` is the value of an N-pent word (R8). -/
abbrev Fits (n : Nat) (v : Int) : Prop := -maxMag n ≤ v ∧ v ≤ maxMag n

/-- `2 M_N + 1 = 5^N` (R8, R9). -/
theorem two_maxMag_add_one (n : Nat) : 2 * maxMag n + 1 = radixPow n := by
  have hodd : (5 ^ n) % 2 = 1 := by
    induction n with
    | zero => rfl
    | succ k ih => rw [pow_succ]; omega
  unfold maxMag radixPow
  generalize 5 ^ n = k at hodd ⊢
  omega

/-- The result of `bal_N` is in range (R10). -/
theorem bal_fits (n : Nat) (v : Int) : Fits n (bal n v) := by
  have h := two_maxMag_add_one n
  have hpos : (0 : Int) < radixPow n := by unfold radixPow; positivity
  have h0 := Int.emod_nonneg (v + maxMag n) (ne_of_gt hpos)
  have h1 := Int.emod_lt_of_pos (v + maxMag n) hpos
  unfold Fits bal
  omega

/-- The N-pent word with the value `bal_N(v)`: the word of `v` itself when `v` is in range (R10). -/
def wordOf (n : Nat) (v : Int) : PWord n := ⟨bal n v, (bal_fits n v).1, (bal_fits n v).2⟩

/-! ## The sign of a value in a flag (R32) -/

/-- An integer of {-1, 0, +1} as a flag value: its sign. -/
def signOf (v : Int) : Sign := sgn v

/-! ## The pents of a value (R8, R15, R16) -/

/-- `pents_N(v)` as the list p_0, ..., p_(N-1) (R15). -/
def pents : Nat → Int → List Pent
  | 0, _ => []
  | n + 1, v => Pent.ofInt (bal 1 v) :: pents n (hi 1 v)

/-- `val(w)` of a word given as the list p_0, ..., p_(N-1) (R8). -/
def valOf : List Pent → Int
  | [] => 0
  | p :: ps => p.toInt + 5 * valOf ps

/-- The 3-bit code of one pent (R6 `PentCode`). -/
def pentBits (code : PentCode) : Pent → BitVec 3
  | .n2 => code.n2
  | .n1 => code.n1
  | .zero => code.zero
  | .p1 => code.p1
  | .p2 => code.p2

/-- The physical bits of a word, three for each pent, p_0 first (R5; unobservable, 92_eei_decisions.md D2). -/
def physicalBits (code : PentCode) (n : Nat) (w : PWord n) : List Bool :=
  (pents n w.val).flatMap fun p => [(pentBits code p).getLsbD 0, (pentBits code p).getLsbD 1, (pentBits code p).getLsbD 2]

/-- The list of pents in the order they lie in memory (R54, R55, R56). -/
def memoryOrder (o : PentOrder) (w : List Pent) : List Pent :=
  match o with
  | .lspFirst => w
  | .mspFirst => w.reverse

/-! ## Division (R100 law 5, `DivQ`) -/

/-- Truncation toward zero: `sgn(a) * sgn(b) * floor(|a| / |b|)` (R100 law 5). -/
def truncQuotient (a b : Int) : Int := (sgn a).toInt * (sgn b).toInt * ((a.natAbs / b.natAbs : Nat) : Int)

/-- `DivQ(a, b)` for a divisor that is not 0. Every rule agrees on exact divisions (93_implementation_defined.md U4) and
`|DivQ(a, b)| ≤ |a|` (R100 law 5); a free rule that breaks the bound is read as truncation (log entry 7). -/
def divQ (rule : QuotientRule) (a b : Int) : Int :=
  match rule with
  | .truncate => truncQuotient a b
  | .free k =>
    if a % b = 0 then truncQuotient a b
    else if (Config.freeQuotient k a b).natAbs ≤ a.natAbs then Config.freeQuotient k a b
    else truncQuotient a b

/-! ## Truncation to a binary range (43_mixed_and_conversion.md section 5, `BinTrunc`) -/

/-- The largest magnitude in the binary range of `m` bits: `2^(m-1) - 1`. -/
def binMax (m : Nat) : Int := 2 ^ (m - 1) - 1

/-- The two's-complement wrap: `((v + 2^(m-1)) mod 2^m) - 2^(m-1)`. -/
def binWrap (m : Nat) (v : Int) : Int := (v + 2 ^ (m - 1)) % 2 ^ m - 2 ^ (m - 1)

/-- `BinTrunc(m, v)` for a `v` out of the binary range (R6, R159 to R161). -/
def binTrunc (rule : BinTruncRule) (m : Nat) (v : Int) : Int :=
  match rule with
  | .twosComplement => binWrap m v
  | .free k => Config.freeBinTrunc k m v

/-- The value clamped to [-(2^127 - 1), 2^127 - 1] (R137). -/
def clampB128 (v : Int) : Int := if v > b128Max then b128Max else if v < -b128Max then -b128Max else v

/-! ## binary128 images (R60) -/

/-- A codec that satisfies R60 from 56 pents on: the pents of the value itself. It stands here only so that there is one
where `Config.freeCodec` names none. -/
def balancedCodec (n : Nat) : B128Codec where
  enc b := pents n b
  dec w := if IsB128 (valOf w) then valOf w else 0

/-- `B128Enc` and `B128Dec` of a configuration (R6, R60): a free value, lawful by its type (log entry 9). -/
def b128CodecOf (cfg : Config) : B128Codec :=
  match Config.freeCodec cfg.b128Codec cfg.b128Pents with
  | some c => c.val
  | none => balancedCodec cfg.b128Pents

/-- The unspecified image of draw number `n` (R136, U1): as many pents as a binary128 image has, each a free value. -/
def drawnImage (cfg : Config) (n : Nat) : List Pent := (List.range cfg.b128Pents).map (Config.freePent n)

end Sys2Proof.Machine
end

