-- ==== Sys2Proof/Machine/State.lean ====
section
/-! DEFINITION. The machine's state as plain data (10_state.md rule R20), the ways a step can stop (60_exceptions.md rules
R200 to R202), and the state after reset (R39, R220). -/

namespace Sys2Proof.Machine

/-- The architectural state of R20, with the configuration and the program text that R20 calls configuration beside it
(no instruction writes those two) and the model's own counter of draws. -/
structure State where
  /-- The open parameters of R6; never written. -/
  cfg : Config
  /-- `Prog` (R80): the program's terms with their addresses; never written by an instruction (R69). -/
  prog : List (Int × Term)
  /-- R0 to R31 (R22). The slot of R0 is neither read nor written: see `State.readR`, `State.writeR`. -/
  gpr : Vector (PWord 14) 32
  /-- X0 to X31, the P16 file (R30). -/
  xpr : Vector (PWord 16) 32
  /-- PC14 (R27). -/
  pc : PWord 14
  /-- `CC` of SR14 (R31, R32). -/
  flagCC : Sign
  /-- `C` of SR14 (R31, R32, R170). -/
  flagC : Sign
  /-- `V` of SR14 (R31, R32). -/
  flagV : Bool
  /-- `S` of SR14 (R31, R32). -/
  flagS : Bool
  /-- ACC28 (R35). -/
  acc28 : PWord 28
  /-- ACC56 (R35). -/
  acc56 : PWord 56
  /-- ACC112 (R35). -/
  acc112 : PWord 112
  /-- `Mem` (R50): the pents that differ from `InitMem`, addresses strictly rising; see `Memory.wf`. -/
  mem : List (Int × Pent)
  /-- The model's own (log entry 10): how many unspecified images have been drawn. -/
  draws : Nat
deriving DecidableEq, Repr

/-- The fault causes of R201, in the order of their codes. A fault is a terminal outcome: the faulting instruction writes
nothing and no later instruction executes (R200). All are safe: the model says nothing of what follows. -/
inductive Fault where
  /-- Raised by the fetch when `Prog(pc)` is undefined and `pc` is not `EndPC` (R28, R201 code 1). Safe. -/
  | noInstruction (pc : Int)
  /-- Raised by every instruction when the next `pc` would lie outside [-M_14, M_14] (R28, R201 code 2). Safe. -/
  | pcOutOfRange (pc : Int)
  /-- Raised by the aligned memory forms when `EA mod ALIGN` is not 0 (R58, R201 code 3). Safe. -/
  | misaligned (pc ea : Int)
  /-- Raised by the memory instructions when an address of the access is outside `MemDomain` (R61, R201 code 4). Safe. -/
  | accessFault (pc ea : Int)
  /-- Raised by DIV14, DIV28 and DIV56 when the divisor is 0 (R100, R201 code 5). Safe. -/
  | divideByZero (pc : Int)
deriving DecidableEq, Repr

/-- Why a term or a program has no execution (R86, R90, R202). -/
inductive Refusal where
  /-- Raised by `exec` for an instruction without a meaning; none is left. Safe. -/
  | notModelled (mnemonic : String)
  /-- Raised by the fetch for a term that fails a check of R90, by the loader for a program that does, and by EXTEND14 and
  SPLIT28 for the forms R86 refuses. Safe: nothing is said of such a program. -/
  | notAdmitted (check : Check)
deriving DecidableEq, Repr

/-- What one step answers. -/
abbrev Result := Host.Outcome State Fault Refusal

/-- The state after reset for a configuration and a program (R39, R220): registers, P16 file, accumulators and flags 0,
`PC14 = ResetPC`, `Mem = InitMem`. -/
def State.resetWith (cfg : Config) (prog : List (Int × Term)) : State where
  cfg := cfg
  prog := prog
  gpr := Vector.replicate 32 (PWord.zero 14)
  xpr := Vector.replicate 32 (PWord.zero 16)
  pc := cfg.resetPC
  flagCC := .zero
  flagC := .zero
  flagV := false
  flagS := false
  acc28 := PWord.zero 28
  acc56 := PWord.zero 56
  acc112 := PWord.zero 112
  mem := []
  draws := 0

/-- The state after reset with the configuration of log entry 2 and no program: a program is loaded from outside
(log entry 3). -/
def State.reset : State := State.resetWith Config.default []

end Sys2Proof.Machine
end

