-- ==== Sys2Proof/Machine/Operands.lean ====
section
/-! DEFINITION. The operand classes (30_encoding.md rule R82): reading and writing the general registers, their pair and quad
views, the P16 file, the accumulators, and the effective address of a memory operand (R15, R22 to R26, R30, R35, R53). -/

namespace Sys2Proof.Machine

/-- `R[i]`: R0 reads as 0 (R15, R22). -/
def State.readR (s : State) (i : RIdx) : Int := if i = 0 then 0 else s.gpr[i].val

/-- `R[i] <- v`: a write to R0 changes nothing (R15, R22). -/
def State.writeR (s : State) (i : RIdx) (v : Int) : State :=
  if i = 0 then s else { s with gpr := s.gpr.set i (wordOf 14 v) }

/-- `D[k] = R[2k+1] * 5^14 + R[2k]` (R24). -/
def State.readD (s : State) (k : DIdx) : Int := s.readR k.high * radixPow 14 + s.readR k.low

/-- `D[k] <- v : R[2k] <- lo_14(v); R[2k+1] <- hi_14(v)` (R24). -/
def State.writeD (s : State) (k : DIdx) (v : Int) : State := (s.writeR k.low (lo 14 v)).writeR k.high (hi 14 v)

/-- `Q[k] = D[2k+1] * 5^28 + D[2k]` (R25). -/
def State.readQ (s : State) (k : QIdx) : Int := s.readD k.high * radixPow 28 + s.readD k.low

/-- `Q[k] <- v : D[2k] <- lo_28(v); D[2k+1] <- hi_28(v)` (R25). -/
def State.writeQ (s : State) (k : QIdx) (v : Int) : State := (s.writeD k.low (lo 28 v)).writeD k.high (hi 28 v)

/-- `X[i]` (R15, R30). -/
def State.readX (s : State) (i : XIdx) : Int := s.xpr[i].val

/-- `X[i] <- v` (R15, R30): storage apart from the general registers. -/
def State.writeX (s : State) (i : XIdx) (v : Int) : State := { s with xpr := s.xpr.set i (wordOf 16 v) }

/-- `ACC28 <- v` (R35). -/
def State.writeAcc28 (s : State) (v : Int) : State := { s with acc28 := wordOf 28 v }

/-- `ACC56 <- v` (R35). -/
def State.writeAcc56 (s : State) (v : Int) : State := { s with acc56 := wordOf 56 v }

/-- `ACC112 <- v` (R35). -/
def State.writeAcc112 (s : State) (v : Int) : State := { s with acc112 := wordOf 112 v }

/-- `EA = R[base] + offset`, an exact integer (R53). -/
def State.effAddr (s : State) (m : MemOperand) : Int := s.readR m.base + m.offset

end Sys2Proof.Machine
end

