-- ==== Sys2Proof/Machine/Flags.lean ====
section
/-! DEFINITION. The status register SR14: writing each of its four flags, and the conditions the rules write into them
(10_state.md rules R31, R32, R33; 44_carry_and_overflow.md rule R170). -/

namespace Sys2Proof.Machine

/-- `CC <- sgn(v)` (R33). -/
def State.setCC (s : State) (v : Int) : State := { s with flagCC := sgn v }

/-- `C <- v` for a `v` in {-1, 0, +1} (R32, R170). -/
def State.setC (s : State) (v : Int) : State := { s with flagC := signOf v }

/-- `V <- 1` if the condition holds, else 0 (R33). -/
def State.setV (s : State) (b : Bool) : State := { s with flagV := b }

/-- `S <- 1` if the condition holds, else 0 (R33). -/
def State.setS (s : State) (b : Bool) : State := { s with flagS := b }

/-- The overflow condition at N pents: `|v| > M_N` (R33, R151, R173). -/
def exceeds (n : Nat) (v : Int) : Bool := decide (v > maxMag n) || decide (v < -maxMag n)

/-- The overflow condition of the truncations: `hi_k(v) != 0` (R156, R157, R158). -/
def hasHigh (k : Nat) (v : Int) : Bool := decide (hi k v ≠ 0)

/-- The binary-range condition at `m` bits: `|v| > 2^(m-1) - 1` (R33, R136, R159 to R161). -/
def exceedsBin (m : Nat) (v : Int) : Bool := decide (v > binMax m) || decide (v < -binMax m)

/-- A two-valued flag as a pent (R31, R32). -/
def flagPent (b : Bool) : Pent := if b then .p1 else .zero

/-- SR14 as a word of four pents, pent 0 first: `CC`, `C`, `V`, `S` (R31). No instruction reads it. -/
def State.sr14 (s : State) : List Pent := [s.flagCC.toPent, s.flagC.toPent, flagPent s.flagV, flagPent s.flagS]

end Sys2Proof.Machine
end

