-- ==== Sys2Proof/Machine/Ops.lean ====
section
/-! DEFINITION. The shared operations: data memory (20_memory.md), the end of an instruction (10_state.md rules R27, R28),
raising a fault (60_exceptions.md rules R200, R201, R203), the program text (R80) and its end (R226). There is no exception
entry and no return from one: the machine has no trap mechanism (R200, R205), and a fault is the end of a run. -/

namespace Sys2Proof.Machine

/-! ## Data memory as a list of the pents that differ from `InitMem` -/

/-- `InitMem(a)` (R6, R39): what an address reads as while nothing has been written to it (R63). -/
def initPent (cfg : Config) (a : Int) : Pent :=
  match cfg.initMem.listed.find? (fun e => e.1 == a) with
  | some e => e.2
  | none =>
    match cfg.initMem.rest with
    | .all p => p
    | .free k => Config.freeInit k a

/-- Reading one pent of the list. -/
def memGet (cfg : Config) : List (Int × Pent) → Int → Pent
  | [], a => initPent cfg a
  | (b, q) :: rest, a => if a = b then q else memGet cfg rest a

/-- The list without the entries of an address. -/
def memErase (m : List (Int × Pent)) (a : Int) : List (Int × Pent) := m.filter fun e => e.1 != a

/-- The list with an entry for an address it does not hold, placed before the first higher address. -/
def memInsert : List (Int × Pent) → Int → Pent → List (Int × Pent)
  | [], a, p => [(a, p)]
  | (b, q) :: rest, a, p => if a < b then (a, p) :: (b, q) :: rest else (b, q) :: memInsert rest a p

/-- Writing one pent: the addresses stay strictly rising, and an address that reads as `InitMem` is not listed. -/
def memSet (cfg : Config) (m : List (Int × Pent)) (a : Int) (p : Pent) : List (Int × Pent) :=
  if p = initPent cfg a then memErase m a else memInsert (memErase m a) a p

/-- The canonical form of memory: addresses strictly rising, no entry equal to what its address reads as unlisted. -/
def Memory.wf (cfg : Config) : List (Int × Pent) → Bool
  | [] => true
  | (b, q) :: rest =>
    rest.all (fun e => decide (b < e.1)) && decide (q ≠ initPent cfg b) && Memory.wf cfg rest

/-- `Mem(a)` (R50, R63). -/
def State.readPent (s : State) (a : Int) : Pent := memGet s.cfg s.mem a

/-- `Mem(a) <- p` (R50, R63). -/
def State.writePent (s : State) (a : Int) (p : Pent) : State := { s with mem := memSet s.cfg s.mem a p }

/-- The pents at `a, a+1, ..., a+n-1`. -/
def State.readPents (s : State) : Nat → Int → List Pent
  | 0, _ => []
  | n + 1, a => s.readPent a :: s.readPents n (a + 1)

/-- Pents stored at `a, a+1, ...`. -/
def State.writePents (s : State) (a : Int) : List Pent → State
  | [] => s
  | p :: ps => (s.writePent a p).writePents (a + 1) ps

/-- `MemRead(a, n)` (R54). -/
def State.memRead (s : State) (a : Int) (n : Nat) : Int := valOf (memoryOrder s.cfg.pentOrder (s.readPents n a))

/-- `MemWrite(a, n, v)` (R55). -/
def State.memWrite (s : State) (a : Int) (n : Nat) (v : Int) : State :=
  s.writePents a (memoryOrder s.cfg.pentOrder (pents n v))

/-- `MemReadB128(a)` (R60). -/
def State.memReadB128 (s : State) (a : Int) : Int := (b128CodecOf s.cfg).dec (s.readPents s.cfg.b128Pents a)

/-- `MemWriteB128(a, b)` (R60). -/
def State.memWriteB128 (s : State) (a b : Int) : State := s.writePents a ((b128CodecOf s.cfg).enc b)

/-- The image at `a` becomes unspecified: the next draw (R136, U1). -/
def State.memDrawB128 (s : State) (a : Int) : State :=
  { s.writePents a (drawnImage s.cfg s.draws) with draws := s.draws + 1 }

/-! ## Access checks (R58, R61, R203) -/

/-- Whether `a` is in one of the sets that `MemDomain` is made of (R6, log entry 6). -/
def regionHas (g : Region) (a : Int) : Bool :=
  match g with
  | .run first size => decide (first ≤ a) && decide (a < first + size)
  | .upFrom first => decide (first ≤ a)
  | .downFrom last => decide (a ≤ last)
  | .free k => Config.freeDomain k a

/-- Whether the address exists: `a` is in `MemDomain` (R51). -/
def inDomain (cfg : Config) (a : Int) : Bool := cfg.memDomain.any fun g => regionHas g a

/-- Whether `a, ..., a+n-1` all exist. -/
def rangeInDomain (cfg : Config) (a : Int) (n : Nat) : Bool := (List.range n).all fun k => inDomain cfg (a + k)

/-- The fault of an access of `n` pents at `ea`, if any: the alignment check comes first (R58, R61, R203). An alignment of 1
is no requirement (R59). -/
def State.accessCheck (s : State) (align : Nat) (ea : Int) (n : Nat) : Option Fault :=
  if ea % align ≠ 0 then some (.misaligned s.pc.val ea)
  else if rangeInDomain s.cfg ea n then none
  else some (.accessFault s.pc.val ea)

/-! ## The end of an instruction -/

/-- Raising a fault: the run stops and nothing of the instruction is written (R200). -/
def raise (f : Fault) : Result := .fault f

/-- `pc <- t`, checked last: outside [-M_14, M_14] the step faults and all its work is suppressed (R28, R203). -/
def State.goto (s : State) (t : Int) : Result :=
  if h : -maxMag 14 ≤ t ∧ t ≤ maxMag 14 then .next { s with pc := ⟨t, h.1, h.2⟩ } else raise (.pcOutOfRange s.pc.val)

/-- `pc <- pc + ILEN` (R27). -/
def State.advance (s : State) : Result := s.goto (s.pc.val + s.cfg.ilen)

/-! ## Shared meanings of the memory forms -/

/-- A 28-pent load into a pair with the given alignment (R117, R180). -/
def loadPair (align : Nat) (dd : DIdx) (m : MemOperand) (s : State) : Result :=
  match s.accessCheck align (s.effAddr m) 28 with
  | some f => raise f
  | none => (s.writeD dd (s.memRead (s.effAddr m) 28)).advance

/-- A 28-pent store of a pair with the given alignment (R118, R181). -/
def storePair (align : Nat) (m : MemOperand) (ds : DIdx) (s : State) : Result :=
  match s.accessCheck align (s.effAddr m) 28 with
  | some f => raise f
  | none => (s.memWrite (s.effAddr m) 28 (s.readD ds)).advance

/-- A 56-pent load into a quad with the given alignment (R140, R182). -/
def loadQuad (align : Nat) (qd : QIdx) (m : MemOperand) (s : State) : Result :=
  match s.accessCheck align (s.effAddr m) 56 with
  | some f => raise f
  | none => (s.writeQ qd (s.memRead (s.effAddr m) 56)).advance

/-- A 56-pent store of a quad with the given alignment (R141, R183). -/
def storeQuad (align : Nat) (m : MemOperand) (qs : QIdx) (s : State) : Result :=
  match s.accessCheck align (s.effAddr m) 56 with
  | some f => raise f
  | none => (s.memWrite (s.effAddr m) 56 (s.readQ qs)).advance

/-! ## The program text -/

/-- `Prog(a)` (R80). -/
def progAt (prog : List (Int × Term)) (a : Int) : Option Term := (prog.find? fun e => e.1 == a).map fun e => e.2

/-- `Prog(a) <- t`, the addresses kept rising: for placing a program from outside (log entry 3). -/
def progSet : List (Int × Term) → Int → Term → List (Int × Term)
  | [], a, t => [(a, t)]
  | (b, u) :: rest, a, t =>
    if a < b then (a, t) :: (b, u) :: rest
    else if a = b then (a, t) :: rest
    else (b, u) :: progSet rest a t

/-- `EndPC` (R226): the address given, or R6's default, the address after the last instruction of `Prog`. DESIGN CHOICE: where
`Prog` holds no instruction the default names no address, and the run has no end (log entry 25). -/
def endAddress (cfg : Config) (prog : List (Int × Term)) : Option Int :=
  match cfg.endPC with
  | .at a => some a
  | .afterLast => prog.getLast?.map fun e => e.1 + cfg.ilen

/-- `EndPC` of a state (R226). -/
def State.endPC (s : State) : Option Int := endAddress s.cfg s.prog

/-- The fetch: the term at `pc`, from `Prog` and never from `Mem` (R27, R69). -/
def State.fetch (s : State) : Option Term := progAt s.prog s.pc.val

end Sys2Proof.Machine
end

