-- ==== Sys2Proof/Machine/Branch.lean ====
section
/-! DEFINITION. Control transfer (46_branch.md rules R190, R191): BVS is the only one. -/

namespace Sys2Proof.Machine

/-- BVS (R190): to the target when `V` is 1, else to the next instruction; no flag is written, no delay slot, no link. -/
def execBvs (target : Int) (s : State) : Result := if s.flagV then s.goto target else s.advance

end Sys2Proof.Machine
end

