-- ==== Sys2Proof/Machine/Carry.lean ====
section
/-! DEFINITION. The carry chain and the overflow checks (44_carry_and_overflow.md rules R170 to R175). -/

namespace Sys2Proof.Machine

/-- ADD28C (R171): `D[Dd] <- bal_28(s)`, `C <- carry_28(s)` of the exact sum. -/
def execAdd28c (dd ds1 ds2 : DIdx) (s : State) : Result :=
  let sum := s.readD ds1 + s.readD ds2
  ((s.writeD dd (bal 28 sum)).setC (carry 28 sum)).advance

/-- ADDC28 (R172): as ADD28C with the old `C` in the sum. -/
def execAddc28 (dd ds1 ds2 : DIdx) (s : State) : Result :=
  let sum := s.readD ds1 + s.readD ds2 + s.flagC.toInt
  ((s.writeD dd (bal 28 sum)).setC (carry 28 sum)).advance

/-- OVFCHK14 (R173): `V` says whether the sum would overflow; the named destination is not written. -/
def execOvfchk14 (_rd rs1 rs2 : RIdx) (s : State) : Result :=
  (s.setV (exceeds 14 (s.readR rs1 + s.readR rs2))).advance

/-- OVFCHK28 (R174): `V` says whether the sum would overflow; the named destination is not written. -/
def execOvfchk28 (_dd ds1 ds2 : DIdx) (s : State) : Result :=
  (s.setV (exceeds 28 (s.readD ds1 + s.readD ds2))).advance

end Sys2Proof.Machine
end

