-- ==== Sys2Proof/Machine/Mixed.lean ====
section
/-! DEFINITION. Mixed precision, saturating addition, extension and truncation (43_mixed_and_conversion.md rules R150 to
R161). Extension keeps the value whatever its sign (R12). -/

namespace Sys2Proof.Machine

/-- ADD_MIX (R150): `D[Rd28] <- X[Rs16] + R[Rt14]`, which never wraps. -/
def execAddMix (dd : DIdx) (xs : XIdx) (rt : RIdx) (s : State) : Result :=
  (s.writeD dd (s.readX xs + s.readR rt)).advance

/-- ADDS14 (R151): the clamped sum; `S` says whether it was clamped. -/
def execAdds14 (rd rs1 rs2 : RIdx) (s : State) : Result :=
  let sum := s.readR rs1 + s.readR rs2
  ((s.writeR rd (clamp 14 sum)).setS (exceeds 14 sum)).advance

/-- ADDS28 (R152): the clamped sum; `S` says whether it was clamped. -/
def execAdds28 (dd ds1 ds2 : DIdx) (s : State) : Result :=
  let sum := s.readD ds1 + s.readD ds2
  ((s.writeD dd (clamp 28 sum)).setS (exceeds 28 sum)).advance

/-- SEXT14_28 (R153): `D[Dd] <- R[Rs]`. -/
def execSext14To28 (dd : DIdx) (rs : RIdx) (s : State) : Result := (s.writeD dd (s.readR rs)).advance

/-- SEXT14_56 (R154): `Q[Qd] <- R[Rs]`. -/
def execSext14To56 (qd : QIdx) (rs : RIdx) (s : State) : Result := (s.writeQ qd (s.readR rs)).advance

/-- SEXT28_56 (R155): `Q[Qd] <- D[Ds]`. -/
def execSext28To56 (qd : QIdx) (ds : DIdx) (s : State) : Result := (s.writeQ qd (s.readD ds)).advance

/-- TRUNC28_14 (R156): the low word; `V` says whether the high word is not 0. -/
def execTrunc28To14 (rd : RIdx) (ds : DIdx) (s : State) : Result :=
  let v := s.readD ds
  ((s.writeR rd (lo 14 v)).setV (hasHigh 14 v)).advance

/-- TRUNC56_28 (R157): the low pair; `V` says whether the high pair is not 0. -/
def execTrunc56To28 (dd : DIdx) (qs : QIdx) (s : State) : Result :=
  let v := s.readQ qs
  ((s.writeD dd (lo 28 v)).setV (hasHigh 28 v)).advance

/-- TRUNC56_14 (R158): the lowest word; `V` says whether the rest is not 0. -/
def execTrunc56To14 (rd : RIdx) (qs : QIdx) (s : State) : Result :=
  let v := s.readQ qs
  ((s.writeR rd (lo 14 v)).setV (hasHigh 14 v)).advance

/-- P56_TRUNC_B128 (R159): the value where it is in the 128-bit range, else `BinTrunc(128, v)`; `V` says which. -/
def execP56TruncB128 (qd qs : QIdx) (s : State) : Result :=
  let v := s.readQ qs
  if exceedsBin 128 v then ((s.writeQ qd (binTrunc s.cfg.binTrunc 128 v)).setV true).advance
  else ((s.writeQ qd v).setV false).advance

/-- P28_TRUNC_B64 (R160): the value where it is in the 64-bit range, else `BinTrunc(64, v)`; `V` says which. -/
def execP28TruncB64 (dd ds : DIdx) (s : State) : Result :=
  let v := s.readD ds
  if exceedsBin 64 v then ((s.writeD dd (binTrunc s.cfg.binTrunc 64 v)).setV true).advance
  else ((s.writeD dd v).setV false).advance

/-- P14_TRUNC_B32 (R161): the value where it is in the 32-bit range, else `BinTrunc(32, v)`; `V` says which. -/
def execP14TruncB32 (rd rs : RIdx) (s : State) : Result :=
  let v := s.readR rs
  if exceedsBin 32 v then ((s.writeR rd (binTrunc s.cfg.binTrunc 32 v)).setV true).advance
  else ((s.writeR rd v).setV false).advance

end Sys2Proof.Machine
end

