-- ==== Sys2Proof/Machine/P14.lean ====
section
/-! DEFINITION. The P14 instructions (40_p14.md rules R100 to R106): ADD14, SUB14, MUL14, DIV14, EXTEND14, TRUNC16. Plain
arithmetic wraps and writes no flag (R100 laws 2 and 3). -/

namespace Sys2Proof.Machine

/-- ADD14 (R101): `R[Rd] <- bal_14(a + b)`. -/
def execAdd14 (rd rs1 rs2 : RIdx) (s : State) : Result :=
  (s.writeR rd (bal 14 (s.readR rs1 + s.readR rs2))).advance

/-- SUB14 (R102): `R[Rd] <- bal_14(a - b)`. -/
def execSub14 (rd rs1 rs2 : RIdx) (s : State) : Result :=
  (s.writeR rd (bal 14 (s.readR rs1 - s.readR rs2))).advance

/-- MUL14 (R103): the exact product to ACC28, its low 14 pents to Rd. -/
def execMul14 (rd rs1 rs2 : RIdx) (s : State) : Result :=
  let p := s.readR rs1 * s.readR rs2
  ((s.writeAcc28 p).writeR rd (lo 14 p)).advance

/-- DIV14 (R104): `R[Rd] <- DivQ(a, b)`; a divisor 0 faults. -/
def execDiv14 (rd rs1 rs2 : RIdx) (s : State) : Result :=
  if s.readR rs2 = 0 then raise (.divideByZero s.pc.val)
  else (s.writeR rd (divQ s.cfg.quotient (s.readR rs1) (s.readR rs2))).advance

/-- EXTEND14 (R105): `X[Rd16] <- R[Rs14]`; destination index 0 is refused (R30, R86, log entry 12). -/
def execExtend14 (xd : XIdx) (rs : RIdx) (s : State) : Result :=
  if xd = 0 then .refused (.notAdmitted .xIndex) else (s.writeX xd (s.readR rs)).advance

/-- TRUNC16 (R106): `R[Rd14] <- lo_14(X[Rs16])`; no flag. -/
def execTrunc16 (rd : RIdx) (xs : XIdx) (s : State) : Result :=
  (s.writeR rd (lo 14 (s.readX xs))).advance

end Sys2Proof.Machine
end

