-- ==== Sys2Proof/Machine/P28.lean ====
section
/-! DEFINITION. The P28 instructions (41_p28.md rules R110 to R125): arithmetic, compare and test, load and store, split and
join, and the 56-pent accumulator. -/

namespace Sys2Proof.Machine

/-- ADD28 (R110): `D[Dd] <- bal_28(a + b)`. -/
def execAdd28 (dd ds1 ds2 : DIdx) (s : State) : Result :=
  (s.writeD dd (bal 28 (s.readD ds1 + s.readD ds2))).advance

/-- SUB28 (R111): `D[Dd] <- bal_28(a - b)`. -/
def execSub28 (dd ds1 ds2 : DIdx) (s : State) : Result :=
  (s.writeD dd (bal 28 (s.readD ds1 - s.readD ds2))).advance

/-- MUL28 (R112): the exact product to ACC56, its low 28 pents to Dd. -/
def execMul28 (dd ds1 ds2 : DIdx) (s : State) : Result :=
  let p := s.readD ds1 * s.readD ds2
  ((s.writeAcc56 p).writeD dd (lo 28 p)).advance

/-- DIV28 (R113): `D[Dd] <- DivQ(a, b)`; a divisor 0 faults. -/
def execDiv28 (dd ds1 ds2 : DIdx) (s : State) : Result :=
  if s.readD ds2 = 0 then raise (.divideByZero s.pc.val)
  else (s.writeD dd (divQ s.cfg.quotient (s.readD ds1) (s.readD ds2))).advance

/-- NEG28 (R114): `D[Dd] <- - D[Ds]`, exact. -/
def execNeg28 (dd ds : DIdx) (s : State) : Result := (s.writeD dd (-s.readD ds)).advance

/-- CMP28 (R115): `CC <- sgn(D[Ds1] - D[Ds2])`, the exact difference. -/
def execCmp28 (ds1 ds2 : DIdx) (s : State) : Result := (s.setCC (s.readD ds1 - s.readD ds2)).advance

/-- TST28 (R116): `CC <- sgn(D[Ds])`. -/
def execTst28 (ds : DIdx) (s : State) : Result := (s.setCC (s.readD ds)).advance

/-- LOAD28 (R117): alignment `ALIGN28`. -/
def execLoad28 (dd : DIdx) (m : MemOperand) (s : State) : Result := loadPair s.cfg.align28 dd m s

/-- STORE28 (R118): alignment `ALIGN28`. -/
def execStore28 (m : MemOperand) (ds : DIdx) (s : State) : Result := storePair s.cfg.align28 m ds s

/-- SPLIT28 (R119): the high word to Rd_hi, the low word to Rd_lo; equal destinations other than R0 are refused (R86, log
entry 13). -/
def execSplit28 (rdHi rdLo : RIdx) (ds : DIdx) (s : State) : Result :=
  if rdHi = rdLo ∧ rdHi ≠ 0 then .refused (.notAdmitted .splitDests)
  else
    let v := s.readD ds
    ((s.writeR rdHi (hi 14 v)).writeR rdLo (lo 14 v)).advance

/-- JOIN28 (R120): `D[Dd] <- h * 5^14 + l`. -/
def execJoin28 (dd : DIdx) (rsHi rsLo : RIdx) (s : State) : Result :=
  (s.writeD dd (s.readR rsHi * radixPow 14 + s.readR rsLo)).advance

/-- MACC28 (R121): `ACC56 <- bal_56(ACC56 + D[Ds1] * D[Ds2])`. -/
def execMacc28 (ds1 ds2 : DIdx) (s : State) : Result :=
  (s.writeAcc56 (bal 56 (s.acc56.val + s.readD ds1 * s.readD ds2))).advance

/-- MSUB28 (R122): `ACC56 <- bal_56(ACC56 - D[Ds1] * D[Ds2])`. -/
def execMsub28 (ds1 ds2 : DIdx) (s : State) : Result :=
  (s.writeAcc56 (bal 56 (s.acc56.val - s.readD ds1 * s.readD ds2))).advance

/-- GETACC28_HI (R123): `D[Dd] <- hi_28(ACC56)`. -/
def execGetacc28Hi (dd : DIdx) (s : State) : Result := (s.writeD dd (hi 28 s.acc56.val)).advance

/-- GETACC28_LO (R124): `D[Dd] <- lo_28(ACC56)`. -/
def execGetacc28Lo (dd : DIdx) (s : State) : Result := (s.writeD dd (lo 28 s.acc56.val)).advance

/-- CLRACC (R125): `ACC56 <- 0`. -/
def execClracc (s : State) : Result := (s.writeAcc56 0).advance

end Sys2Proof.Machine
end

