-- ==== Sys2Proof/Machine/P56.lean ====
section
/-! DEFINITION. The P56 instructions (42_p56.md rules R130 to R146): arithmetic, binary128 conversions, compare and test,
load and store, and the 112-pent accumulator. -/

namespace Sys2Proof.Machine

/-- ADD56 (R130): `Q[Qd] <- bal_56(a + b)`. -/
def execAdd56 (qd qs1 qs2 : QIdx) (s : State) : Result :=
  (s.writeQ qd (bal 56 (s.readQ qs1 + s.readQ qs2))).advance

/-- SUB56 (R131): `Q[Qd] <- bal_56(a - b)`. -/
def execSub56 (qd qs1 qs2 : QIdx) (s : State) : Result :=
  (s.writeQ qd (bal 56 (s.readQ qs1 - s.readQ qs2))).advance

/-- MUL56 (R132): the exact product to ACC112, its low 56 pents to Qd. -/
def execMul56 (qd qs1 qs2 : QIdx) (s : State) : Result :=
  let p := s.readQ qs1 * s.readQ qs2
  ((s.writeAcc112 p).writeQ qd (lo 56 p)).advance

/-- DIV56 (R133): `Q[Qd] <- DivQ(a, b)`; a divisor 0 faults. -/
def execDiv56 (qd qs1 qs2 : QIdx) (s : State) : Result :=
  if s.readQ qs2 = 0 then raise (.divideByZero s.pc.val)
  else (s.writeQ qd (divQ s.cfg.quotient (s.readQ qs1) (s.readQ qs2))).advance

/-- NEG56 (R134): `Q[Qd] <- - Q[Qs]`, exact. -/
def execNeg56 (qd qs : QIdx) (s : State) : Result := (s.writeQ qd (-s.readQ qs)).advance

/-- B128_TO_P56 (R135): `Q[Qd] <- MemReadB128(EA)`; no flag. -/
def execB128ToP56 (qd : QIdx) (m : MemOperand) (s : State) : Result :=
  match s.accessCheck s.cfg.alignB128 (s.effAddr m) s.cfg.b128Pents with
  | some f => raise f
  | none => (s.writeQ qd (s.memReadB128 (s.effAddr m))).advance

/-- P56_TO_B128 (R136): a value of magnitude at most `2^127 - 1` is stored and `V <- 0`; any other leaves an unspecified
image, a draw, and `V <- 1`. -/
def execP56ToB128 (m : MemOperand) (qs : QIdx) (s : State) : Result :=
  match s.accessCheck s.cfg.alignB128 (s.effAddr m) s.cfg.b128Pents with
  | some f => raise f
  | none =>
    if exceedsBin 128 (s.readQ qs) then ((s.memDrawB128 (s.effAddr m)).setV true).advance
    else ((s.memWriteB128 (s.effAddr m) (s.readQ qs)).setV false).advance

/-- P56_TO_B128_SAT (R137): the value clamped to the symmetric range is stored, `S` says whether it was clamped. -/
def execP56ToB128Sat (m : MemOperand) (qs : QIdx) (s : State) : Result :=
  match s.accessCheck s.cfg.alignB128 (s.effAddr m) s.cfg.b128Pents with
  | some f => raise f
  | none =>
    let v := s.readQ qs
    ((s.memWriteB128 (s.effAddr m) (clampB128 v)).setS (decide (clampB128 v ≠ v))).advance

/-- CMP56 (R138): `CC <- sgn(Q[Qs1] - Q[Qs2])`, the exact difference. -/
def execCmp56 (qs1 qs2 : QIdx) (s : State) : Result := (s.setCC (s.readQ qs1 - s.readQ qs2)).advance

/-- TST56 (R139): `CC <- sgn(Q[Qs])`. -/
def execTst56 (qs : QIdx) (s : State) : Result := (s.setCC (s.readQ qs)).advance

/-- LOAD56 (R140): alignment `ALIGN56`. -/
def execLoad56 (qd : QIdx) (m : MemOperand) (s : State) : Result := loadQuad s.cfg.align56 qd m s

/-- STORE56 (R141): alignment `ALIGN56`. -/
def execStore56 (m : MemOperand) (qs : QIdx) (s : State) : Result := storeQuad s.cfg.align56 m qs s

/-- MACC56 (R142): `ACC112 <- bal_112(ACC112 + Q[Qs1] * Q[Qs2])`. -/
def execMacc56 (qs1 qs2 : QIdx) (s : State) : Result :=
  (s.writeAcc112 (bal 112 (s.acc112.val + s.readQ qs1 * s.readQ qs2))).advance

/-- MSUB56 (R143): `ACC112 <- bal_112(ACC112 - Q[Qs1] * Q[Qs2])`. -/
def execMsub56 (qs1 qs2 : QIdx) (s : State) : Result :=
  (s.writeAcc112 (bal 112 (s.acc112.val - s.readQ qs1 * s.readQ qs2))).advance

/-- GETACC56_HI (R144): `Q[Qd] <- hi_56(ACC112)`. -/
def execGetacc56Hi (qd : QIdx) (s : State) : Result := (s.writeQ qd (hi 56 s.acc112.val)).advance

/-- GETACC56_LO (R145): `Q[Qd] <- lo_56(ACC112)`. -/
def execGetacc56Lo (qd : QIdx) (s : State) : Result := (s.writeQ qd (lo 56 s.acc112.val)).advance

/-- CLRACC112 (R146): `ACC112 <- 0`. -/
def execClracc112 (s : State) : Result := (s.writeAcc112 0).advance

end Sys2Proof.Machine
end

