-- ==== Sys2Proof/Machine/Unaligned.lean ====
section
/-! DEFINITION. The unaligned loads and stores (45_unaligned_access.md rules R180 to R183): as the aligned forms without an
alignment check (R59). -/

namespace Sys2Proof.Machine

/-- LOADU28 (R180). -/
def execLoadu28 (dd : DIdx) (m : MemOperand) (s : State) : Result := loadPair 1 dd m s

/-- STOREU28 (R181). -/
def execStoreu28 (m : MemOperand) (ds : DIdx) (s : State) : Result := storePair 1 m ds s

/-- LOADU56 (R182). -/
def execLoadu56 (qd : QIdx) (m : MemOperand) (s : State) : Result := loadQuad 1 qd m s

/-- STOREU56 (R183). -/
def execStoreu56 (m : MemOperand) (qs : QIdx) (s : State) : Result := storeQuad 1 m qs s

end Sys2Proof.Machine
end

