-- ==== Sys2Proof/Machine/Dispatch.lean ====
section
/-! DEFINITION. One arm for each constructor of Instr, in the order of spec/opcode_table.json. -/

namespace Sys2Proof.Machine

def exec (i : Instr) (s : State) : Host.Outcome State Fault Refusal :=
  match i with
  | .add14 rd rs1 rs2 => Sys2Proof.Machine.execAdd14 rd rs1 rs2 s
  | .sub14 rd rs1 rs2 => Sys2Proof.Machine.execSub14 rd rs1 rs2 s
  | .mul14 rd rs1 rs2 => Sys2Proof.Machine.execMul14 rd rs1 rs2 s
  | .div14 rd rs1 rs2 => Sys2Proof.Machine.execDiv14 rd rs1 rs2 s
  | .extend14 xd rs => Sys2Proof.Machine.execExtend14 xd rs s
  | .trunc16 rd xs => Sys2Proof.Machine.execTrunc16 rd xs s
  | .add28 dd ds1 ds2 => Sys2Proof.Machine.execAdd28 dd ds1 ds2 s
  | .sub28 dd ds1 ds2 => Sys2Proof.Machine.execSub28 dd ds1 ds2 s
  | .mul28 dd ds1 ds2 => Sys2Proof.Machine.execMul28 dd ds1 ds2 s
  | .div28 dd ds1 ds2 => Sys2Proof.Machine.execDiv28 dd ds1 ds2 s
  | .neg28 dd ds => Sys2Proof.Machine.execNeg28 dd ds s
  | .cmp28 ds1 ds2 => Sys2Proof.Machine.execCmp28 ds1 ds2 s
  | .tst28 ds => Sys2Proof.Machine.execTst28 ds s
  | .load28 dd m => Sys2Proof.Machine.execLoad28 dd m s
  | .store28 m ds => Sys2Proof.Machine.execStore28 m ds s
  | .split28 rdHi rdLo ds => Sys2Proof.Machine.execSplit28 rdHi rdLo ds s
  | .join28 dd rsHi rsLo => Sys2Proof.Machine.execJoin28 dd rsHi rsLo s
  | .macc28 ds1 ds2 => Sys2Proof.Machine.execMacc28 ds1 ds2 s
  | .msub28 ds1 ds2 => Sys2Proof.Machine.execMsub28 ds1 ds2 s
  | .getacc28Hi dd => Sys2Proof.Machine.execGetacc28Hi dd s
  | .getacc28Lo dd => Sys2Proof.Machine.execGetacc28Lo dd s
  | .clracc => Sys2Proof.Machine.execClracc s
  | .add56 qd qs1 qs2 => Sys2Proof.Machine.execAdd56 qd qs1 qs2 s
  | .sub56 qd qs1 qs2 => Sys2Proof.Machine.execSub56 qd qs1 qs2 s
  | .mul56 qd qs1 qs2 => Sys2Proof.Machine.execMul56 qd qs1 qs2 s
  | .div56 qd qs1 qs2 => Sys2Proof.Machine.execDiv56 qd qs1 qs2 s
  | .neg56 qd qs => Sys2Proof.Machine.execNeg56 qd qs s
  | .b128ToP56 qd m => Sys2Proof.Machine.execB128ToP56 qd m s
  | .p56ToB128 m qs => Sys2Proof.Machine.execP56ToB128 m qs s
  | .p56ToB128Sat m qs => Sys2Proof.Machine.execP56ToB128Sat m qs s
  | .cmp56 qs1 qs2 => Sys2Proof.Machine.execCmp56 qs1 qs2 s
  | .tst56 qs => Sys2Proof.Machine.execTst56 qs s
  | .load56 qd m => Sys2Proof.Machine.execLoad56 qd m s
  | .store56 m qs => Sys2Proof.Machine.execStore56 m qs s
  | .macc56 qs1 qs2 => Sys2Proof.Machine.execMacc56 qs1 qs2 s
  | .msub56 qs1 qs2 => Sys2Proof.Machine.execMsub56 qs1 qs2 s
  | .getacc56Hi qd => Sys2Proof.Machine.execGetacc56Hi qd s
  | .getacc56Lo qd => Sys2Proof.Machine.execGetacc56Lo qd s
  | .clracc112 => Sys2Proof.Machine.execClracc112 s
  | .addMix dd xs rt => Sys2Proof.Machine.execAddMix dd xs rt s
  | .adds14 rd rs1 rs2 => Sys2Proof.Machine.execAdds14 rd rs1 rs2 s
  | .adds28 dd ds1 ds2 => Sys2Proof.Machine.execAdds28 dd ds1 ds2 s
  | .sext14To28 dd rs => Sys2Proof.Machine.execSext14To28 dd rs s
  | .sext14To56 qd rs => Sys2Proof.Machine.execSext14To56 qd rs s
  | .sext28To56 qd ds => Sys2Proof.Machine.execSext28To56 qd ds s
  | .trunc28To14 rd ds => Sys2Proof.Machine.execTrunc28To14 rd ds s
  | .trunc56To28 dd qs => Sys2Proof.Machine.execTrunc56To28 dd qs s
  | .trunc56To14 rd qs => Sys2Proof.Machine.execTrunc56To14 rd qs s
  | .p56TruncB128 qd qs => Sys2Proof.Machine.execP56TruncB128 qd qs s
  | .p28TruncB64 dd ds => Sys2Proof.Machine.execP28TruncB64 dd ds s
  | .p14TruncB32 rd rs => Sys2Proof.Machine.execP14TruncB32 rd rs s
  | .add28c dd ds1 ds2 => Sys2Proof.Machine.execAdd28c dd ds1 ds2 s
  | .addc28 dd ds1 ds2 => Sys2Proof.Machine.execAddc28 dd ds1 ds2 s
  | .ovfchk14 rd rs1 rs2 => Sys2Proof.Machine.execOvfchk14 rd rs1 rs2 s
  | .ovfchk28 dd ds1 ds2 => Sys2Proof.Machine.execOvfchk28 dd ds1 ds2 s
  | .loadu28 dd m => Sys2Proof.Machine.execLoadu28 dd m s
  | .storeu28 m ds => Sys2Proof.Machine.execStoreu28 m ds s
  | .loadu56 qd m => Sys2Proof.Machine.execLoadu56 qd m s
  | .storeu56 m qs => Sys2Proof.Machine.execStoreu56 m qs s
  | .bvs target => Sys2Proof.Machine.execBvs target s

end Sys2Proof.Machine
end

