-- ==== Sys2Proof/Machine/Step.lean ====
section
/-! DEFINITION. One step of the machine (10_state.md rules R27, R28; 70_reset_and_hazards.md rule R226; 60_exceptions.md rules
R200 to R203), and the host's way to place one instruction where the next step fetches. -/

namespace Sys2Proof.Machine

/-- One step. At `EndPC` the run has finished, nothing is fetched and the state stays as it is (R226, log entry 4);
otherwise the term at `pc` is fetched from `Prog`, decoded and executed. -/
def step (s : State) : Host.Outcome State Fault Refusal :=
  if s.endPC = some s.pc.val then .next s
  else
    match s.fetch with
    | none => .fault (.noInstruction s.pc.val)
    | some t =>
      match decode t with
      | .error c => .refused (.notAdmitted c)
      | .ok i => exec i s

/-- `s` with the term of the given bits (see `decodeTableWord`) placed at `pc`. Where `EndPC` was given as that very
address, it becomes the address after the last instruction, so that the next step fetches (log entry 3). -/
def State.withFetchWord (s : State) (nbits w : Nat) : State :=
  { s with
    prog := progSet s.prog s.pc.val (readTerm (textOfBytes (bytesOfNat nbits w)))
    cfg := if s.cfg.endPC = .at s.pc.val then { s.cfg with endPC := .afterLast } else s.cfg }

end Sys2Proof.Machine
end

