-- ==== Sys2Proof/Machine/Load.lean ====
section
/-! DEFINITION. Loading a program from outside the machine (30_encoding.md rules R80, R90; 60_exceptions.md rule R202; log
entry 3): a program whose terms or whose whole fails a check is refused before any run. -/

namespace Sys2Proof.Machine

/-- Every term of the program text decoded, or the check that the first undecodable one fails. -/
def decodeProgram : List (Int × Term) → Except Check Program
  | [] => .ok []
  | (a, t) :: rest =>
    match decode t with
    | .error c => .error c
    | .ok i =>
      match decodeProgram rest with
      | .error c => .error c
      | .ok p => .ok ((a, i) :: p)

/-- `EndPC`, given or by default, lies in [-M_14, M_14] and `Prog` is undefined there (R226). -/
def endAddressOk (cfg : Config) (prog : List (Int × Term)) : Bool :=
  match endAddress cfg prog with
  | none => true
  | some a => decide (-maxMag 14 ≤ a) && decide (a ≤ maxMag 14) && (progAt prog a).isNone

/-- The check of R90 (or R226) that a program fails under a configuration, if any (R202). -/
def failedCheck (cfg : Config) (prog : List (Int × Term)) : Option Check :=
  match decodeProgram prog with
  | .error c => some c
  | .ok p =>
    match p.failedCheck cfg.ilen (endAddress cfg prog) with
    | some c => some c
    | none => if endAddressOk cfg prog then none else some .endAddress

/-- The loader: the reset state with the program, or the refusal of a program that is not admitted (R202, R220). -/
def load (cfg : Config) (prog : List (Int × Term)) : Result :=
  match failedCheck cfg prog with
  | some c => .refused (.notAdmitted c)
  | none => .next (State.resetWith cfg prog)

end Sys2Proof.Machine
end

