-- ==== Sys2Proof/Safety.lean ====
section
/-! DEFINITION. What a run is and how it ends (70_reset_and_hazards.md rule R226), what the machine keeps true, and the
machine's state as software sees it, the terms in which statements are made. -/

namespace Sys2Proof.Machine

/-! ## Runs -/

/-- The run has finished: `pc = EndPC` (R226). -/
abbrev State.Finished (s : State) : Prop := s.endPC = some s.pc.val

/-- The outcomes of a run (R226), with the refusals of R202, and `running` for a run not followed to its end. -/
inductive RunOutcome where
  | finished (s : State)
  | faulted (f : Fault)
  | refused (r : Refusal)
  | running (s : State)

/-- The run from `s`, followed for at most `fuel` steps. -/
def runFor : Nat → State → RunOutcome
  | 0, s => if s.Finished then .finished s else .running s
  | fuel + 1, s =>
    if s.Finished then .finished s
    else
      match step s with
      | .next t => runFor fuel t
      | .fault f => .faulted f
      | .refused r => .refused r

/-- `t` is reached from `s` by steps that answer a next state. -/
inductive Reaches (s : State) : State → Prop where
  | start : Reaches s s
  | step {t u : State} : Reaches s t → step t = .next u → Reaches s u

/-! ## What the machine keeps true -/

/-- The invariant of every step: memory is in canonical form, every pent it lists stands at an address that exists (R50,
R61), and the slot of R0, which nothing reads, holds 0 (R22). -/
def State.Inv (s : State) : Prop :=
  Memory.wf s.cfg s.mem = true ∧ (∀ e ∈ s.mem, inDomain s.cfg e.1 = true) ∧ s.gpr[0] = PWord.zero 14

/-- The writers of `CC` (R33). -/
def writesCC : Instr → Bool
  | .cmp28 _ _ | .cmp56 _ _ | .tst28 _ | .tst56 _ => true
  | _ => false

/-- The writers of `C` (R33). -/
def writesC : Instr → Bool
  | .add28c _ _ _ | .addc28 _ _ _ => true
  | _ => false

/-- The writers of `V` (R33). -/
def writesV : Instr → Bool
  | .p56ToB128 _ _ | .trunc28To14 _ _ | .trunc56To28 _ _ | .trunc56To14 _ _ | .p56TruncB128 _ _ | .p28TruncB64 _ _
  | .p14TruncB32 _ _ | .ovfchk14 _ _ _ | .ovfchk28 _ _ _ => true
  | _ => false

/-- The writers of `S` (R33). -/
def writesS : Instr → Bool
  | .adds14 _ _ _ | .adds28 _ _ _ | .p56ToB128Sat _ _ => true
  | _ => false

/-- The writers of ACC28 (R36). -/
def writesAcc28 : Instr → Bool
  | .mul14 _ _ _ => true
  | _ => false

/-- The writers of ACC56 (R36). -/
def writesAcc56 : Instr → Bool
  | .mul28 _ _ _ | .macc28 _ _ | .msub28 _ _ | .clracc => true
  | _ => false

/-- The writers of ACC112 (R36). -/
def writesAcc112 : Instr → Bool
  | .mul56 _ _ _ | .macc56 _ _ | .msub56 _ _ | .clracc112 => true
  | _ => false

/-- The access a memory instruction makes: its effective address, the alignment it needs (1 is none) and its width in pents
(R52, R58, R59, R60). -/
def State.accessOf (s : State) : Instr → Option (Int × Nat × Nat)
  | .load28 _ m | .store28 m _ => some (s.effAddr m, s.cfg.align28, 28)
  | .load56 _ m | .store56 m _ => some (s.effAddr m, s.cfg.align56, 56)
  | .loadu28 _ m | .storeu28 m _ => some (s.effAddr m, 1, 28)
  | .loadu56 _ m | .storeu56 m _ => some (s.effAddr m, 1, 56)
  | .b128ToP56 _ m | .p56ToB128 m _ | .p56ToB128Sat m _ => some (s.effAddr m, s.cfg.alignB128, s.cfg.b128Pents)
  | _ => none

/-- The instructions that write memory (R52). -/
def writesMemory : Instr → Bool
  | .store28 _ _ | .storeu28 _ _ | .store56 _ _ | .storeu56 _ _ | .p56ToB128 _ _ | .p56ToB128Sat _ _ => true
  | _ => false

/-- The divisor of a division (R104, R113, R133). -/
def State.divisorOf (s : State) : Instr → Option Int
  | .div14 _ _ rs2 => some (s.readR rs2)
  | .div28 _ _ ds2 => some (s.readD ds2)
  | .div56 _ _ qs2 => some (s.readQ qs2)
  | _ => none

/-- The state with other flags. -/
def State.withFlags (s : State) (cc c : Sign) (v b : Bool) : State :=
  { s with flagCC := cc, flagC := c, flagV := v, flagS := b }

/-- The next sequential `pc` is in the range of PC14 (R28). -/
abbrev State.CanAdvance (s : State) : Prop :=
  -maxMag 14 ≤ s.pc.val + s.cfg.ilen ∧ s.pc.val + s.cfg.ilen ≤ maxMag 14

/-- An access of `n` pents at `ea` is aligned and every address of it exists (R58, R61). -/
abbrev State.CanAccess (s : State) (align : Nat) (ea : Int) (n : Nat) : Prop :=
  ea % align = 0 ∧ rangeInDomain s.cfg ea n = true

/-! ## The state as software sees it -/

/-- What software can tell of a state: registers read by index, flags, accumulators, `pc`, every address of memory; and,
beside it, the configuration, the program text and the model's counter of draws. A field that an equation between two views
does not mention with a new value is stated to be unchanged. -/
structure View where
  reg : RIdx → Int
  xreg : XIdx → Int
  pc : Int
  cc : Sign
  c : Sign
  v : Bool
  s : Bool
  acc28 : Int
  acc56 : Int
  acc112 : Int
  mem : Int → Pent
  cfg : Config
  prog : List (Int × Term)
  draws : Nat

/-- The view of a state. -/
def State.view (s : State) : View where
  reg := s.readR
  xreg := s.readX
  pc := s.pc.val
  cc := s.flagCC
  c := s.flagC
  v := s.flagV
  s := s.flagS
  acc28 := s.acc28.val
  acc56 := s.acc56.val
  acc112 := s.acc112.val
  mem := s.readPent
  cfg := s.cfg
  prog := s.prog
  draws := s.draws

/-- Register `i` holds `v`, every other register what it held; R0 holds 0 whatever is written to it (R22). -/
def View.withR (w : View) (i : RIdx) (v : Int) : View :=
  { w with reg := fun j => if j = i ∧ i ≠ 0 then v else w.reg j }

/-- The pair D<k> holds `v`: R<2k+1> its pents 27..14, R<2k> its pents 13..0, but R0 stays as it is; every other register
holds what it held (R24, R26). -/
def View.withD (w : View) (k : DIdx) (v : Int) : View :=
  { w with
    reg := fun j =>
      if j.val = 2 * k.val + 1 then hi 14 v
      else if j.val = 2 * k.val ∧ j ≠ 0 then lo 14 v
      else w.reg j }

/-- The quad Q<k> holds `v`: register R<4k+j> its pents 14j+13 .. 14j, j = 0..3, but R0 stays as it is; every other register
holds what it held (R25, R26). -/
def View.withQ (w : View) (k : QIdx) (v : Int) : View :=
  { w with
    reg := fun j =>
      if j.val / 4 = k.val ∧ j ≠ 0 then lo 14 (hi (14 * (j.val % 4)) v)
      else w.reg j }

/-- X<i> holds `v`, every other register of the P16 file what it held (R30). -/
def View.withX (w : View) (i : XIdx) (v : Int) : View :=
  { w with xreg := fun j => if j = i then v else w.xreg j }

/-- The `n` pents from address `a` on hold the pents of `image`, the first at `a`; every other address holds what it
held (R55, R60). -/
def View.withMem (w : View) (a : Int) (n : Nat) (image : List Pent) : View :=
  { w with
    mem := fun b =>
      if a ≤ b ∧ b < a + n then image.getD (b - a).toNat .zero
      else w.mem b }

/-- The instruction has completed and `pc` stands at the next one (R27). -/
def View.next (w : View) : View := { w with pc := w.pc + w.cfg.ilen }

/-- `exec` answers a next state, and software sees it as `w`. -/
def Completes (i : Instr) (s : State) (w : View) : Prop := ∃ t, exec i s = .next t ∧ t.view = w

end Sys2Proof.Machine
end

