-- ==== Sys2Proof/Certificates/Slice0/Obligations.lean ====
section
/-! DEFINITION. The statements for the provers. An instruction's statement says with `Completes` that `exec` answers a next
state, and gives the whole view of it: what the view does not name anew (registers, flags, accumulators, every address of
memory, the configuration, the program) is unchanged. `View.next` moves `pc` by `ILEN`. Every statement holds for every
configuration (R6), which is part of the state. A clause that rests on a decision the spec marks as its own names the row of
92_eei_decisions.md. -/

open Sys2Proof Sys2Proof.Machine

/-! ## The number system -/

/-- 00_scope.md section 4: `val` is a bijection between N-pent words and [-M_N, M_N], and the sign of a value is the sign of
its most significant non-zero pent; negating every pent negates the value, which is always representable, and zero pents
above a word keep its value (inferences the spec marks as derived). -/
def Obligations.PentWordsCorrespondToValues : Prop :=
  ∀ n : Nat,
    (∀ v, Fits n v → (pents n v).length = n ∧ valOf (pents n v) = v) ∧
    (∀ w : List Pent, w.length = n → Fits n (valOf w) ∧ pents n (valOf w) = w) ∧
    (∀ (w : List Pent) (p : Pent), p ≠ .zero → sgn (valOf (w ++ p :: List.replicate n .zero)) = sgn p.toInt) ∧
    (∀ v, Fits n v → Fits n (-v) ∧ pents n (-v) = (pents n v).map Pent.neg) ∧
    (∀ w : List Pent, valOf (w ++ List.replicate n .zero) = valOf w)

/-- 00_scope.md section 4: `bal_N(v)` and `carry_N(v)` are the only way to write `v` with a value in range, and the carry of a
sum of two words and a carry is -1, 0 or +1, its sign saying which bound is passed (derived by the spec). -/
def Obligations.WrapAndCarryAreUnique : Prop :=
  ∀ (n : Nat) (v : Int),
    Fits n (bal n v) ∧ v = carry n v * radixPow n + bal n v ∧
    (∀ r q, Fits n r → v = q * radixPow n + r → r = bal n v ∧ q = carry n v) ∧
    (-(2 * maxMag n + 1) ≤ v → v ≤ 2 * maxMag n + 1 →
      carry n v = if v > maxMag n then 1 else if v < -maxMag n then -1 else 0)

/-- 00_scope.md section 4: a split is a split of the digit string, it is the only one, and the high part of j+k pents has j
pents (derived by the spec). -/
def Obligations.SplitIsASplitOfTheDigitString : Prop :=
  ∀ (j k : Nat) (v : Int),
    v = hi k v * radixPow k + lo k v ∧ Fits k (lo k v) ∧
    (∀ h l, Fits k l → v = h * radixPow k + l → h = hi k v ∧ l = lo k v) ∧
    (Fits (j + k) v → Fits j (hi k v)) ∧
    pents (k + j) v = pents k (lo k v) ++ pents j (hi k v)

/-- 40_p14.md section 1, law 5: whichever quotient rule an implementation has, the quotient's magnitude is at most the
dividend's and an exact division is exact; the default is truncation toward zero (92_eei_decisions.md D11; that free rules
agree on exact divisions is log entry 7). -/
def Obligations.QuotientBoundAndExactness : Prop :=
  ∀ (rule : QuotientRule) (a b : Int), b ≠ 0 →
    (divQ rule a b).natAbs ≤ a.natAbs ∧ (b ∣ a → divQ rule a b * b = a) ∧ divQ .truncate a b = Int.tdiv a b

/-! ## Registers and their views -/

/-- R22: R0 reads 0 and a write to it changes nothing; every other register holds what is written to it and no other register
changes; a register's value is in [-M_14, M_14]; before any write it holds its reset value, 0. -/
def Obligations.RegisterZeroIsHardwired : Prop :=
  ∀ (s : State),
    (∀ cfg prog i, (State.resetWith cfg prog).readR i = 0) ∧
    s.readR 0 = 0 ∧ (∀ v, s.writeR 0 v = s) ∧ (∀ i, Fits 14 (s.readR i)) ∧
    (∀ i v, i ≠ 0 → Fits 14 v → (s.writeR i v).view = s.view.withR i v ∧ (s.writeR i v).readR i = v)

/-- 10_state.md section 2: the pair views alias the general registers; D0 keeps only the high word of what is written
(that one file is aliased is 92_eei_decisions.md D3). -/
def Obligations.PairViewsAliasTheRegisters : Prop :=
  ∀ (s : State) (k : DIdx),
    s.readD k = s.readR k.high * radixPow 14 + s.readR k.low ∧ Fits 28 (s.readD k) ∧
    ∀ v, Fits 28 v →
      (s.writeD k v).view = s.view.withD k v ∧
      (s.writeD k v).readD k = if k = 0 then hi 14 v * radixPow 14 else v

/-- 10_state.md section 2: the quad views alias the general registers and the pairs; Q0 drops the lowest 14 pents of what is
written (that one file is aliased is 92_eei_decisions.md D3). -/
def Obligations.QuadViewsAliasTheRegisters : Prop :=
  ∀ (s : State) (k : QIdx),
    s.readQ k = s.readR k.high.high * radixPow 42 + s.readR k.high.low * radixPow 28 +
      s.readR k.low.high * radixPow 14 + s.readR k.low.low ∧
    Fits 56 (s.readQ k) ∧
    ∀ v, Fits 56 v →
      (s.writeQ k v).view = s.view.withQ k v ∧
      (s.writeQ k v).readQ k = if k = 0 then v - lo 14 v else v

/-- 10_state.md section 4: the P16 file is storage apart from the general registers (92_eei_decisions.md D4). -/
def Obligations.P16FileIsSeparateStorage : Prop :=
  ∀ (s : State) (i : XIdx) (j : RIdx) (v : Int),
    (s.writeX i v).readR = s.readR ∧ (s.writeR j v).readX = s.readX ∧
    (Fits 16 v → (s.writeX i v).view = s.view.withX i v)

/-! ## Reset -/

/-- 10_state.md section 9: what reset leaves, for every configuration and program: registers, P16 file and accumulators 0 as
the source's constructor sets them; flags 0, `PC14 = ResetPC` and `Mem = InitMem` are the spec's decision D27. -/
def Obligations.ResetLeavesZerosAndParameters : Prop :=
  ∀ (cfg : Config) (prog : List (Int × Term)),
    (State.resetWith cfg prog).view =
      { reg := fun _ => 0, xreg := fun _ => 0, pc := cfg.resetPC.val, cc := .zero, c := .zero, v := false, s := false,
        acc28 := 0, acc56 := 0, acc112 := 0, mem := initPent cfg, cfg := cfg, prog := prog,
        draws := (State.resetWith cfg prog).draws }

/-- The invariant of the machine holds after reset, whatever the configuration and the program (model's own invariant over
20_memory.md sections 1 and 6 and the register R0). -/
def Obligations.ResetHasTheInvariant : Prop :=
  ∀ (cfg : Config) (prog : List (Int × Term)), (State.resetWith cfg prog).Inv ∧ State.reset.Inv

/-! ## The whole machine -/

/-- Every step keeps memory canonical and inside `MemDomain`, and the slot of R0 at 0. -/
def Obligations.StepKeepsTheInvariant : Prop :=
  ∀ s t : State, s.Inv → step s = .next t → t.Inv

/-- 20_memory.md section 8: no step changes the program or the configuration; a store never changes what a later fetch
returns (92_eei_decisions.md D29). -/
def Obligations.StepKeepsConfigurationAndProgram : Prop :=
  ∀ s t : State, step s = .next t → t.cfg = s.cfg ∧ t.prog = s.prog

/-- 10_state.md section 5: a flag changes only by an instruction of its row of the table of flag writers
(92_eei_decisions.md D6). -/
def Obligations.FlagsChangeOnlyByTheirWriters : Prop :=
  ∀ (i : Instr) (s t : State), exec i s = .next t →
    (writesCC i = false → t.flagCC = s.flagCC) ∧ (writesC i = false → t.flagC = s.flagC) ∧
    (writesV i = false → t.flagV = s.flagV) ∧ (writesS i = false → t.flagS = s.flagS)

/-- 10_state.md section 5: `C` is read by ADDC28 only, `V` by BVS only, `CC` and `S` by none (R34); that a flag keeps its value
unless the instruction writes it is the table of flag writers (R33, decision D6, log entry 16). Other values of the flags an instruction does not
read leave its outcome as it was: the same fault or refusal, or a next state that differs only in those flags, and only where
the instruction does not write them. -/
def Obligations.FlagsAreReadOnlyByTheirReaders : Prop :=
  ∀ (i : Instr) (s : State) (cc c : Sign) (v b : Bool),
    ((∃ dd ds1 ds2, i = .addc28 dd ds1 ds2) → c = s.flagC) → ((∃ target, i = .bvs target) → v = s.flagV) →
    match exec i s with
    | .next t =>
      exec i (s.withFlags cc c v b) =
        .next (t.withFlags (if writesCC i then t.flagCC else cc) (if writesC i then t.flagC else c)
          (if writesV i then t.flagV else v) (if writesS i then t.flagS else b))
    | .fault f => exec i (s.withFlags cc c v b) = .fault f
    | .refused r => exec i (s.withFlags cc c v b) = .refused r

/-- 10_state.md section 6: an accumulator changes only by an instruction of its row of the table of accumulator writers. -/
def Obligations.AccumulatorsChangeOnlyByTheirWriters : Prop :=
  ∀ (i : Instr) (s t : State), exec i s = .next t →
    (writesAcc28 i = false → t.acc28 = s.acc28) ∧ (writesAcc56 i = false → t.acc56 = s.acc56) ∧
    (writesAcc112 i = false → t.acc112 = s.acc112)

/-- 20_memory.md sections 1 and 3: an address reads otherwise after an instruction only if the instruction is one that writes
memory and the address lies in the pents of its access. -/
def Obligations.MemoryChangesOnlyInsideTheStoredPents : Prop :=
  ∀ (i : Instr) (s t : State) (a : Int), exec i s = .next t → t.readPent a ≠ s.readPent a →
    writesMemory i = true ∧ ∃ ea align n, s.accessOf i = some (ea, align, n) ∧ ea ≤ a ∧ a < ea + n

/-- 10_state.md section 3 and 46_branch.md: `pc` moves by `ILEN`, but for a taken BVS, the only control transfer
(92_eei_decisions.md D23). -/
def Obligations.PcMovesByIlenOrTakenBranch : Prop :=
  ∀ (i : Instr) (s t : State), exec i s = .next t →
    (∀ target, i = .bvs target → s.flagV = true → t.pc.val = target) ∧
    (s.flagV = false ∨ (∀ target, i ≠ .bvs target) → t.pc.val = s.pc.val + s.cfg.ilen)

/-- 60_exceptions.md section 1: the causes of a fault, with the alignment check before the domain check; and no instruction is
refused but the two forms the spec's 30_encoding.md section 4 refuses (decisions D11, D17, D18, D23, D30). -/
def Obligations.FaultsAndRefusalsHaveTheirCauses : Prop :=
  ∀ (i : Instr) (s : State),
    (∀ f, exec i s = .fault f →
      (f = .divideByZero s.pc.val ∧ s.divisorOf i = some 0) ∨
      (∃ ea align n, s.accessOf i = some (ea, align, n) ∧ ea % (align : Int) ≠ 0 ∧ f = .misaligned s.pc.val ea) ∨
      (∃ ea align n, s.accessOf i = some (ea, align, n) ∧ ea % (align : Int) = 0 ∧
        rangeInDomain s.cfg ea n = false ∧ f = .accessFault s.pc.val ea) ∨
      (f = .pcOutOfRange s.pc.val ∧
        ((∃ target, i = .bvs target ∧ s.flagV = true ∧ ¬ Fits 14 target) ∨ ¬ s.CanAdvance))) ∧
    (∀ r, exec i s = .refused r → ∃ c, i.failedCheck = some c ∧ r = .notAdmitted c)

/-- 60_exceptions.md section 1: an access whose check fails stops the instruction with that fault, alignment first, whatever
else would happen (decisions D17, D18). -/
def Obligations.FailingAccessFaultsAlignmentFirst : Prop :=
  ∀ (i : Instr) (s : State) (ea : Int) (align n : Nat), s.accessOf i = some (ea, align, n) →
    ¬ s.CanAccess align ea n →
    exec i s = .fault (if ea % (align : Int) ≠ 0 then .misaligned s.pc.val ea else .accessFault s.pc.val ea)

/-- 60_exceptions.md section 1: when the next `pc` is out of range, no well-formed instruction completes, but for a taken BVS:
its work is suppressed and the cause is `PcOutOfRange` unless a division by zero or a failing access comes first
(decisions D23, D25). -/
def Obligations.PcOutOfRangeSuppressesTheWork : Prop :=
  ∀ (i : Instr) (s : State), ¬ s.CanAdvance → i.wf = true →
    (∀ target, i = .bvs target → s.flagV = false) → s.divisorOf i ≠ some 0 →
    (∀ ea align n, s.accessOf i = some (ea, align, n) → s.CanAccess align ea n) →
    exec i s = .fault (.pcOutOfRange s.pc.val)

/-! ## P14 -/

/-- 40_p14.md section 2: ADD14 and SUB14 wrap (decision D9), write no flag (decision D6) and drop the result into R0. -/
def Obligations.Add14AndSub14Wrap : Prop :=
  ∀ (s : State) (rd rs1 rs2 : RIdx), s.CanAdvance →
    Completes (.add14 rd rs1 rs2) s (s.view.withR rd (bal 14 (s.readR rs1 + s.readR rs2))).next ∧
    Completes (.sub14 rd rs1 rs2) s (s.view.withR rd (bal 14 (s.readR rs1 - s.readR rs2))).next

/-- 40_p14.md, 41_p28.md, 42_p56.md: MUL14, MUL28 and MUL56 leave the exact product in their accumulator and its low pents in
the destination (decision D10). -/
def Obligations.MultipliesLeaveTheExactProduct : Prop :=
  ∀ (s : State), s.CanAdvance →
    (∀ rd rs1 rs2 : RIdx, Completes (.mul14 rd rs1 rs2) s
      { s.view.withR rd (lo 14 (s.readR rs1 * s.readR rs2)) with acc28 := s.readR rs1 * s.readR rs2 }.next) ∧
    (∀ dd ds1 ds2 : DIdx, Completes (.mul28 dd ds1 ds2) s
      { s.view.withD dd (lo 28 (s.readD ds1 * s.readD ds2)) with acc56 := s.readD ds1 * s.readD ds2 }.next) ∧
    (∀ qd qs1 qs2 : QIdx, Completes (.mul56 qd qs1 qs2) s
      { s.view.withQ qd (lo 56 (s.readQ qs1 * s.readQ qs2)) with acc112 := s.readQ qs1 * s.readQ qs2 }.next)

/-- 40_p14.md section 1 law 5: a division by a divisor other than 0 delivers `DivQ` of the configuration, the first source
divided by the second; a divisor 0 faults (decision D11). -/
def Obligations.DivisionsDeliverTheQuotientOrFault : Prop :=
  ∀ (s : State), s.CanAdvance →
    (∀ rd rs1 rs2 : RIdx,
      if s.readR rs2 = 0 then exec (.div14 rd rs1 rs2) s = .fault (.divideByZero s.pc.val)
      else Completes (.div14 rd rs1 rs2) s
        (s.view.withR rd (divQ s.cfg.quotient (s.readR rs1) (s.readR rs2))).next) ∧
    (∀ dd ds1 ds2 : DIdx,
      if s.readD ds2 = 0 then exec (.div28 dd ds1 ds2) s = .fault (.divideByZero s.pc.val)
      else Completes (.div28 dd ds1 ds2) s
        (s.view.withD dd (divQ s.cfg.quotient (s.readD ds1) (s.readD ds2))).next) ∧
    (∀ qd qs1 qs2 : QIdx,
      if s.readQ qs2 = 0 then exec (.div56 qd qs1 qs2) s = .fault (.divideByZero s.pc.val)
      else Completes (.div56 qd qs1 qs2) s
        (s.view.withQ qd (divQ s.cfg.quotient (s.readQ qs1) (s.readQ qs2))).next)

/-- 40_p14.md section 3: EXTEND14 keeps the value, pents 15 and 14 are 0; TRUNC16 delivers the low 14 pents, the value itself
where it fits, and writes no flag (decision D6). That destination index 0 of EXTEND14 is refused is decision D4 (log entry
12). -/
def Obligations.Extend14AndTrunc16Convert : Prop :=
  ∀ (s : State) (r : RIdx) (x : XIdx),
    (s.CanAdvance → x ≠ 0 → Completes (.extend14 x r) s (s.view.withX x (s.readR r)).next) ∧ hi 14 (s.readR r) = 0 ∧
    exec (.extend14 0 r) s = .refused (.notAdmitted .xIndex) ∧
    (s.CanAdvance → Completes (.trunc16 r x) s (s.view.withR r (lo 14 (s.readX x))).next) ∧
    (Fits 14 (s.readX x) → lo 14 (s.readX x) = s.readX x)

/-! ## P28 and P56 arithmetic -/

/-- 41_p28.md section 1: ADD28 and SUB28 deliver the wrapped sum and difference (decision D9, log entry 16), NEG28 the exact
negation, and none writes a flag (decision D6). -/
def Obligations.Add28Sub28Neg28DeliverTheirResults : Prop :=
  ∀ (s : State), s.CanAdvance →
    (∀ dd ds1 ds2 : DIdx,
      Completes (.add28 dd ds1 ds2) s (s.view.withD dd (bal 28 (s.readD ds1 + s.readD ds2))).next ∧
      Completes (.sub28 dd ds1 ds2) s (s.view.withD dd (bal 28 (s.readD ds1 - s.readD ds2))).next) ∧
    (∀ dd ds : DIdx, Completes (.neg28 dd ds) s (s.view.withD dd (-s.readD ds)).next ∧ Fits 28 (-s.readD ds))

/-- 42_p56.md section 1: ADD56 and SUB56 deliver the wrapped sum and difference (decision D9, log entry 16), NEG56 the exact
negation, and none writes a flag (decision D6). -/
def Obligations.Add56Sub56Neg56DeliverTheirResults : Prop :=
  ∀ (s : State), s.CanAdvance →
    (∀ qd qs1 qs2 : QIdx,
      Completes (.add56 qd qs1 qs2) s (s.view.withQ qd (bal 56 (s.readQ qs1 + s.readQ qs2))).next ∧
      Completes (.sub56 qd qs1 qs2) s (s.view.withQ qd (bal 56 (s.readQ qs1 - s.readQ qs2))).next) ∧
    (∀ qd qs : QIdx, Completes (.neg56 qd qs) s (s.view.withQ qd (-s.readQ qs)).next ∧ Fits 56 (-s.readQ qs))

/-- 41_p28.md section 2, 42_p56.md section 3: compares and tests write `CC` alone, from the exact difference (decision
D13). -/
def Obligations.ComparesAndTestsWriteCC : Prop :=
  ∀ (s : State), s.CanAdvance →
    (∀ ds1 ds2 : DIdx, Completes (.cmp28 ds1 ds2) s { s.view with cc := sgn (s.readD ds1 - s.readD ds2) }.next) ∧
    (∀ ds : DIdx, Completes (.tst28 ds) s { s.view with cc := sgn (s.readD ds) }.next) ∧
    (∀ qs1 qs2 : QIdx, Completes (.cmp56 qs1 qs2) s { s.view with cc := sgn (s.readQ qs1 - s.readQ qs2) }.next) ∧
    (∀ qs : QIdx, Completes (.tst56 qs) s { s.view with cc := sgn (s.readQ qs) }.next)

/-! ## Loads and stores -/

/-- R117, R180: LOAD28 and LOADU28, every case: the alignment fault (LOAD28 alone), the access fault, the load. -/
def Obligations.Load28AndLoadu28Load : Prop :=
  ∀ (s : State) (dd : DIdx) (m : MemOperand), s.CanAdvance →
    (if s.effAddr m % (s.cfg.align28 : Int) ≠ 0 then exec (.load28 dd m) s = .fault (.misaligned s.pc.val (s.effAddr m))
      else if rangeInDomain s.cfg (s.effAddr m) 28 = false then
        exec (.load28 dd m) s = .fault (.accessFault s.pc.val (s.effAddr m))
      else Completes (.load28 dd m) s (s.view.withD dd (s.memRead (s.effAddr m) 28)).next) ∧
    (if rangeInDomain s.cfg (s.effAddr m) 28 = false then
        exec (.loadu28 dd m) s = .fault (.accessFault s.pc.val (s.effAddr m))
      else Completes (.loadu28 dd m) s (s.view.withD dd (s.memRead (s.effAddr m) 28)).next)

/-- R118, R181: STORE28 and STOREU28, every case; exactly the 28 pents from the effective address on change. -/
def Obligations.Store28AndStoreu28Store : Prop :=
  ∀ (s : State) (m : MemOperand) (ds : DIdx), s.CanAdvance →
    (if s.effAddr m % (s.cfg.align28 : Int) ≠ 0 then exec (.store28 m ds) s = .fault (.misaligned s.pc.val (s.effAddr m))
      else if rangeInDomain s.cfg (s.effAddr m) 28 = false then
        exec (.store28 m ds) s = .fault (.accessFault s.pc.val (s.effAddr m))
      else Completes (.store28 m ds) s
        (s.view.withMem (s.effAddr m) 28 (memoryOrder s.cfg.pentOrder (pents 28 (s.readD ds)))).next) ∧
    (if rangeInDomain s.cfg (s.effAddr m) 28 = false then
        exec (.storeu28 m ds) s = .fault (.accessFault s.pc.val (s.effAddr m))
      else Completes (.storeu28 m ds) s
        (s.view.withMem (s.effAddr m) 28 (memoryOrder s.cfg.pentOrder (pents 28 (s.readD ds)))).next)

/-- R140, R182: LOAD56 and LOADU56, every case: the alignment fault (LOAD56 alone), the access fault, the load; with the least
significant pent first, the low pair is read at the address and the high pair 28 further on. -/
def Obligations.Load56AndLoadu56Load : Prop :=
  ∀ (s : State) (qd : QIdx) (m : MemOperand), s.CanAdvance →
    (if s.effAddr m % (s.cfg.align56 : Int) ≠ 0 then exec (.load56 qd m) s = .fault (.misaligned s.pc.val (s.effAddr m))
      else if rangeInDomain s.cfg (s.effAddr m) 56 = false then
        exec (.load56 qd m) s = .fault (.accessFault s.pc.val (s.effAddr m))
      else Completes (.load56 qd m) s (s.view.withQ qd (s.memRead (s.effAddr m) 56)).next) ∧
    (if rangeInDomain s.cfg (s.effAddr m) 56 = false then
        exec (.loadu56 qd m) s = .fault (.accessFault s.pc.val (s.effAddr m))
      else Completes (.loadu56 qd m) s (s.view.withQ qd (s.memRead (s.effAddr m) 56)).next) ∧
    (s.cfg.pentOrder = .lspFirst →
      s.memRead (s.effAddr m) 56 = s.memRead (s.effAddr m + 28) 28 * radixPow 28 + s.memRead (s.effAddr m) 28)

/-- R141, R183: STORE56 and STOREU56, every case; exactly the 56 pents from the effective address on change. -/
def Obligations.Store56AndStoreu56Store : Prop :=
  ∀ (s : State) (m : MemOperand) (qs : QIdx), s.CanAdvance →
    (if s.effAddr m % (s.cfg.align56 : Int) ≠ 0 then exec (.store56 m qs) s = .fault (.misaligned s.pc.val (s.effAddr m))
      else if rangeInDomain s.cfg (s.effAddr m) 56 = false then
        exec (.store56 m qs) s = .fault (.accessFault s.pc.val (s.effAddr m))
      else Completes (.store56 m qs) s
        (s.view.withMem (s.effAddr m) 56 (memoryOrder s.cfg.pentOrder (pents 56 (s.readQ qs)))).next) ∧
    (if rangeInDomain s.cfg (s.effAddr m) 56 = false then
        exec (.storeu56 m qs) s = .fault (.accessFault s.pc.val (s.effAddr m))
      else Completes (.storeu56 m qs) s
        (s.view.withMem (s.effAddr m) 56 (memoryOrder s.cfg.pentOrder (pents 56 (s.readQ qs)))).next)

/-- 20_memory.md section 3: a word written at an address is the word read there, in either pent order, and a read away from the
pents written is as before. -/
def Obligations.ReadAfterWriteOfWords : Prop :=
  ∀ (s : State) (a : Int) (n : Nat) (v : Int),
    (Fits n v → (s.memWrite a n v).memRead a n = v) ∧
    (∀ (b : Int) (k : Nat), b + k ≤ a ∨ a + n ≤ b → (s.memWrite a n v).memRead b k = s.memRead b k)

/-- 20_memory.md section 3 (pent order): with the default order, least significant first (decision D15), what a STORE56 or
STOREU56 leaves reads as its low pair at the address and its high pair 28 further on. -/
def Obligations.MixedWidthReadsSeeTheHalves : Prop :=
  ∀ (s t : State) (m : MemOperand) (qs : QIdx), s.cfg.pentOrder = .lspFirst →
    (exec (.store56 m qs) s = .next t ∨ exec (.storeu56 m qs) s = .next t) →
    t.memRead (s.effAddr m) 28 = lo 28 (s.readQ qs) ∧ t.memRead (s.effAddr m + 28) 28 = hi 28 (s.readQ qs) ∧
    t.memRead (s.effAddr m) 28 = s.readD qs.low ∧ t.memRead (s.effAddr m + 28) 28 = s.readD qs.high

/-! ## Split, join and the accumulators -/

/-- 41_p28.md section 4: SPLIT28 copies the two halves of the pair; equal destinations other than R0 are refused (decision
D30). -/
def Obligations.Split28CopiesTheHalves : Prop :=
  ∀ (s : State) (rdHi rdLo : RIdx) (ds : DIdx),
    (s.CanAdvance → rdHi ≠ rdLo ∨ rdHi = 0 →
      Completes (.split28 rdHi rdLo ds) s ((s.view.withR rdHi (s.readR ds.high)).withR rdLo (s.readR ds.low)).next) ∧
    (s.readR ds.high = hi 14 (s.readD ds) ∧ s.readR ds.low = lo 14 (s.readD ds)) ∧
    (rdHi = rdLo → rdHi ≠ 0 → exec (.split28 rdHi rdLo ds) s = .refused (.notAdmitted .splitDests))

/-- R120: JOIN28 makes a pair of two words, each half the word given, also when it swaps the halves of one pair. -/
def Obligations.Join28MakesThePair : Prop :=
  ∀ (s : State) (dd : DIdx) (rsHi rsLo : RIdx), s.CanAdvance →
    Completes (.join28 dd rsHi rsLo) s (s.view.withD dd (s.readR rsHi * radixPow 14 + s.readR rsLo)).next ∧
    Fits 28 (s.readR rsHi * radixPow 14 + s.readR rsLo) ∧
    ∃ t, exec (.join28 dd rsHi rsLo) s = .next t ∧ t.readR dd.high = s.readR rsHi ∧
      (dd ≠ 0 → t.readR dd.low = s.readR rsLo)

/-- 41_p28.md section 5, 42_p56.md section 5: the accumulating forms add the exact product and wrap at the accumulator's width
(decision D9); one product from an empty accumulator is exact. -/
def Obligations.AccumulatingFormsAddTheProduct : Prop :=
  ∀ (s : State), s.CanAdvance →
    (∀ ds1 ds2 : DIdx,
      Completes (.macc28 ds1 ds2) s { s.view with acc56 := bal 56 (s.acc56.val + s.readD ds1 * s.readD ds2) }.next ∧
      Completes (.msub28 ds1 ds2) s { s.view with acc56 := bal 56 (s.acc56.val - s.readD ds1 * s.readD ds2) }.next ∧
      Fits 56 (s.readD ds1 * s.readD ds2)) ∧
    (∀ qs1 qs2 : QIdx,
      Completes (.macc56 qs1 qs2) s { s.view with acc112 := bal 112 (s.acc112.val + s.readQ qs1 * s.readQ qs2) }.next ∧
      Completes (.msub56 qs1 qs2) s { s.view with acc112 := bal 112 (s.acc112.val - s.readQ qs1 * s.readQ qs2) }.next ∧
      Fits 112 (s.readQ qs1 * s.readQ qs2))

/-- R123, R124, R144, R145: the GETACC forms deliver the digit halves of the accumulator, which together make it. -/
def Obligations.GetaccDeliversTheHalves : Prop :=
  ∀ (s : State), s.CanAdvance →
    (∀ dd : DIdx,
      Completes (.getacc28Hi dd) s (s.view.withD dd (hi 28 s.acc56.val)).next ∧
      Completes (.getacc28Lo dd) s (s.view.withD dd (lo 28 s.acc56.val)).next) ∧
    (∀ qd : QIdx,
      Completes (.getacc56Hi qd) s (s.view.withQ qd (hi 56 s.acc112.val)).next ∧
      Completes (.getacc56Lo qd) s (s.view.withQ qd (lo 56 s.acc112.val)).next) ∧
    hi 28 s.acc56.val * radixPow 28 + lo 28 s.acc56.val = s.acc56.val ∧ Fits 28 (hi 28 s.acc56.val) ∧
    hi 56 s.acc112.val * radixPow 56 + lo 56 s.acc112.val = s.acc112.val ∧ Fits 56 (hi 56 s.acc112.val)

/-- R125, R146: CLRACC clears ACC56 alone, CLRACC112 clears ACC112 alone. -/
def Obligations.ClearsClearTheirAccumulator : Prop :=
  ∀ (s : State), s.CanAdvance →
    Completes .clracc s { s.view with acc56 := 0 }.next ∧ Completes .clracc112 s { s.view with acc112 := 0 }.next

/-- 41_p28.md section 5, 42_p56.md section 5: after a multiply the GETACC forms hand over the exact product: its halves in two
destinations make it (decision D10 for what the multiply's own destination holds, which this does not use). -/
def Obligations.MultiplyThenGetaccGivesTheExactProduct : Prop :=
  ∀ (s a b c : State),
    (∀ d ds1 ds2 dh dl : DIdx, exec (.mul28 d ds1 ds2) s = .next a → exec (.getacc28Hi dh) a = .next b →
      exec (.getacc28Lo dl) b = .next c → dh ≠ 0 → dl ≠ 0 → dh ≠ dl →
      c.readD dh * radixPow 28 + c.readD dl = s.readD ds1 * s.readD ds2) ∧
    (∀ q qs1 qs2 qh ql : QIdx, exec (.mul56 q qs1 qs2) s = .next a → exec (.getacc56Hi qh) a = .next b →
      exec (.getacc56Lo ql) b = .next c → qh ≠ 0 → ql ≠ 0 → qh ≠ ql →
      c.readQ qh * radixPow 56 + c.readQ ql = s.readQ qs1 * s.readQ qs2)

/-! ## binary128 -/

/-- 42_p56.md section 2: B128_TO_P56 loads the binary128 value the image decodes to, always a value in range and never out of
the quad's (decision D20; the codec is a free value, log entry 9). -/
def Obligations.B128ToP56LoadsTheValue : Prop :=
  ∀ (s : State) (qd : QIdx) (m : MemOperand), s.CanAdvance →
    s.CanAccess s.cfg.alignB128 (s.effAddr m) s.cfg.b128Pents →
    Completes (.b128ToP56 qd m) s (s.view.withQ qd (s.memReadB128 (s.effAddr m))).next ∧
    IsB128 (s.memReadB128 (s.effAddr m)) ∧ Fits 56 (s.memReadB128 (s.effAddr m))

/-- 42_p56.md section 2: P56_TO_B128 stores a value of magnitude at most 2^127 - 1 and clears `V`; any other value sets `V` and
leaves an unspecified image, whatever it is (decisions D6, D21; the image is a free value, log entry 10). -/
def Obligations.P56ToB128StoresOrOverflows : Prop :=
  ∀ (s : State) (m : MemOperand) (qs : QIdx), s.CanAdvance →
    s.CanAccess s.cfg.alignB128 (s.effAddr m) s.cfg.b128Pents →
    if -b128Max ≤ s.readQ qs ∧ s.readQ qs ≤ b128Max then
      Completes (.p56ToB128 m qs) s
        { s.view.withMem (s.effAddr m) s.cfg.b128Pents ((b128CodecOf s.cfg).enc (s.readQ qs)) with v := false }.next
    else
      ∃ image : List Pent, image.length = s.cfg.b128Pents ∧
        Completes (.p56ToB128 m qs) s
          { s.view.withMem (s.effAddr m) s.cfg.b128Pents image with v := true, draws := s.draws + 1 }.next

/-- 42_p56.md section 2: P56_TO_B128_SAT stores the value clamped to the symmetric range, `S` says whether it was clamped, and
`V` is unchanged (decision D6). -/
def Obligations.P56ToB128SatStoresTheClampedValue : Prop :=
  ∀ (s : State) (m : MemOperand) (qs : QIdx), s.CanAdvance →
    s.CanAccess s.cfg.alignB128 (s.effAddr m) s.cfg.b128Pents →
    Completes (.p56ToB128Sat m qs) s
      { s.view.withMem (s.effAddr m) s.cfg.b128Pents
          ((b128CodecOf s.cfg).enc (max (-b128Max) (min b128Max (s.readQ qs)))) with
        s := decide (s.readQ qs < -b128Max ∨ b128Max < s.readQ qs) }.next

/-- 20_memory.md section 5: whatever the codec, a value in range stored by either storing conversion is the value
B128_TO_P56 loads from the same address (decision D20). -/
def Obligations.StoredBinary128ComesBack : Prop :=
  ∀ (s t u : State) (m : MemOperand) (qs qd : QIdx),
    -b128Max ≤ s.readQ qs → s.readQ qs ≤ b128Max →
    (exec (.p56ToB128 m qs) s = .next t ∨ exec (.p56ToB128Sat m qs) s = .next t) →
    exec (.b128ToP56 qd m) t = .next u → qd ≠ 0 → u.readQ qd = s.readQ qs

/-! ## Mixed precision and conversion -/

/-- R150: ADD_MIX delivers the sum of a P16 and a P14 value, which never wraps. -/
def Obligations.AddMixNeverWraps : Prop :=
  ∀ (s : State) (dd : DIdx) (xs : XIdx) (rt : RIdx), s.CanAdvance →
    Completes (.addMix dd xs rt) s (s.view.withD dd (s.readX xs + s.readR rt)).next ∧
    -79345703124 ≤ s.readX xs + s.readR rt ∧ s.readX xs + s.readR rt ≤ 79345703124 ∧ Fits 28 (s.readX xs + s.readR rt)

/-- 43_mixed_and_conversion.md section 2: the saturating additions clamp to the ends of the range, and `S` is written on every
execution (decision D6), also when R0 drops the result. -/
def Obligations.SaturatingAddsClamp : Prop :=
  ∀ (s : State), s.CanAdvance →
    (∀ rd rs1 rs2 : RIdx, Completes (.adds14 rd rs1 rs2) s
      { s.view.withR rd (max (-maxMag 14) (min (maxMag 14) (s.readR rs1 + s.readR rs2))) with
        s := decide (¬ Fits 14 (s.readR rs1 + s.readR rs2)) }.next) ∧
    (∀ dd ds1 ds2 : DIdx, Completes (.adds28 dd ds1 ds2) s
      { s.view.withD dd (max (-maxMag 28) (min (maxMag 28) (s.readD ds1 + s.readD ds2))) with
        s := decide (¬ Fits 28 (s.readD ds1 + s.readD ds2)) }.next)

/-- R153, R154, R155: the sign extensions keep the value; the registers above it become 0 whatever its sign. -/
def Obligations.SignExtensionsKeepTheValue : Prop :=
  ∀ (s : State), s.CanAdvance →
    (∀ (dd : DIdx) (rs : RIdx), Completes (.sext14To28 dd rs) s (s.view.withD dd (s.readR rs)).next ∧
      hi 14 (s.readR rs) = 0) ∧
    (∀ (qd : QIdx) (rs : RIdx), Completes (.sext14To56 qd rs) s (s.view.withQ qd (s.readR rs)).next) ∧
    (∀ (qd : QIdx) (ds : DIdx), Completes (.sext28To56 qd ds) s (s.view.withQ qd (s.readD ds)).next ∧
      hi 28 (s.readD ds) = 0)

/-- 43_mixed_and_conversion.md section 4: the truncations keep the low pents and `V` says whether the value does not fit
(decision D6; that the low pents are delivered on overflow is 93_implementation_defined.md U6, log entry 16). -/
def Obligations.TruncationsKeepTheLowPents : Prop :=
  ∀ (s : State), s.CanAdvance →
    (∀ (rd : RIdx) (ds : DIdx), Completes (.trunc28To14 rd ds) s
      { s.view.withR rd (lo 14 (s.readD ds)) with v := decide (¬ Fits 14 (s.readD ds)) }.next) ∧
    (∀ (dd : DIdx) (qs : QIdx), Completes (.trunc56To28 dd qs) s
      { s.view.withD dd (lo 28 (s.readQ qs)) with v := decide (¬ Fits 28 (s.readQ qs)) }.next) ∧
    (∀ (rd : RIdx) (qs : QIdx), Completes (.trunc56To14 rd qs) s
      { s.view.withR rd (lo 14 (s.readQ qs)) with v := decide (¬ Fits 14 (s.readQ qs)) }.next)

/-- 43_mixed_and_conversion.md section 5: a value in the symmetric binary range is kept and `V` cleared; out of it `V` is set
and `BinTrunc` of the configuration delivered (decision D22), narrowed to the destination's width where a free rule gives
more (log entry 8). -/
def Obligations.BinaryTruncationsReportTheRange : Prop :=
  ∀ (s : State), s.CanAdvance →
    (∀ qd qs : QIdx,
      if -(2 ^ 127 - 1) ≤ s.readQ qs ∧ s.readQ qs ≤ 2 ^ 127 - 1 then
        Completes (.p56TruncB128 qd qs) s { s.view.withQ qd (s.readQ qs) with v := false }.next
      else Completes (.p56TruncB128 qd qs) s
        { s.view.withQ qd (bal 56 (binTrunc s.cfg.binTrunc 128 (s.readQ qs))) with v := true }.next) ∧
    (∀ dd ds : DIdx,
      if -(2 ^ 63 - 1) ≤ s.readD ds ∧ s.readD ds ≤ 2 ^ 63 - 1 then
        Completes (.p28TruncB64 dd ds) s { s.view.withD dd (s.readD ds) with v := false }.next
      else Completes (.p28TruncB64 dd ds) s
        { s.view.withD dd (bal 28 (binTrunc s.cfg.binTrunc 64 (s.readD ds))) with v := true }.next) ∧
    (∀ rd rs : RIdx,
      if -(2 ^ 31 - 1) ≤ s.readR rs ∧ s.readR rs ≤ 2 ^ 31 - 1 then
        Completes (.p14TruncB32 rd rs) s { s.view.withR rd (s.readR rs) with v := false }.next
      else Completes (.p14TruncB32 rd rs) s
        { s.view.withR rd (bal 14 (binTrunc s.cfg.binTrunc 32 (s.readR rs))) with v := true }.next)

/-- 43_mixed_and_conversion.md section 5: the default `BinTrunc` is the two's-complement wrap: a value of the m-bit range
congruent to the source modulo 2^m, which fits the destination's width (decision D22). -/
def Obligations.DefaultBinaryTruncationIsTheWrap : Prop :=
  ∀ (m : Nat) (v : Int), 0 < m →
    -(2 ^ (m - 1)) ≤ binTrunc .twosComplement m v ∧ binTrunc .twosComplement m v ≤ 2 ^ (m - 1) - 1 ∧
    ((2 : Int) ^ m ∣ v - binTrunc .twosComplement m v) ∧
    bal 56 (binTrunc .twosComplement 128 v) = binTrunc .twosComplement 128 v ∧
    bal 28 (binTrunc .twosComplement 64 v) = binTrunc .twosComplement 64 v ∧
    bal 14 (binTrunc .twosComplement 32 v) = binTrunc .twosComplement 32 v

/-! ## Carry and overflow -/

/-- 44_carry_and_overflow.md section 1: ADD28C and ADDC28 deliver the wrapped sum and the signed carry, +1 above M_28, -1 below
-M_28, else 0 (decisions D6, D7, D8). -/
def Obligations.CarryAddsDeliverSumAndCarry : Prop :=
  ∀ (s : State) (dd ds1 ds2 : DIdx), s.CanAdvance →
    Completes (.add28c dd ds1 ds2) s
      { s.view.withD dd (bal 28 (s.readD ds1 + s.readD ds2)) with
        c := if s.readD ds1 + s.readD ds2 > maxMag 28 then .pos
          else if s.readD ds1 + s.readD ds2 < -maxMag 28 then .neg else .zero }.next ∧
    Completes (.addc28 dd ds1 ds2) s
      { s.view.withD dd (bal 28 (s.readD ds1 + s.readD ds2 + s.flagC.toInt)) with
        c := if s.readD ds1 + s.readD ds2 + s.flagC.toInt > maxMag 28 then .pos
          else if s.readD ds1 + s.readD ds2 + s.flagC.toInt < -maxMag 28 then .neg else .zero }.next

/-- 44_carry_and_overflow.md section 1, the multi-precision chain: ADD28C of the low words and ADDC28 of the high words leave
the 56-pent sum and its carry, when neither destination is D0, they differ, and the first is no source of the second
(derived by the spec from decisions D7, D8). -/
def Obligations.CarryChainAdds56Pents : Prop :=
  ∀ (s t u : State) (dlo alo blo dhi ahi bhi : DIdx),
    dlo ≠ 0 → dhi ≠ 0 → dlo ≠ dhi → dlo ≠ ahi → dlo ≠ bhi →
    exec (.add28c dlo alo blo) s = .next t → exec (.addc28 dhi ahi bhi) t = .next u →
    u.readD dhi * radixPow 28 + u.readD dlo =
        bal 56 ((s.readD ahi * radixPow 28 + s.readD alo) + (s.readD bhi * radixPow 28 + s.readD blo)) ∧
    u.flagC.toInt = carry 56 ((s.readD ahi * radixPow 28 + s.readD alo) + (s.readD bhi * radixPow 28 + s.readD blo))

/-- 44_carry_and_overflow.md section 2: the overflow checks write `V` alone; the named destination is not written (decisions
D6, D12). -/
def Obligations.OverflowChecksWriteVAlone : Prop :=
  ∀ (s : State), s.CanAdvance →
    (∀ rd rs1 rs2 : RIdx, Completes (.ovfchk14 rd rs1 rs2) s
      { s.view with v := decide (¬ Fits 14 (s.readR rs1 + s.readR rs2)) }.next) ∧
    (∀ dd ds1 ds2 : DIdx, Completes (.ovfchk28 dd ds1 ds2) s
      { s.view with v := decide (¬ Fits 28 (s.readD ds1 + s.readD ds2)) }.next)

/-! ## Control transfer, fetch, decoding, runs -/

/-- 46_branch.md: BVS goes to its target when `V` is 1 and to the next instruction otherwise, and writes nothing else; a next
`pc` out of range faults (decisions D23, D24). -/
def Obligations.BvsBranchesOnV : Prop :=
  ∀ (s : State) (target : Int),
    if s.flagV = true then
      (Fits 14 target → Completes (.bvs target) s { s.view with pc := target }) ∧
      (¬ Fits 14 target → exec (.bvs target) s = .fault (.pcOutOfRange s.pc.val))
    else
      (s.CanAdvance → Completes (.bvs target) s s.view.next) ∧
      (¬ s.CanAdvance → exec (.bvs target) s = .fault (.pcOutOfRange s.pc.val))

/-- A step runs the decoded instruction: where the run has not finished and the term at `pc` decodes to `i`, the step is
`exec i` on the same state; nothing stands around it (10_state.md section 3). -/
def Obligations.StepRunsTheDecodedInstruction : Prop :=
  ∀ (s : State) (t : Term) (i : Instr), ¬ s.Finished → s.fetch = some t → decode t = .ok i → step s = exec i s

/-- 70_reset_and_hazards.md section 2 and 10_state.md section 3: at `EndPC` nothing is fetched and the state stays (log entry
4); elsewhere an address without an instruction faults (decision D23) and a term that fails a check is refused with its
name. -/
def Obligations.StepWithoutAnInstruction : Prop :=
  ∀ (s : State),
    (s.Finished → step s = .next s) ∧
    (¬ s.Finished → s.fetch = none → step s = .fault (.noInstruction s.pc.val)) ∧
    (∀ t c, ¬ s.Finished → s.fetch = some t → decode t = .error c → step s = .refused (.notAdmitted c))

/-- 30_encoding.md sections 2, 3 and 6: terms the spec's examples write, and terms it refuses with the check that fails. -/
def Obligations.ExampleTermsDecode : Prop :=
  decode ⟨"ADD14".toList, [.r 3, .r 1, .r 2]⟩ = .ok (.add14 3 1 2) ∧
  decode ⟨"ADD28C".toList, [.d 0, .d 2, .d 4]⟩ = .ok (.add28c 0 2 4) ∧
  decode ⟨"STORE28".toList, [.mem 8 32, .d 3]⟩ = .ok (.store28 ⟨8, 32⟩ 3) ∧
  decode ⟨"P56_TO_B128".toList, [.mem 0 256, .q 1]⟩ = .ok (.p56ToB128 ⟨0, 256⟩ 1) ∧
  decode ⟨"ADD_MIX".toList, [.d 6, .x 5, .r 4]⟩ = .ok (.addMix 6 5 4) ∧
  decode ⟨"LOAD14".toList, [.r 1, .mem 0 0]⟩ = .error .mnemonicKnown ∧
  decode ⟨"ADD56".toList, [.q 8, .q 0, .q 0]⟩ = .error .qIndex ∧
  decode ⟨"EXTEND14".toList, [.x 0, .r 4]⟩ = .error .xIndex ∧
  decode ⟨"SPLIT28".toList, [.r 5, .r 5, .d 1]⟩ = .error .splitDests

/-- 30_encoding.md section 5: the line of assembler text of a well-formed instruction, and the bytes of that line, decode to
the instruction, with every operand at every value (the number syntax is log entry 17, the bytes log entry 1). -/
def Obligations.AssemblerTextRoundTrips : Prop :=
  ∀ i : Instr, i.wf = true → decodeText (encodeText i) = .ok i ∧ decodeBytes (encodeBytes i) = .ok i

/-- 30_encoding.md section 6: a term that decodes is the term of the instruction it decodes to, and that instruction is well
formed; so no two terms decode to one instruction. -/
def Obligations.DecodedTermIsTheEncodedOne : Prop :=
  ∀ (t : Term) (i : Instr), decode t = .ok i → encode i = t ∧ i.wf = true

/-- 46_branch.md and 30_encoding.md section 6: in every run of an admitted program, a taken BVS leads to an instruction or to
the end of the run (decisions D23, D24). That a program comes to run by `load` is log entry 3. -/
def Obligations.AdmittedProgramsBranchToInstructions : Prop :=
  ∀ (cfg : Config) (prog : List (Int × Term)) (s₀ s t : State) (e : Term) (target : Int),
    load cfg prog = .next s₀ → Reaches s₀ s → s.fetch = some e → decode e = .ok (.bvs target) → s.flagV = true →
    step s = .next t → t.Finished ∨ t.fetch.isSome = true

/-- 60_exceptions.md section 1: a program that fails a check of 30_encoding.md section 6 has no run, and a run of an admitted
program is never refused. That a program comes to run by `load` is log entry 3, that `load` makes the checks of the whole
program and a step those of its term alone log entry 14. -/
def Obligations.AdmittedProgramsAreNeverRefused : Prop :=
  ∀ (cfg : Config) (prog : List (Int × Term)),
    (∀ c, failedCheck cfg prog = some c → load cfg prog = .refused (.notAdmitted c)) ∧
    (∀ s₀ s r, load cfg prog = .next s₀ → Reaches s₀ s → step s ≠ .refused r)
end

