-- ==== Sys2Proof/Laws/Numbers.lean ====
section
/-! SUPPORT. The laws of the number system (R8 to R13): `bal_N` is the only value in range congruent to its argument, a split
is the only one, wrapping commutes with splitting, and the pents of a value give it back. -/

namespace Sys2Proof.Machine

theorem radixPow_pos (n : Nat) : 0 < radixPow n := by unfold radixPow; positivity

@[simp] theorem radixPow_zero : radixPow 0 = 1 := rfl

@[simp] theorem radixPow_one : radixPow 1 = 5 := rfl

@[simp] theorem maxMag_zero : maxMag 0 = 0 := rfl

@[simp] theorem maxMag_one : maxMag 1 = 2 := rfl

theorem radixPow_add (m n : Nat) : radixPow (m + n) = radixPow m * radixPow n := by
  unfold radixPow; push_cast; ring

theorem maxMag_nonneg (n : Nat) : 0 ≤ maxMag n := by unfold maxMag; omega

/-! ## Wrapping -/

theorem bal_unique {n : Nat} {v r q : Int} (hr : Fits n r) (h : v = q * radixPow n + r) : bal n v = r := by
  have h2 := two_maxMag_add_one n
  have he : v + maxMag n = (r + maxMag n) + q * radixPow n := by rw [h]; ring
  unfold bal
  rw [he, Int.add_mul_emod_self_right, Int.emod_eq_of_lt] <;> unfold Fits at hr <;> omega

@[simp] theorem bal_of_fits {n : Nat} {v : Int} (h : Fits n v) : bal n v = v :=
  bal_unique (q := 0) h (by ring)

@[simp] theorem bal_bal (n : Nat) (v : Int) : bal n (bal n v) = bal n v := bal_of_fits (bal_fits n v)

theorem dvd_sub_bal (n : Nat) (v : Int) : radixPow n ∣ v - bal n v := by
  have h : v - bal n v = (v + maxMag n) - (v + maxMag n) % radixPow n := by unfold bal; ring
  rw [h]
  exact Int.dvd_self_sub_emod

/-- R10: `v = carry_N(v) * 5^N + bal_N(v)`. -/
theorem carry_mul_add_bal (n : Nat) (v : Int) : carry n v * radixPow n + bal n v = v := by
  have h := Int.ediv_mul_cancel (dvd_sub_bal n v)
  unfold carry
  omega

/-- R11: `v = hi_k(v) * 5^k + lo_k(v)`. -/
theorem hi_mul_add_lo (k : Nat) (v : Int) : hi k v * radixPow k + lo k v = v := carry_mul_add_bal k v

theorem lo_fits (k : Nat) (v : Int) : Fits k (lo k v) := bal_fits k v

theorem lo_unique {k : Nat} {v h l : Int} (hl : Fits k l) (hv : v = h * radixPow k + l) : lo k v = l :=
  bal_unique hl hv

theorem hi_unique {k : Nat} {v h l : Int} (hl : Fits k l) (hv : v = h * radixPow k + l) : hi k v = h := by
  have h1 := lo_unique hl hv
  have h2 := hi_mul_add_lo k v
  rw [h1] at h2
  exact Int.eq_of_mul_eq_mul_right (ne_of_gt (radixPow_pos k)) (by omega)

/-- R11: the high part of a value of j+k pents has j pents. -/
theorem hi_fits {j k : Nat} {v : Int} (h : Fits (j + k) v) : Fits j (hi k v) := by
  have hs := hi_mul_add_lo k v
  have hl := lo_fits k v
  have hj := two_maxMag_add_one j
  have hk := two_maxMag_add_one k
  have hjk := two_maxMag_add_one (j + k)
  rw [radixPow_add] at hjk
  have hp := radixPow_pos k
  unfold Fits at *
  constructor
  · by_contra hc
    have : hi k v ≤ -(maxMag j + 1) := by omega
    nlinarith
  · by_contra hc
    have : maxMag j + 1 ≤ hi k v := by omega
    nlinarith

/-- A high part of j pents and a low part of k pents make a value of j+k pents. -/
theorem join_fits {j k : Nat} {h l : Int} (hh : Fits j h) (hl : Fits k l) : Fits (j + k) (h * radixPow k + l) := by
  have hj := two_maxMag_add_one j
  have hk := two_maxMag_add_one k
  have hjk := two_maxMag_add_one (j + k)
  rw [radixPow_add] at hjk
  have hp := radixPow_pos k
  unfold Fits at *
  constructor <;> nlinarith

/-- Wrapping keeps the low pents. -/
theorem lo_bal (j k : Nat) (v : Int) : lo k (bal (j + k) v) = lo k v := by
  have h1 := carry_mul_add_bal (j + k) v
  have h2 := hi_mul_add_lo k v
  rw [radixPow_add] at h1
  refine lo_unique (lo_fits k v) (h := hi k v - carry (j + k) v * radixPow j) ?_
  linear_combination h1 - h2

/-- Wrapping wraps the high part. -/
theorem hi_bal (j k : Nat) (v : Int) : hi k (bal (j + k) v) = bal j (hi k v) := by
  have h1 := carry_mul_add_bal (j + k) v
  have h2 := hi_mul_add_lo k v
  have h3 := hi_mul_add_lo k (bal (j + k) v)
  rw [lo_bal] at h3
  rw [radixPow_add] at h1
  refine (bal_unique (q := carry (j + k) v) (hi_fits (bal_fits (j + k) v)) ?_).symm
  refine Int.eq_of_mul_eq_mul_right (ne_of_gt (radixPow_pos k)) ?_
  linear_combination h2 - h1 - h3

/-- A wrapped value is the join of its low part and its wrapped high part. -/
theorem bal_add_eq (j k : Nat) (v : Int) : bal (j + k) v = bal j (hi k v) * radixPow k + lo k v := by
  rw [← hi_bal, ← lo_bal j k, hi_mul_add_lo]

theorem hi_hi (j k : Nat) (v : Int) : hi j (hi k v) = hi (j + k) v := by
  have h1 := hi_mul_add_lo k v
  have h2 := hi_mul_add_lo j (hi k v)
  refine (hi_unique (l := lo j (hi k v) * radixPow k + lo k v) (join_fits (lo_fits j _) (lo_fits k v)) ?_).symm
  rw [radixPow_add]
  linear_combination (norm := ring_nf) -h1 - radixPow k * h2

@[simp] theorem hi_zero_width (v : Int) : hi 0 v = v := by
  have h := hi_mul_add_lo 0 v
  have h0 := lo_fits 0 v
  unfold Fits at h0
  simp only [maxMag_zero, radixPow_zero] at h h0
  omega

theorem lo_of_fits {k : Nat} {v : Int} (h : Fits k v) : lo k v = v := bal_of_fits h

theorem hi_of_fits {k : Nat} {v : Int} (h : Fits k v) : hi k v = 0 := hi_unique h (by ring)

theorem neg_fits {n : Nat} {v : Int} (h : Fits n v) : Fits n (-v) := by unfold Fits at *; omega

theorem fits_mono {m n : Nat} {v : Int} (hmn : m ≤ n) (h : Fits m v) : Fits n v := by
  obtain ⟨k, rfl⟩ := Nat.exists_eq_add_of_le hmn
  have h1 := two_maxMag_add_one m
  have h2 := two_maxMag_add_one (m + k)
  rw [radixPow_add] at h2
  have := radixPow_pos k
  have := radixPow_pos m
  unfold Fits at *
  constructor <;> nlinarith

theorem clamp_fits (n : Nat) (v : Int) : Fits n (clamp n v) := by
  have := maxMag_nonneg n
  unfold Fits clamp
  split <;> (try split) <;> omega

@[simp] theorem wordOf_val (n : Nat) (v : Int) : (wordOf n v).val = bal n v := rfl

theorem pword_fits {n : Nat} (w : PWord n) : Fits n w.val := ⟨w.lower, w.upper⟩

theorem pword_eq_of_val {n : Nat} {a b : PWord n} (h : a.val = b.val) : a = b := by
  cases a; cases b; simp_all

@[simp] theorem pword_zero_val (n : Nat) : (PWord.zero n).val = 0 := rfl

/-! ## Signs -/

theorem signOf_toInt {v : Int} (h : -1 ≤ v ∧ v ≤ 1) : (signOf v).toInt = v := by
  unfold signOf sgn Sign.toInt
  split_ifs <;> simp <;> omega

/-! ## Pents -/

theorem pent_toInt_fits (p : Pent) : Fits 1 p.toInt := by
  cases p <;> simp [Pent.toInt, Fits]

theorem pent_toInt_ofInt {v : Int} (h : Fits 1 v) : (Pent.ofInt v).toInt = v := by
  unfold Fits at h
  simp only [maxMag_one] at h
  unfold Pent.ofInt
  split_ifs <;> simp [Pent.toInt] <;> omega

@[simp] theorem pent_ofInt_toInt (p : Pent) : Pent.ofInt p.toInt = p := by cases p <;> rfl

theorem pent_toInt_injective {p q : Pent} (h : p.toInt = q.toInt) : p = q := by
  rw [← pent_ofInt_toInt p, h, pent_ofInt_toInt]

@[simp] theorem pents_length (n : Nat) (v : Int) : (pents n v).length = n := by
  induction n generalizing v with
  | zero => rfl
  | succ n ih => simp [pents, ih]

/-- R15: the N-pent word of `v` has the value `bal_N(v)`. -/
theorem valOf_pents (n : Nat) (v : Int) : valOf (pents n v) = bal n v := by
  induction n generalizing v with
  | zero =>
    have h := bal_fits 0 v
    unfold Fits at h
    simp only [maxMag_zero] at h
    simp only [pents, valOf]
    omega
  | succ n ih =>
    rw [pents, valOf, ih, pent_toInt_ofInt (bal_fits 1 v), bal_add_eq n 1 v, radixPow_one, lo]
    ring

/-- R8: the value of an N-pent word is in [-M_N, M_N]. -/
theorem valOf_fits (w : List Pent) : Fits w.length (valOf w) := by
  induction w with
  | nil => simp [valOf, Fits]
  | cons p ps ih =>
    have h := join_fits ih (pent_toInt_fits p)
    simp only [radixPow_one] at h
    rw [List.length_cons, valOf]
    convert h using 1
    ring

/-- R8: an N-pent word is the word of its value. -/
theorem pents_valOf (w : List Pent) : pents w.length (valOf w) = w := by
  induction w with
  | nil => rfl
  | cons p ps ih =>
    have hv : p.toInt + 5 * valOf ps = valOf ps * radixPow 1 + p.toInt := by rw [radixPow_one]; ring
    have hb : bal 1 (p.toInt + 5 * valOf ps) = p.toInt := bal_unique (pent_toInt_fits p) hv
    have hh : hi 1 (p.toInt + 5 * valOf ps) = valOf ps := hi_unique (pent_toInt_fits p) hv
    rw [List.length_cons, pents, valOf, hb, hh, pent_ofInt_toInt, ih]

/-- The pents of a value are its low pents followed by the pents of its high part (R11). -/
theorem pents_append (k j : Nat) (v : Int) : pents (k + j) v = pents k v ++ pents j (hi k v) := by
  induction k generalizing v with
  | zero => simp [pents]
  | succ k ih =>
    rw [Nat.add_right_comm, pents, pents, ih, hi_hi]
    rfl

theorem valOf_append (a b : List Pent) : valOf (a ++ b) = valOf a + radixPow a.length * valOf b := by
  induction a with
  | nil => simp [valOf]
  | cons p ps ih =>
    rw [List.cons_append, valOf, ih, valOf, List.length_cons, radixPow_add, radixPow_one]
    ring

/-! ## Quotients -/

theorem truncQuotient_natAbs_le (a b : Int) : (truncQuotient a b).natAbs ≤ a.natAbs := by
  have hs : ∀ x : Int, (sgn x).toInt.natAbs ≤ 1 := by
    intro x; unfold sgn; split_ifs <;> simp [Sign.toInt]
  unfold truncQuotient
  rw [Int.natAbs_mul, Int.natAbs_mul, Int.natAbs_natCast]
  calc (sgn a).toInt.natAbs * (sgn b).toInt.natAbs * (a.natAbs / b.natAbs)
      ≤ 1 * 1 * (a.natAbs / b.natAbs) := by gcongr <;> exact hs _
    _ ≤ a.natAbs := by simpa using Nat.div_le_self _ _

/-- R100 law 5: `|DivQ(a, b)| ≤ |a|`, whichever quotient rule holds. -/
theorem divQ_natAbs_le (r : QuotientRule) (a b : Int) : (divQ r a b).natAbs ≤ a.natAbs := by
  unfold divQ
  split
  · exact truncQuotient_natAbs_le a b
  · split_ifs with h1 h2
    · exact truncQuotient_natAbs_le a b
    · exact h2
    · exact truncQuotient_natAbs_le a b

theorem divQ_fits (r : QuotientRule) {n : Nat} {a : Int} (b : Int) (h : Fits n a) : Fits n (divQ r a b) := by
  have := divQ_natAbs_le r a b
  unfold Fits at *
  omega

/-! ## binary128 (R60) -/

theorem fits_of_isB128 {n : Nat} (hn : 56 ≤ n) {b : Int} (h : IsB128 b) : Fits n b := by
  refine fits_mono hn ?_
  have hM : (2 : Int) ^ 127 ≤ maxMag 56 := by decide +kernel
  unfold IsB128 at h
  unfold Fits
  omega

theorem balancedCodec_lawful {n : Nat} (hn : 56 ≤ n) : (balancedCodec n).Lawful n := by
  refine ⟨fun b _ => by simp [balancedCodec], fun w _ => ?_, fun b hb => ?_⟩
  · simp only [balancedCodec]
    split
    · assumption
    · unfold IsB128; norm_num
  · have hv : valOf (pents n b) = b := by rw [valOf_pents, bal_of_fits (fits_of_isB128 hn hb)]
    simp only [balancedCodec, hv]
    rw [if_pos hb]

/-- R60: the codec of every configuration obeys the laws of R60. -/
theorem b128CodecOf_lawful (cfg : Config) : (b128CodecOf cfg).Lawful cfg.b128Pents := by
  unfold b128CodecOf
  split
  · rename_i c _; exact c.property
  · exact balancedCodec_lawful cfg.b128Pents_fit

@[simp] theorem drawnImage_length (cfg : Config) (n : Nat) : (drawnImage cfg n).length = cfg.b128Pents := by
  simp [drawnImage]

end Sys2Proof.Machine
end

