-- ==== Sys2Proof/Laws/State.lean ====
section
/-! SUPPORT. One lemma per field of State for each update, so that no proof unfolds a record update; then the fields the
composed writes (`writeR`, `writeD`, `writeQ`, `writePents`, `memDrawB128`) leave alone. -/

namespace Sys2Proof.Machine

variable (s : State)

/-! ## writeX -/

@[simp] theorem writeX_cfg (i : XIdx) (v : Int) : (s.writeX i v).cfg = s.cfg := rfl
@[simp] theorem writeX_prog (i : XIdx) (v : Int) : (s.writeX i v).prog = s.prog := rfl
@[simp] theorem writeX_gpr (i : XIdx) (v : Int) : (s.writeX i v).gpr = s.gpr := rfl
@[simp] theorem writeX_xpr (i : XIdx) (v : Int) : (s.writeX i v).xpr = s.xpr.set i (wordOf 16 v) := rfl
@[simp] theorem writeX_pc (i : XIdx) (v : Int) : (s.writeX i v).pc = s.pc := rfl
@[simp] theorem writeX_flagCC (i : XIdx) (v : Int) : (s.writeX i v).flagCC = s.flagCC := rfl
@[simp] theorem writeX_flagC (i : XIdx) (v : Int) : (s.writeX i v).flagC = s.flagC := rfl
@[simp] theorem writeX_flagV (i : XIdx) (v : Int) : (s.writeX i v).flagV = s.flagV := rfl
@[simp] theorem writeX_flagS (i : XIdx) (v : Int) : (s.writeX i v).flagS = s.flagS := rfl
@[simp] theorem writeX_acc28 (i : XIdx) (v : Int) : (s.writeX i v).acc28 = s.acc28 := rfl
@[simp] theorem writeX_acc56 (i : XIdx) (v : Int) : (s.writeX i v).acc56 = s.acc56 := rfl
@[simp] theorem writeX_acc112 (i : XIdx) (v : Int) : (s.writeX i v).acc112 = s.acc112 := rfl
@[simp] theorem writeX_mem (i : XIdx) (v : Int) : (s.writeX i v).mem = s.mem := rfl
@[simp] theorem writeX_draws (i : XIdx) (v : Int) : (s.writeX i v).draws = s.draws := rfl
@[simp] theorem writeX_readR (i : XIdx) (v : Int) : (s.writeX i v).readR = s.readR := rfl
@[simp] theorem writeX_readD (i : XIdx) (v : Int) : (s.writeX i v).readD = s.readD := rfl
@[simp] theorem writeX_readQ (i : XIdx) (v : Int) : (s.writeX i v).readQ = s.readQ := rfl
@[simp] theorem writeX_readPent (i : XIdx) (v : Int) : (s.writeX i v).readPent = s.readPent := rfl

/-! ## writeAcc28 -/

@[simp] theorem writeAcc28_cfg (v : Int) : (s.writeAcc28 v).cfg = s.cfg := rfl
@[simp] theorem writeAcc28_prog (v : Int) : (s.writeAcc28 v).prog = s.prog := rfl
@[simp] theorem writeAcc28_gpr (v : Int) : (s.writeAcc28 v).gpr = s.gpr := rfl
@[simp] theorem writeAcc28_xpr (v : Int) : (s.writeAcc28 v).xpr = s.xpr := rfl
@[simp] theorem writeAcc28_pc (v : Int) : (s.writeAcc28 v).pc = s.pc := rfl
@[simp] theorem writeAcc28_flagCC (v : Int) : (s.writeAcc28 v).flagCC = s.flagCC := rfl
@[simp] theorem writeAcc28_flagC (v : Int) : (s.writeAcc28 v).flagC = s.flagC := rfl
@[simp] theorem writeAcc28_flagV (v : Int) : (s.writeAcc28 v).flagV = s.flagV := rfl
@[simp] theorem writeAcc28_flagS (v : Int) : (s.writeAcc28 v).flagS = s.flagS := rfl
@[simp] theorem writeAcc28_acc28 (v : Int) : (s.writeAcc28 v).acc28 = wordOf 28 v := rfl
@[simp] theorem writeAcc28_acc56 (v : Int) : (s.writeAcc28 v).acc56 = s.acc56 := rfl
@[simp] theorem writeAcc28_acc112 (v : Int) : (s.writeAcc28 v).acc112 = s.acc112 := rfl
@[simp] theorem writeAcc28_mem (v : Int) : (s.writeAcc28 v).mem = s.mem := rfl
@[simp] theorem writeAcc28_draws (v : Int) : (s.writeAcc28 v).draws = s.draws := rfl
@[simp] theorem writeAcc28_readR (v : Int) : (s.writeAcc28 v).readR = s.readR := rfl
@[simp] theorem writeAcc28_readD (v : Int) : (s.writeAcc28 v).readD = s.readD := rfl
@[simp] theorem writeAcc28_readQ (v : Int) : (s.writeAcc28 v).readQ = s.readQ := rfl
@[simp] theorem writeAcc28_readX (v : Int) : (s.writeAcc28 v).readX = s.readX := rfl
@[simp] theorem writeAcc28_readPent (v : Int) : (s.writeAcc28 v).readPent = s.readPent := rfl

/-! ## writeAcc56 -/

@[simp] theorem writeAcc56_cfg (v : Int) : (s.writeAcc56 v).cfg = s.cfg := rfl
@[simp] theorem writeAcc56_prog (v : Int) : (s.writeAcc56 v).prog = s.prog := rfl
@[simp] theorem writeAcc56_gpr (v : Int) : (s.writeAcc56 v).gpr = s.gpr := rfl
@[simp] theorem writeAcc56_xpr (v : Int) : (s.writeAcc56 v).xpr = s.xpr := rfl
@[simp] theorem writeAcc56_pc (v : Int) : (s.writeAcc56 v).pc = s.pc := rfl
@[simp] theorem writeAcc56_flagCC (v : Int) : (s.writeAcc56 v).flagCC = s.flagCC := rfl
@[simp] theorem writeAcc56_flagC (v : Int) : (s.writeAcc56 v).flagC = s.flagC := rfl
@[simp] theorem writeAcc56_flagV (v : Int) : (s.writeAcc56 v).flagV = s.flagV := rfl
@[simp] theorem writeAcc56_flagS (v : Int) : (s.writeAcc56 v).flagS = s.flagS := rfl
@[simp] theorem writeAcc56_acc28 (v : Int) : (s.writeAcc56 v).acc28 = s.acc28 := rfl
@[simp] theorem writeAcc56_acc56 (v : Int) : (s.writeAcc56 v).acc56 = wordOf 56 v := rfl
@[simp] theorem writeAcc56_acc112 (v : Int) : (s.writeAcc56 v).acc112 = s.acc112 := rfl
@[simp] theorem writeAcc56_mem (v : Int) : (s.writeAcc56 v).mem = s.mem := rfl
@[simp] theorem writeAcc56_draws (v : Int) : (s.writeAcc56 v).draws = s.draws := rfl
@[simp] theorem writeAcc56_readR (v : Int) : (s.writeAcc56 v).readR = s.readR := rfl
@[simp] theorem writeAcc56_readD (v : Int) : (s.writeAcc56 v).readD = s.readD := rfl
@[simp] theorem writeAcc56_readQ (v : Int) : (s.writeAcc56 v).readQ = s.readQ := rfl
@[simp] theorem writeAcc56_readX (v : Int) : (s.writeAcc56 v).readX = s.readX := rfl
@[simp] theorem writeAcc56_readPent (v : Int) : (s.writeAcc56 v).readPent = s.readPent := rfl

/-! ## writeAcc112 -/

@[simp] theorem writeAcc112_cfg (v : Int) : (s.writeAcc112 v).cfg = s.cfg := rfl
@[simp] theorem writeAcc112_prog (v : Int) : (s.writeAcc112 v).prog = s.prog := rfl
@[simp] theorem writeAcc112_gpr (v : Int) : (s.writeAcc112 v).gpr = s.gpr := rfl
@[simp] theorem writeAcc112_xpr (v : Int) : (s.writeAcc112 v).xpr = s.xpr := rfl
@[simp] theorem writeAcc112_pc (v : Int) : (s.writeAcc112 v).pc = s.pc := rfl
@[simp] theorem writeAcc112_flagCC (v : Int) : (s.writeAcc112 v).flagCC = s.flagCC := rfl
@[simp] theorem writeAcc112_flagC (v : Int) : (s.writeAcc112 v).flagC = s.flagC := rfl
@[simp] theorem writeAcc112_flagV (v : Int) : (s.writeAcc112 v).flagV = s.flagV := rfl
@[simp] theorem writeAcc112_flagS (v : Int) : (s.writeAcc112 v).flagS = s.flagS := rfl
@[simp] theorem writeAcc112_acc28 (v : Int) : (s.writeAcc112 v).acc28 = s.acc28 := rfl
@[simp] theorem writeAcc112_acc56 (v : Int) : (s.writeAcc112 v).acc56 = s.acc56 := rfl
@[simp] theorem writeAcc112_acc112 (v : Int) : (s.writeAcc112 v).acc112 = wordOf 112 v := rfl
@[simp] theorem writeAcc112_mem (v : Int) : (s.writeAcc112 v).mem = s.mem := rfl
@[simp] theorem writeAcc112_draws (v : Int) : (s.writeAcc112 v).draws = s.draws := rfl
@[simp] theorem writeAcc112_readR (v : Int) : (s.writeAcc112 v).readR = s.readR := rfl
@[simp] theorem writeAcc112_readD (v : Int) : (s.writeAcc112 v).readD = s.readD := rfl
@[simp] theorem writeAcc112_readQ (v : Int) : (s.writeAcc112 v).readQ = s.readQ := rfl
@[simp] theorem writeAcc112_readX (v : Int) : (s.writeAcc112 v).readX = s.readX := rfl
@[simp] theorem writeAcc112_readPent (v : Int) : (s.writeAcc112 v).readPent = s.readPent := rfl

/-! ## setCC -/

@[simp] theorem setCC_cfg (v : Int) : (s.setCC v).cfg = s.cfg := rfl
@[simp] theorem setCC_prog (v : Int) : (s.setCC v).prog = s.prog := rfl
@[simp] theorem setCC_gpr (v : Int) : (s.setCC v).gpr = s.gpr := rfl
@[simp] theorem setCC_xpr (v : Int) : (s.setCC v).xpr = s.xpr := rfl
@[simp] theorem setCC_pc (v : Int) : (s.setCC v).pc = s.pc := rfl
@[simp] theorem setCC_flagCC (v : Int) : (s.setCC v).flagCC = sgn v := rfl
@[simp] theorem setCC_flagC (v : Int) : (s.setCC v).flagC = s.flagC := rfl
@[simp] theorem setCC_flagV (v : Int) : (s.setCC v).flagV = s.flagV := rfl
@[simp] theorem setCC_flagS (v : Int) : (s.setCC v).flagS = s.flagS := rfl
@[simp] theorem setCC_acc28 (v : Int) : (s.setCC v).acc28 = s.acc28 := rfl
@[simp] theorem setCC_acc56 (v : Int) : (s.setCC v).acc56 = s.acc56 := rfl
@[simp] theorem setCC_acc112 (v : Int) : (s.setCC v).acc112 = s.acc112 := rfl
@[simp] theorem setCC_mem (v : Int) : (s.setCC v).mem = s.mem := rfl
@[simp] theorem setCC_draws (v : Int) : (s.setCC v).draws = s.draws := rfl
@[simp] theorem setCC_readR (v : Int) : (s.setCC v).readR = s.readR := rfl
@[simp] theorem setCC_readD (v : Int) : (s.setCC v).readD = s.readD := rfl
@[simp] theorem setCC_readQ (v : Int) : (s.setCC v).readQ = s.readQ := rfl
@[simp] theorem setCC_readX (v : Int) : (s.setCC v).readX = s.readX := rfl
@[simp] theorem setCC_readPent (v : Int) : (s.setCC v).readPent = s.readPent := rfl

/-! ## setC -/

@[simp] theorem setC_cfg (v : Int) : (s.setC v).cfg = s.cfg := rfl
@[simp] theorem setC_prog (v : Int) : (s.setC v).prog = s.prog := rfl
@[simp] theorem setC_gpr (v : Int) : (s.setC v).gpr = s.gpr := rfl
@[simp] theorem setC_xpr (v : Int) : (s.setC v).xpr = s.xpr := rfl
@[simp] theorem setC_pc (v : Int) : (s.setC v).pc = s.pc := rfl
@[simp] theorem setC_flagCC (v : Int) : (s.setC v).flagCC = s.flagCC := rfl
@[simp] theorem setC_flagC (v : Int) : (s.setC v).flagC = signOf v := rfl
@[simp] theorem setC_flagV (v : Int) : (s.setC v).flagV = s.flagV := rfl
@[simp] theorem setC_flagS (v : Int) : (s.setC v).flagS = s.flagS := rfl
@[simp] theorem setC_acc28 (v : Int) : (s.setC v).acc28 = s.acc28 := rfl
@[simp] theorem setC_acc56 (v : Int) : (s.setC v).acc56 = s.acc56 := rfl
@[simp] theorem setC_acc112 (v : Int) : (s.setC v).acc112 = s.acc112 := rfl
@[simp] theorem setC_mem (v : Int) : (s.setC v).mem = s.mem := rfl
@[simp] theorem setC_draws (v : Int) : (s.setC v).draws = s.draws := rfl
@[simp] theorem setC_readR (v : Int) : (s.setC v).readR = s.readR := rfl
@[simp] theorem setC_readD (v : Int) : (s.setC v).readD = s.readD := rfl
@[simp] theorem setC_readQ (v : Int) : (s.setC v).readQ = s.readQ := rfl
@[simp] theorem setC_readX (v : Int) : (s.setC v).readX = s.readX := rfl
@[simp] theorem setC_readPent (v : Int) : (s.setC v).readPent = s.readPent := rfl

/-! ## setV -/

@[simp] theorem setV_cfg (b : Bool) : (s.setV b).cfg = s.cfg := rfl
@[simp] theorem setV_prog (b : Bool) : (s.setV b).prog = s.prog := rfl
@[simp] theorem setV_gpr (b : Bool) : (s.setV b).gpr = s.gpr := rfl
@[simp] theorem setV_xpr (b : Bool) : (s.setV b).xpr = s.xpr := rfl
@[simp] theorem setV_pc (b : Bool) : (s.setV b).pc = s.pc := rfl
@[simp] theorem setV_flagCC (b : Bool) : (s.setV b).flagCC = s.flagCC := rfl
@[simp] theorem setV_flagC (b : Bool) : (s.setV b).flagC = s.flagC := rfl
@[simp] theorem setV_flagV (b : Bool) : (s.setV b).flagV = b := rfl
@[simp] theorem setV_flagS (b : Bool) : (s.setV b).flagS = s.flagS := rfl
@[simp] theorem setV_acc28 (b : Bool) : (s.setV b).acc28 = s.acc28 := rfl
@[simp] theorem setV_acc56 (b : Bool) : (s.setV b).acc56 = s.acc56 := rfl
@[simp] theorem setV_acc112 (b : Bool) : (s.setV b).acc112 = s.acc112 := rfl
@[simp] theorem setV_mem (b : Bool) : (s.setV b).mem = s.mem := rfl
@[simp] theorem setV_draws (b : Bool) : (s.setV b).draws = s.draws := rfl
@[simp] theorem setV_readR (b : Bool) : (s.setV b).readR = s.readR := rfl
@[simp] theorem setV_readD (b : Bool) : (s.setV b).readD = s.readD := rfl
@[simp] theorem setV_readQ (b : Bool) : (s.setV b).readQ = s.readQ := rfl
@[simp] theorem setV_readX (b : Bool) : (s.setV b).readX = s.readX := rfl
@[simp] theorem setV_readPent (b : Bool) : (s.setV b).readPent = s.readPent := rfl

/-! ## setS -/

@[simp] theorem setS_cfg (b : Bool) : (s.setS b).cfg = s.cfg := rfl
@[simp] theorem setS_prog (b : Bool) : (s.setS b).prog = s.prog := rfl
@[simp] theorem setS_gpr (b : Bool) : (s.setS b).gpr = s.gpr := rfl
@[simp] theorem setS_xpr (b : Bool) : (s.setS b).xpr = s.xpr := rfl
@[simp] theorem setS_pc (b : Bool) : (s.setS b).pc = s.pc := rfl
@[simp] theorem setS_flagCC (b : Bool) : (s.setS b).flagCC = s.flagCC := rfl
@[simp] theorem setS_flagC (b : Bool) : (s.setS b).flagC = s.flagC := rfl
@[simp] theorem setS_flagV (b : Bool) : (s.setS b).flagV = s.flagV := rfl
@[simp] theorem setS_flagS (b : Bool) : (s.setS b).flagS = b := rfl
@[simp] theorem setS_acc28 (b : Bool) : (s.setS b).acc28 = s.acc28 := rfl
@[simp] theorem setS_acc56 (b : Bool) : (s.setS b).acc56 = s.acc56 := rfl
@[simp] theorem setS_acc112 (b : Bool) : (s.setS b).acc112 = s.acc112 := rfl
@[simp] theorem setS_mem (b : Bool) : (s.setS b).mem = s.mem := rfl
@[simp] theorem setS_draws (b : Bool) : (s.setS b).draws = s.draws := rfl
@[simp] theorem setS_readR (b : Bool) : (s.setS b).readR = s.readR := rfl
@[simp] theorem setS_readD (b : Bool) : (s.setS b).readD = s.readD := rfl
@[simp] theorem setS_readQ (b : Bool) : (s.setS b).readQ = s.readQ := rfl
@[simp] theorem setS_readX (b : Bool) : (s.setS b).readX = s.readX := rfl
@[simp] theorem setS_readPent (b : Bool) : (s.setS b).readPent = s.readPent := rfl

/-! ## writePent -/

@[simp] theorem writePent_cfg (a : Int) (p : Pent) : (s.writePent a p).cfg = s.cfg := rfl
@[simp] theorem writePent_prog (a : Int) (p : Pent) : (s.writePent a p).prog = s.prog := rfl
@[simp] theorem writePent_gpr (a : Int) (p : Pent) : (s.writePent a p).gpr = s.gpr := rfl
@[simp] theorem writePent_xpr (a : Int) (p : Pent) : (s.writePent a p).xpr = s.xpr := rfl
@[simp] theorem writePent_pc (a : Int) (p : Pent) : (s.writePent a p).pc = s.pc := rfl
@[simp] theorem writePent_flagCC (a : Int) (p : Pent) : (s.writePent a p).flagCC = s.flagCC := rfl
@[simp] theorem writePent_flagC (a : Int) (p : Pent) : (s.writePent a p).flagC = s.flagC := rfl
@[simp] theorem writePent_flagV (a : Int) (p : Pent) : (s.writePent a p).flagV = s.flagV := rfl
@[simp] theorem writePent_flagS (a : Int) (p : Pent) : (s.writePent a p).flagS = s.flagS := rfl
@[simp] theorem writePent_acc28 (a : Int) (p : Pent) : (s.writePent a p).acc28 = s.acc28 := rfl
@[simp] theorem writePent_acc56 (a : Int) (p : Pent) : (s.writePent a p).acc56 = s.acc56 := rfl
@[simp] theorem writePent_acc112 (a : Int) (p : Pent) : (s.writePent a p).acc112 = s.acc112 := rfl
@[simp] theorem writePent_mem (a : Int) (p : Pent) : (s.writePent a p).mem = memSet s.cfg s.mem a p := rfl
@[simp] theorem writePent_draws (a : Int) (p : Pent) : (s.writePent a p).draws = s.draws := rfl
@[simp] theorem writePent_readR (a : Int) (p : Pent) : (s.writePent a p).readR = s.readR := rfl
@[simp] theorem writePent_readD (a : Int) (p : Pent) : (s.writePent a p).readD = s.readD := rfl
@[simp] theorem writePent_readQ (a : Int) (p : Pent) : (s.writePent a p).readQ = s.readQ := rfl
@[simp] theorem writePent_readX (a : Int) (p : Pent) : (s.writePent a p).readX = s.readX := rfl

/-! ## Composed writes -/

@[simp] theorem writeR_cfg (i : RIdx) (v : Int) : (s.writeR i v).cfg = s.cfg := by unfold State.writeR; split <;> rfl
@[simp] theorem writeR_prog (i : RIdx) (v : Int) : (s.writeR i v).prog = s.prog := by unfold State.writeR; split <;> rfl
@[simp] theorem writeR_xpr (i : RIdx) (v : Int) : (s.writeR i v).xpr = s.xpr := by unfold State.writeR; split <;> rfl
@[simp] theorem writeR_pc (i : RIdx) (v : Int) : (s.writeR i v).pc = s.pc := by unfold State.writeR; split <;> rfl
@[simp] theorem writeR_flagCC (i : RIdx) (v : Int) : (s.writeR i v).flagCC = s.flagCC := by unfold State.writeR; split <;> rfl
@[simp] theorem writeR_flagC (i : RIdx) (v : Int) : (s.writeR i v).flagC = s.flagC := by unfold State.writeR; split <;> rfl
@[simp] theorem writeR_flagV (i : RIdx) (v : Int) : (s.writeR i v).flagV = s.flagV := by unfold State.writeR; split <;> rfl
@[simp] theorem writeR_flagS (i : RIdx) (v : Int) : (s.writeR i v).flagS = s.flagS := by unfold State.writeR; split <;> rfl
@[simp] theorem writeR_acc28 (i : RIdx) (v : Int) : (s.writeR i v).acc28 = s.acc28 := by unfold State.writeR; split <;> rfl
@[simp] theorem writeR_acc56 (i : RIdx) (v : Int) : (s.writeR i v).acc56 = s.acc56 := by unfold State.writeR; split <;> rfl
@[simp] theorem writeR_acc112 (i : RIdx) (v : Int) : (s.writeR i v).acc112 = s.acc112 := by unfold State.writeR; split <;> rfl
@[simp] theorem writeR_mem (i : RIdx) (v : Int) : (s.writeR i v).mem = s.mem := by unfold State.writeR; split <;> rfl
@[simp] theorem writeR_draws (i : RIdx) (v : Int) : (s.writeR i v).draws = s.draws := by unfold State.writeR; split <;> rfl
@[simp] theorem writeR_readX (i : RIdx) (v : Int) : (s.writeR i v).readX = s.readX := by funext j; simp [State.readX]
@[simp] theorem writeR_readPent (i : RIdx) (v : Int) : (s.writeR i v).readPent = s.readPent := by funext a; simp [State.readPent]

@[simp] theorem writeD_cfg (k : DIdx) (v : Int) : (s.writeD k v).cfg = s.cfg := by simp [State.writeD]
@[simp] theorem writeD_prog (k : DIdx) (v : Int) : (s.writeD k v).prog = s.prog := by simp [State.writeD]
@[simp] theorem writeD_xpr (k : DIdx) (v : Int) : (s.writeD k v).xpr = s.xpr := by simp [State.writeD]
@[simp] theorem writeD_pc (k : DIdx) (v : Int) : (s.writeD k v).pc = s.pc := by simp [State.writeD]
@[simp] theorem writeD_flagCC (k : DIdx) (v : Int) : (s.writeD k v).flagCC = s.flagCC := by simp [State.writeD]
@[simp] theorem writeD_flagC (k : DIdx) (v : Int) : (s.writeD k v).flagC = s.flagC := by simp [State.writeD]
@[simp] theorem writeD_flagV (k : DIdx) (v : Int) : (s.writeD k v).flagV = s.flagV := by simp [State.writeD]
@[simp] theorem writeD_flagS (k : DIdx) (v : Int) : (s.writeD k v).flagS = s.flagS := by simp [State.writeD]
@[simp] theorem writeD_acc28 (k : DIdx) (v : Int) : (s.writeD k v).acc28 = s.acc28 := by simp [State.writeD]
@[simp] theorem writeD_acc56 (k : DIdx) (v : Int) : (s.writeD k v).acc56 = s.acc56 := by simp [State.writeD]
@[simp] theorem writeD_acc112 (k : DIdx) (v : Int) : (s.writeD k v).acc112 = s.acc112 := by simp [State.writeD]
@[simp] theorem writeD_mem (k : DIdx) (v : Int) : (s.writeD k v).mem = s.mem := by simp [State.writeD]
@[simp] theorem writeD_draws (k : DIdx) (v : Int) : (s.writeD k v).draws = s.draws := by simp [State.writeD]
@[simp] theorem writeD_readX (k : DIdx) (v : Int) : (s.writeD k v).readX = s.readX := by funext j; simp [State.readX]
@[simp] theorem writeD_readPent (k : DIdx) (v : Int) : (s.writeD k v).readPent = s.readPent := by funext a; simp [State.readPent]

@[simp] theorem writeQ_cfg (k : QIdx) (v : Int) : (s.writeQ k v).cfg = s.cfg := by simp [State.writeQ]
@[simp] theorem writeQ_prog (k : QIdx) (v : Int) : (s.writeQ k v).prog = s.prog := by simp [State.writeQ]
@[simp] theorem writeQ_xpr (k : QIdx) (v : Int) : (s.writeQ k v).xpr = s.xpr := by simp [State.writeQ]
@[simp] theorem writeQ_pc (k : QIdx) (v : Int) : (s.writeQ k v).pc = s.pc := by simp [State.writeQ]
@[simp] theorem writeQ_flagCC (k : QIdx) (v : Int) : (s.writeQ k v).flagCC = s.flagCC := by simp [State.writeQ]
@[simp] theorem writeQ_flagC (k : QIdx) (v : Int) : (s.writeQ k v).flagC = s.flagC := by simp [State.writeQ]
@[simp] theorem writeQ_flagV (k : QIdx) (v : Int) : (s.writeQ k v).flagV = s.flagV := by simp [State.writeQ]
@[simp] theorem writeQ_flagS (k : QIdx) (v : Int) : (s.writeQ k v).flagS = s.flagS := by simp [State.writeQ]
@[simp] theorem writeQ_acc28 (k : QIdx) (v : Int) : (s.writeQ k v).acc28 = s.acc28 := by simp [State.writeQ]
@[simp] theorem writeQ_acc56 (k : QIdx) (v : Int) : (s.writeQ k v).acc56 = s.acc56 := by simp [State.writeQ]
@[simp] theorem writeQ_acc112 (k : QIdx) (v : Int) : (s.writeQ k v).acc112 = s.acc112 := by simp [State.writeQ]
@[simp] theorem writeQ_mem (k : QIdx) (v : Int) : (s.writeQ k v).mem = s.mem := by simp [State.writeQ]
@[simp] theorem writeQ_draws (k : QIdx) (v : Int) : (s.writeQ k v).draws = s.draws := by simp [State.writeQ]
@[simp] theorem writeQ_readX (k : QIdx) (v : Int) : (s.writeQ k v).readX = s.readX := by funext j; simp [State.readX]
@[simp] theorem writeQ_readPent (k : QIdx) (v : Int) : (s.writeQ k v).readPent = s.readPent := by funext a; simp [State.readPent]

@[simp] theorem writePents_cfg (a : Int) (w : List Pent) : (s.writePents a w).cfg = s.cfg := by
  induction w generalizing s a with
  | nil => rfl
  | cons p ps ih => rw [State.writePents, ih]; rfl
@[simp] theorem writePents_prog (a : Int) (w : List Pent) : (s.writePents a w).prog = s.prog := by
  induction w generalizing s a with
  | nil => rfl
  | cons p ps ih => rw [State.writePents, ih]; rfl
@[simp] theorem writePents_gpr (a : Int) (w : List Pent) : (s.writePents a w).gpr = s.gpr := by
  induction w generalizing s a with
  | nil => rfl
  | cons p ps ih => rw [State.writePents, ih]; rfl
@[simp] theorem writePents_xpr (a : Int) (w : List Pent) : (s.writePents a w).xpr = s.xpr := by
  induction w generalizing s a with
  | nil => rfl
  | cons p ps ih => rw [State.writePents, ih]; rfl
@[simp] theorem writePents_pc (a : Int) (w : List Pent) : (s.writePents a w).pc = s.pc := by
  induction w generalizing s a with
  | nil => rfl
  | cons p ps ih => rw [State.writePents, ih]; rfl
@[simp] theorem writePents_flagCC (a : Int) (w : List Pent) : (s.writePents a w).flagCC = s.flagCC := by
  induction w generalizing s a with
  | nil => rfl
  | cons p ps ih => rw [State.writePents, ih]; rfl
@[simp] theorem writePents_flagC (a : Int) (w : List Pent) : (s.writePents a w).flagC = s.flagC := by
  induction w generalizing s a with
  | nil => rfl
  | cons p ps ih => rw [State.writePents, ih]; rfl
@[simp] theorem writePents_flagV (a : Int) (w : List Pent) : (s.writePents a w).flagV = s.flagV := by
  induction w generalizing s a with
  | nil => rfl
  | cons p ps ih => rw [State.writePents, ih]; rfl
@[simp] theorem writePents_flagS (a : Int) (w : List Pent) : (s.writePents a w).flagS = s.flagS := by
  induction w generalizing s a with
  | nil => rfl
  | cons p ps ih => rw [State.writePents, ih]; rfl
@[simp] theorem writePents_acc28 (a : Int) (w : List Pent) : (s.writePents a w).acc28 = s.acc28 := by
  induction w generalizing s a with
  | nil => rfl
  | cons p ps ih => rw [State.writePents, ih]; rfl
@[simp] theorem writePents_acc56 (a : Int) (w : List Pent) : (s.writePents a w).acc56 = s.acc56 := by
  induction w generalizing s a with
  | nil => rfl
  | cons p ps ih => rw [State.writePents, ih]; rfl
@[simp] theorem writePents_acc112 (a : Int) (w : List Pent) : (s.writePents a w).acc112 = s.acc112 := by
  induction w generalizing s a with
  | nil => rfl
  | cons p ps ih => rw [State.writePents, ih]; rfl
@[simp] theorem writePents_draws (a : Int) (w : List Pent) : (s.writePents a w).draws = s.draws := by
  induction w generalizing s a with
  | nil => rfl
  | cons p ps ih => rw [State.writePents, ih]; rfl
@[simp] theorem writePents_readR (a : Int) (w : List Pent) : (s.writePents a w).readR = s.readR := by
  funext i; simp [State.readR]
@[simp] theorem writePents_readX (a : Int) (w : List Pent) : (s.writePents a w).readX = s.readX := by
  funext i; simp [State.readX]

@[simp] theorem memDrawB128_cfg (a : Int) : (s.memDrawB128 a).cfg = s.cfg := by simp [State.memDrawB128]
@[simp] theorem memDrawB128_prog (a : Int) : (s.memDrawB128 a).prog = s.prog := by simp [State.memDrawB128]
@[simp] theorem memDrawB128_gpr (a : Int) : (s.memDrawB128 a).gpr = s.gpr := by simp [State.memDrawB128]
@[simp] theorem memDrawB128_xpr (a : Int) : (s.memDrawB128 a).xpr = s.xpr := by simp [State.memDrawB128]
@[simp] theorem memDrawB128_pc (a : Int) : (s.memDrawB128 a).pc = s.pc := by simp [State.memDrawB128]
@[simp] theorem memDrawB128_flagCC (a : Int) : (s.memDrawB128 a).flagCC = s.flagCC := by simp [State.memDrawB128]
@[simp] theorem memDrawB128_flagC (a : Int) : (s.memDrawB128 a).flagC = s.flagC := by simp [State.memDrawB128]
@[simp] theorem memDrawB128_flagV (a : Int) : (s.memDrawB128 a).flagV = s.flagV := by simp [State.memDrawB128]
@[simp] theorem memDrawB128_flagS (a : Int) : (s.memDrawB128 a).flagS = s.flagS := by simp [State.memDrawB128]
@[simp] theorem memDrawB128_acc28 (a : Int) : (s.memDrawB128 a).acc28 = s.acc28 := by simp [State.memDrawB128]
@[simp] theorem memDrawB128_acc56 (a : Int) : (s.memDrawB128 a).acc56 = s.acc56 := by simp [State.memDrawB128]
@[simp] theorem memDrawB128_acc112 (a : Int) : (s.memDrawB128 a).acc112 = s.acc112 := by simp [State.memDrawB128]
@[simp] theorem memDrawB128_mem (a : Int) :
    (s.memDrawB128 a).mem = (s.writePents a (drawnImage s.cfg s.draws)).mem := rfl
@[simp] theorem memDrawB128_draws (a : Int) : (s.memDrawB128 a).draws = s.draws + 1 := rfl
@[simp] theorem memDrawB128_readR (a : Int) : (s.memDrawB128 a).readR = s.readR := by
  funext i; simp [State.readR]
@[simp] theorem memDrawB128_readX (a : Int) : (s.memDrawB128 a).readX = s.readX := by
  funext i; simp [State.readX]

end Sys2Proof.Machine
end

