-- ==== Sys2Proof/Laws/Memory.lean ====
section
/-! SUPPORT. The laws of data memory: a pent written is the pent read (R63), a write leaves every other address alone (R55),
every memory operation keeps the canonical form, and a word read back is the word written (R54, R55). -/

namespace Sys2Proof.Machine

variable (cfg : Config)

/-! ## One pent -/

theorem memGet_memErase (m : List (Int × Pent)) (a b : Int) :
    memGet cfg (memErase m a) b = if b = a then initPent cfg a else memGet cfg m b := by
  induction m with
  | nil => by_cases h : b = a <;> simp [memErase, memGet, h]
  | cons e rest ih =>
    obtain ⟨c, q⟩ := e
    unfold memErase at ih ⊢
    by_cases hc : c = a
    · subst hc
      by_cases hb : b = c
      · subst hb; simpa using ih
      · simp [memGet, ih, hb]
    · by_cases hb : b = c
      · subst hb; simp [memGet, hc]
      · simp [memGet, ih, hc, hb]

theorem memGet_memInsert (m : List (Int × Pent)) (a b : Int) (p : Pent) (h : ∀ e ∈ m, e.1 ≠ a) :
    memGet cfg (memInsert m a p) b = if b = a then p else memGet cfg m b := by
  induction m with
  | nil => by_cases hb : b = a <;> simp [memInsert, memGet, hb]
  | cons e rest ih =>
    obtain ⟨c, q⟩ := e
    have hc : c ≠ a := h (c, q) (by simp)
    have ih := ih fun e he => h e (by simp [he])
    unfold memInsert
    by_cases hlt : a < c
    · simp only [hlt, if_true, memGet]
    · simp only [hlt, if_false, memGet, ih]
      by_cases hb : b = a
      · subst hb; simp [Ne.symm hc]
      · simp [hb]

theorem memErase_ne (m : List (Int × Pent)) (a : Int) : ∀ e ∈ memErase m a, e.1 ≠ a := by
  intro e he
  simpa [memErase] using (List.mem_filter.mp he).2

/-- A pent written is the pent read, and every other address reads as before (R55, R63). -/
theorem memGet_memSet (m : List (Int × Pent)) (a b : Int) (p : Pent) :
    memGet cfg (memSet cfg m a p) b = if b = a then p else memGet cfg m b := by
  unfold memSet
  split
  · rename_i h; rw [memGet_memErase, h]
  · rw [memGet_memInsert cfg _ _ _ _ (memErase_ne m a), memGet_memErase]
    by_cases hb : b = a <;> simp [hb]

/-! ## The canonical form -/

theorem wf_cons (b : Int) (q : Pent) (rest : List (Int × Pent)) :
    Memory.wf cfg ((b, q) :: rest) = true ↔
      (∀ e ∈ rest, b < e.1) ∧ q ≠ initPent cfg b ∧ Memory.wf cfg rest = true := by
  simp [Memory.wf, and_assoc]

theorem memErase_wf {m : List (Int × Pent)} (h : Memory.wf cfg m = true) (a : Int) :
    Memory.wf cfg (memErase m a) = true := by
  induction m with
  | nil => rfl
  | cons e rest ih =>
    obtain ⟨c, q⟩ := e
    obtain ⟨h1, h2, h3⟩ := (wf_cons cfg c q rest).mp h
    unfold memErase at ih ⊢
    by_cases hc : c = a
    · simpa [hc] using ih h3
    · have hf : List.filter (fun e => e.1 != a) ((c, q) :: rest) = (c, q) :: List.filter (fun e => e.1 != a) rest := by
        simp [hc]
      rw [hf, wf_cons]
      exact ⟨fun e he => h1 e (List.mem_filter.mp he).1, h2, ih h3⟩

theorem mem_memInsert (m : List (Int × Pent)) (a : Int) (p : Pent) (e : Int × Pent) :
    e ∈ memInsert m a p ↔ e = (a, p) ∨ e ∈ m := by
  induction m with
  | nil => simp [memInsert]
  | cons f rest ih =>
    obtain ⟨c, q⟩ := f
    unfold memInsert
    split
    · simp
    · simp only [List.mem_cons, ih]; tauto

theorem memInsert_wf {m : List (Int × Pent)} (h : Memory.wf cfg m = true) {a : Int} {p : Pent}
    (ha : ∀ e ∈ m, e.1 ≠ a) (hp : p ≠ initPent cfg a) : Memory.wf cfg (memInsert m a p) = true := by
  induction m with
  | nil => simp [memInsert, Memory.wf, hp]
  | cons e rest ih =>
    obtain ⟨c, q⟩ := e
    obtain ⟨h1, h2, h3⟩ := (wf_cons cfg c q rest).mp h
    have hc : c ≠ a := ha (c, q) (by simp)
    unfold memInsert
    split
    · rename_i hlt
      rw [wf_cons]
      refine ⟨?_, hp, h⟩
      intro e he
      rcases List.mem_cons.mp he with rfl | he
      · exact hlt
      · exact lt_trans hlt (h1 e he)
    · rename_i hlt
      rw [wf_cons]
      refine ⟨?_, h2, ih h3 fun e he => ha e (by simp [he])⟩
      intro e he
      rcases (mem_memInsert rest a p e).mp he with rfl | he
      · show c < a; omega
      · exact h1 e he

/-- Writing one pent keeps the canonical form. -/
theorem memSet_wf {m : List (Int × Pent)} (h : Memory.wf cfg m = true) (a : Int) (p : Pent) :
    Memory.wf cfg (memSet cfg m a p) = true := by
  unfold memSet
  split
  · exact memErase_wf cfg h a
  · rename_i hp; exact memInsert_wf cfg (memErase_wf cfg h a) (memErase_ne m a) hp

/-- An entry after a write stands at the address written or was there before. -/
theorem mem_memSet {m : List (Int × Pent)} {a : Int} {p : Pent} {e : Int × Pent} (h : e ∈ memSet cfg m a p) :
    e.1 = a ∨ e ∈ m := by
  unfold memSet at h
  split at h
  · exact Or.inr (List.mem_filter.mp h).1
  · rcases (mem_memInsert _ a p e).mp h with rfl | h
    · exact Or.inl rfl
    · exact Or.inr (List.mem_filter.mp h).1

/-- Two canonical memories that read alike at every address are the same list. -/
theorem memory_ext {m n : List (Int × Pent)} (hm : Memory.wf cfg m = true) (hn : Memory.wf cfg n = true)
    (h : ∀ a, memGet cfg m a = memGet cfg n a) : m = n := by
  have hout : ∀ (l : List (Int × Pent)) (a : Int), (∀ e ∈ l, a < e.1) → memGet cfg l a = initPent cfg a := by
    intro l a hl
    induction l with
    | nil => rfl
    | cons e rest ih =>
      obtain ⟨c, q⟩ := e
      have hc : a < c := hl (c, q) (by simp)
      rw [memGet, if_neg (by omega)]
      exact ih fun e he => hl e (by simp [he])
  induction m generalizing n with
  | nil =>
    cases n with
    | nil => rfl
    | cons f n =>
      obtain ⟨c, q⟩ := f
      have h2 := ((wf_cons cfg c q n).mp hn).2.1
      have hc := h c
      simp only [memGet, if_true] at hc
      exact absurd hc.symm h2
  | cons e m ih =>
    obtain ⟨b, p⟩ := e
    obtain ⟨m1, m2, m3⟩ := (wf_cons cfg b p m).mp hm
    cases n with
    | nil =>
      have hb := h b
      simp only [memGet, if_true] at hb
      exact absurd hb m2
    | cons f n =>
      obtain ⟨c, q⟩ := f
      obtain ⟨n1, n2, n3⟩ := (wf_cons cfg c q n).mp hn
      have hbc : b = c := by
        rcases lt_trichotomy b c with hlt | heq | hgt
        · have hb := h b
          rw [memGet, if_pos rfl, memGet, if_neg (by omega), hout n b fun e he => lt_trans hlt (n1 e he)] at hb
          exact absurd hb m2
        · exact heq
        · have hc := h c
          rw [memGet, if_neg (by omega), memGet, if_pos rfl, hout m c fun e he => lt_trans hgt (m1 e he)] at hc
          exact absurd hc.symm n2
      subst hbc
      have hpq : p = q := by have hb := h b; simpa [memGet] using hb
      subst hpq
      have hrest : m = n := by
        refine ih m3 n3 fun a => ?_
        by_cases hab : a = b
        · subst hab; rw [hout m a m1, hout n a n1]
        · have ha := h a; simpa [memGet, hab] using ha
      rw [hrest]

/-! ## Rows of pents -/

variable (s : State)

theorem readPent_writePent (a b : Int) (p : Pent) :
    (s.writePent a p).readPent b = if b = a then p else s.readPent b :=
  memGet_memSet s.cfg s.mem a b p

/-- R55: the pents written are read back in their order, and every other address reads as before. -/
theorem readPent_writePents (a b : Int) (w : List Pent) :
    (s.writePents a w).readPent b =
      if a ≤ b ∧ b < a + w.length then w.getD (b - a).toNat .zero else s.readPent b := by
  induction w generalizing s a with
  | nil =>
    rw [State.writePents, if_neg]
    simp only [List.length_nil, Int.natCast_zero]
    omega
  | cons p ps ih =>
    rw [State.writePents, ih, readPent_writePent, List.length_cons]
    by_cases hb : b = a
    · subst hb
      rw [if_neg (by omega), if_pos rfl, if_pos (by omega)]
      simp
    · by_cases hin : a + 1 ≤ b ∧ b < a + 1 + ps.length
      · have ht : (b - a).toNat = (b - (a + 1)).toNat + 1 := by omega
        rw [if_pos hin, if_pos (by push_cast; omega), ht]
        rfl
      · rw [if_neg hin, if_neg hb, if_neg (by push_cast; omega)]

@[simp] theorem readPents_length (n : Nat) (a : Int) : (s.readPents n a).length = n := by
  induction n generalizing a with
  | zero => rfl
  | succ n ih => simp [State.readPents, ih]

theorem readPents_congr {s t : State} {n : Nat} {a : Int}
    (h : ∀ b, a ≤ b → b < a + n → t.readPent b = s.readPent b) : t.readPents n a = s.readPents n a := by
  induction n generalizing a with
  | zero => rfl
  | succ n ih =>
    rw [State.readPents, State.readPents, h a (by omega) (by push_cast; omega), ih]
    intro b h1 h2
    exact h b (by omega) (by push_cast; omega)

theorem readPents_append (k j : Nat) (a : Int) :
    s.readPents (k + j) a = s.readPents k a ++ s.readPents j (a + k) := by
  induction k generalizing a with
  | zero => simp [State.readPents]
  | succ k ih =>
    rw [Nat.add_right_comm, State.readPents, State.readPents, ih, List.cons_append]
    have : a + 1 + (k : Int) = a + ((k + 1 : Nat) : Int) := by push_cast; ring
    rw [this]

/-- R54, R55: a row of pents written is the row read. -/
theorem readPents_writePents (a : Int) (w : List Pent) : (s.writePents a w).readPents w.length a = w := by
  induction w generalizing s a with
  | nil => rfl
  | cons p ps ih =>
    rw [List.length_cons, State.readPents, State.writePents, ih, readPent_writePents, if_neg (by omega),
      readPent_writePent, if_pos rfl]

@[simp] theorem memoryOrder_length (o : PentOrder) (w : List Pent) : (memoryOrder o w).length = w.length := by
  cases o <;> simp [memoryOrder]

@[simp] theorem memoryOrder_memoryOrder (o : PentOrder) (w : List Pent) : memoryOrder o (memoryOrder o w) = w := by
  cases o <;> simp [memoryOrder]

/-- R54: what is read is an integer in [-M_n, M_n]. -/
theorem memRead_fits (a : Int) (n : Nat) : Fits n (s.memRead a n) := by
  have h := valOf_fits (memoryOrder s.cfg.pentOrder (s.readPents n a))
  simpa [State.memRead] using h

/-- Every row of pents written keeps the canonical form. -/
theorem writePents_wf (a : Int) (w : List Pent) (h : Memory.wf s.cfg s.mem = true) :
    Memory.wf s.cfg (s.writePents a w).mem = true := by
  induction w generalizing s a with
  | nil => exact h
  | cons p ps ih =>
    rw [State.writePents]
    exact ih (s.writePent a p) (a + 1) (memSet_wf s.cfg h a p)

/-- A pent listed after a row of pents is written stands in the row or was there before. -/
theorem mem_writePents (a : Int) (w : List Pent) {e : Int × Pent} (h : e ∈ (s.writePents a w).mem) :
    (a ≤ e.1 ∧ e.1 < a + w.length) ∨ e ∈ s.mem := by
  induction w generalizing s a with
  | nil => exact Or.inr h
  | cons p ps ih =>
    rw [State.writePents] at h
    rcases ih (s.writePent a p) (a + 1) h with h1 | h1
    · left; rw [List.length_cons]; push_cast; omega
    · rcases mem_memSet s.cfg h1 with h2 | h2
      · left; rw [List.length_cons]; push_cast; omega
      · exact Or.inr h2

/-! ## The view after a memory write -/

theorem view_writePents (a : Int) (w : List Pent) : (s.writePents a w).view = s.view.withMem a w.length w := by
  have h : (s.writePents a w).readPent =
      fun b => if a ≤ b ∧ b < a + w.length then w.getD (b - a).toNat .zero else s.readPent b := by
    funext b; exact readPent_writePents s a b w
  simp [State.view, View.withMem, h]

/-- R55. -/
theorem view_memWrite (a : Int) (n : Nat) (v : Int) :
    (s.memWrite a n v).view = s.view.withMem a n (memoryOrder s.cfg.pentOrder (pents n v)) := by
  unfold State.memWrite
  rw [view_writePents]
  simp

/-- R60: the image of a binary128 value. -/
theorem view_memWriteB128 (a : Int) {b : Int} (hb : IsB128 b) :
    (s.memWriteB128 a b).view = s.view.withMem a s.cfg.b128Pents ((b128CodecOf s.cfg).enc b) := by
  unfold State.memWriteB128
  rw [view_writePents, (b128CodecOf_lawful s.cfg).1 b hb]

/-- R136: the unspecified image of the next draw. -/
theorem view_memDrawB128 (a : Int) :
    (s.memDrawB128 a).view =
      { s.view.withMem a s.cfg.b128Pents (drawnImage s.cfg s.draws) with draws := s.draws + 1 } := by
  have h := view_writePents s a (drawnImage s.cfg s.draws)
  rw [drawnImage_length] at h
  rw [← h]
  rfl

end Sys2Proof.Machine
end

