-- ==== Sys2Proof/Laws/Operands.lean ====
section
/-! SUPPORT. What each register write does to what software sees: one lemma per write, for every value, in range or not
(R22, R24, R25, R26, R30). -/

namespace Sys2Proof.Machine

/-! ## Single registers -/

@[simp] theorem readR_zero (s : State) : s.readR 0 = 0 := rfl

theorem readR_fits (s : State) (i : RIdx) : Fits 14 (s.readR i) := by
  unfold State.readR
  split
  · have := maxMag_nonneg 14; unfold Fits; omega
  · exact pword_fits _

theorem readX_fits (s : State) (i : XIdx) : Fits 16 (s.readX i) := pword_fits _

theorem readD_fits (s : State) (k : DIdx) : Fits 28 (s.readD k) :=
  join_fits (j := 14) (k := 14) (readR_fits s _) (readR_fits s _)

theorem readQ_fits (s : State) (k : QIdx) : Fits 56 (s.readQ k) :=
  join_fits (j := 28) (k := 28) (readD_fits s _) (readD_fits s _)

/-- R22: the register written holds the wrapped value, R0 holds 0, every other register what it held. -/
theorem readR_writeR (s : State) (i j : RIdx) (v : Int) :
    (s.writeR i v).readR j = if j = i ∧ i ≠ 0 then bal 14 v else s.readR j := by
  unfold State.writeR
  by_cases hi : i = 0
  · simp [hi]
  · by_cases hj : j = i
    · subst hj; simp [State.readR, hi, wordOf]
    · have hv : (i : Nat) ≠ (j : Nat) := fun h => hj (Fin.ext h.symm)
      simp [State.readR, hi, hj, hv]

theorem readX_writeX (s : State) (i j : XIdx) (v : Int) :
    (s.writeX i v).readX j = if j = i then bal 16 v else s.readX j := by
  unfold State.writeX State.readX
  by_cases hj : j = i
  · subst hj; simp [wordOf]
  · have hv : (i : Nat) ≠ (j : Nat) := fun h => hj (Fin.ext h.symm)
    simp [hj, hv]

/-! ## Pairs and quads -/

/-- R24: after `D[k] <- v` the high register holds pents 27..14 of the wrapped value and the low one pents 13..0, but for
R0; every other register holds what it held. -/
theorem readR_writeD (s : State) (k : DIdx) (j : RIdx) (v : Int) :
    (s.writeD k v).readR j =
      if j.val = 2 * k.val + 1 then bal 14 (hi 14 v)
      else if j.val = 2 * k.val ∧ j ≠ 0 then lo 14 v
      else s.readR j := by
  have hh : k.high ≠ 0 := by intro h; have := congrArg Fin.val h; simp [DIdx.high] at this
  have e1 : (j = k.high) ↔ j.val = 2 * k.val + 1 := by rw [Fin.ext_iff]; rfl
  have e2 : (j = k.low) ↔ j.val = 2 * k.val := by rw [Fin.ext_iff]; rfl
  rw [State.writeD, readR_writeR, readR_writeR]
  by_cases h1 : j.val = 2 * k.val + 1
  · simp [e1, h1, hh]
  · by_cases h2 : j.val = 2 * k.val
    · have h3 : j = k.low := e2.mpr h2
      subst h3
      simp [e1, h2, lo]
    · simp [e1, e2, h1, h2]

theorem readR_writeQ (s : State) (k : QIdx) (j : RIdx) (v : Int) :
    (s.writeQ k v).readR j =
      if j.val / 4 = k.val ∧ j ≠ 0 then lo 14 (hi (14 * (j.val % 4)) (bal 56 v)) else s.readR j := by
  have e1 : 2 * (QIdx.high k).val = 4 * k.val + 2 := by simp [QIdx.high]; omega
  have e2 : 2 * (QIdx.low k).val = 4 * k.val := by simp [QIdx.low]; omega
  have l0 : lo 14 (hi (14 * 0) (bal 56 v)) = lo 14 (lo 28 v) := by
    rw [Nat.mul_zero, hi_zero_width, show lo 14 (bal 56 v) = lo 14 v from lo_bal 42 14 v]
    exact (lo_bal 14 14 v).symm
  have l1 : lo 14 (hi (14 * 1) (bal 56 v)) = bal 14 (hi 14 (lo 28 v)) := by
    rw [show hi (14 * 1) (bal 56 v) = bal 42 (hi 14 v) from hi_bal 42 14 v,
      show lo 14 (bal 42 (hi 14 v)) = lo 14 (hi 14 v) from lo_bal 28 14 _,
      show hi 14 (lo 28 v) = bal 14 (hi 14 v) from hi_bal 14 14 v, bal_bal]
    rfl
  have l2 : lo 14 (hi (14 * 2) (bal 56 v)) = lo 14 (hi 28 v) := by
    rw [show hi (14 * 2) (bal 56 v) = bal 28 (hi 28 v) from hi_bal 28 28 v]
    exact lo_bal 14 14 _
  have l3 : lo 14 (hi (14 * 3) (bal 56 v)) = bal 14 (hi 14 (hi 28 v)) := by
    rw [show hi (14 * 3) (bal 56 v) = bal 14 (hi 42 v) from hi_bal 14 42 v,
      show hi 42 v = hi 14 (hi 28 v) from (hi_hi 14 28 v).symm]
    exact bal_bal 14 _
  rw [State.writeQ, readR_writeD, readR_writeD, e1, e2]
  by_cases hz : j = 0
  · subst hz
    rw [if_neg (by simp), if_neg (by simp), if_neg (by simp), if_neg (by simp), if_neg (by simp)]
  by_cases hk : j.val / 4 = k.val
  · rw [if_pos (show j.val / 4 = k.val ∧ j ≠ 0 from ⟨hk, hz⟩)]
    have hm : j.val % 4 = 0 ∨ j.val % 4 = 1 ∨ j.val % 4 = 2 ∨ j.val % 4 = 3 := by omega
    rcases hm with h | h | h | h <;> rw [h]
    · rw [if_neg (by omega), if_neg (by omega), if_neg (by omega), if_pos ⟨by omega, hz⟩, l0]
    · rw [if_neg (by omega), if_neg (by omega), if_pos (by omega), l1]
    · rw [if_neg (by omega), if_pos ⟨by omega, hz⟩, l2]
    · rw [if_pos (by omega), l3]
  · rw [if_neg (by omega), if_neg (by omega), if_neg (by omega), if_neg (by omega), if_neg (by omega)]

/-! ## The view after a write -/

/-- R22. -/
theorem view_writeR (s : State) (i : RIdx) (v : Int) : (s.writeR i v).view = s.view.withR i (bal 14 v) := by
  simp only [State.view, View.withR, writeR_readX, writeR_readPent, writeR_pc, writeR_flagCC, writeR_flagC, writeR_flagV,
    writeR_flagS, writeR_acc28, writeR_acc56, writeR_acc112, writeR_cfg, writeR_prog, writeR_draws]
  congr 1
  funext j
  exact readR_writeR s i j v

/-- R24, R26: whatever `v` is, the pair holds its 28-pent wrap. -/
theorem view_writeD (s : State) (k : DIdx) (v : Int) : (s.writeD k v).view = s.view.withD k (bal 28 v) := by
  simp only [State.view, View.withD, writeD_readX, writeD_readPent, writeD_pc, writeD_flagCC, writeD_flagC, writeD_flagV,
    writeD_flagS, writeD_acc28, writeD_acc56, writeD_acc112, writeD_cfg, writeD_prog, writeD_draws]
  congr 1
  funext j
  have h1 : lo 14 (bal 28 v) = lo 14 v := lo_bal 14 14 v
  have h2 : hi 14 (bal 28 v) = bal 14 (hi 14 v) := hi_bal 14 14 v
  rw [readR_writeD, h1, h2]

/-- R25, R26: whatever `v` is, the quad holds its 56-pent wrap. -/
theorem view_writeQ (s : State) (k : QIdx) (v : Int) : (s.writeQ k v).view = s.view.withQ k (bal 56 v) := by
  simp only [State.view, View.withQ, writeQ_readX, writeQ_readPent, writeQ_pc, writeQ_flagCC, writeQ_flagC, writeQ_flagV,
    writeQ_flagS, writeQ_acc28, writeQ_acc56, writeQ_acc112, writeQ_cfg, writeQ_prog, writeQ_draws]
  congr 1
  funext j
  exact readR_writeQ s k j v

/-- R30. -/
theorem view_writeX (s : State) (i : XIdx) (v : Int) : (s.writeX i v).view = s.view.withX i (bal 16 v) := by
  have h : (s.writeX i v).readX = fun j => if j = i then bal 16 v else s.readX j := by
    funext j; exact readX_writeX s i j v
  simp [State.view, View.withX, h]

theorem view_writeAcc28 (s : State) (v : Int) : (s.writeAcc28 v).view = { s.view with acc28 := bal 28 v } := rfl

theorem view_writeAcc56 (s : State) (v : Int) : (s.writeAcc56 v).view = { s.view with acc56 := bal 56 v } := rfl

theorem view_writeAcc112 (s : State) (v : Int) : (s.writeAcc112 v).view = { s.view with acc112 := bal 112 v } := rfl

theorem view_setCC (s : State) (v : Int) : (s.setCC v).view = { s.view with cc := sgn v } := rfl

theorem view_setC (s : State) (v : Int) : (s.setC v).view = { s.view with c := signOf v } := rfl

theorem view_setV (s : State) (b : Bool) : (s.setV b).view = { s.view with v := b } := rfl

theorem view_setS (s : State) (b : Bool) : (s.setS b).view = { s.view with s := b } := rfl

end Sys2Proof.Machine
end

