-- ==== Sys2Proof/Laws/Ops.lean ====
section
/-! SUPPORT. What each shared operation can do, said once: the end of an instruction, the access checks, the memory forms, the
program text. -/

namespace Sys2Proof.Machine

/-! ## The end of an instruction (R27, R28) -/

/-- `goto` answers a next state exactly when the target is in range; only `pc` changes. -/
theorem goto_next {s t : State} {a : Int} :
    s.goto a = .next t ↔ Fits 14 a ∧ t = { s with pc := wordOf 14 a } := by
  unfold State.goto raise
  split
  · rename_i h
    have hw : wordOf 14 a = ⟨a, h.1, h.2⟩ := pword_eq_of_val (bal_of_fits h)
    rw [hw]
    constructor
    · intro he; injection he with he; exact ⟨h, he.symm⟩
    · rintro ⟨-, rfl⟩; rfl
  · rename_i h
    constructor
    · intro he; exact nomatch he
    · rintro ⟨h', -⟩; exact absurd h' h

theorem goto_of_fits {s : State} {a : Int} (h : Fits 14 a) : s.goto a = .next { s with pc := wordOf 14 a } :=
  goto_next.mpr ⟨h, rfl⟩

/-- R28: out of range, `goto` faults, and says nothing of the work done. -/
theorem goto_of_not_fits {s : State} {a : Int} (h : ¬ Fits 14 a) : s.goto a = .fault (.pcOutOfRange s.pc.val) := by
  unfold State.goto raise
  rw [dif_neg h]

theorem goto_not_refused {s : State} {a : Int} {r : Refusal} : s.goto a ≠ .refused r := by
  unfold State.goto raise
  split <;> intro h <;> exact nomatch h

theorem view_pc (s : State) {a : Int} (h : Fits 14 a) :
    State.view { s with pc := wordOf 14 a } = { s.view with pc := a } := by
  simp only [State.view, wordOf_val, bal_of_fits h]
  rfl

/-- `advance` answers a next state exactly when the next `pc` is in range; only `pc` changes. -/
theorem advance_next {s t : State} :
    s.advance = .next t ↔ s.CanAdvance ∧ t = { s with pc := wordOf 14 (s.pc.val + s.cfg.ilen) } := goto_next

theorem view_advance {s t : State} (h : s.advance = .next t) : s.CanAdvance ∧ t.view = s.view.next := by
  obtain ⟨hc, rfl⟩ := advance_next.mp h
  exact ⟨hc, view_pc s hc⟩

/-- An instruction that ends by advancing from `u` completes with the view of `u`, `pc` moved. -/
theorem completes_of_advance {i : Instr} {s u : State} {w : View} (he : exec i s = u.advance) (hc : u.CanAdvance)
    (hv : u.view.next = w) : Completes i s w := by
  refine ⟨{ u with pc := wordOf 14 (u.pc.val + u.cfg.ilen) }, ?_, ?_⟩
  · rw [he]; exact advance_next.mpr ⟨hc, rfl⟩
  · rw [view_pc u hc]; exact hv

/-! ## Access checks (R58, R61, R203) -/

theorem accessCheck_none {s : State} {align : Nat} {ea : Int} {n : Nat} :
    s.accessCheck align ea n = none ↔ s.CanAccess align ea n := by
  unfold State.accessCheck State.CanAccess
  by_cases h1 : ea % align = 0
  · by_cases h2 : rangeInDomain s.cfg ea n = true <;> simp [h1, h2]
  · simp [h1]

theorem accessCheck_some {s : State} {align : Nat} {ea : Int} {n : Nat} {f : Fault} :
    s.accessCheck align ea n = some f ↔
      (ea % align ≠ 0 ∧ f = .misaligned s.pc.val ea) ∨
        (ea % align = 0 ∧ rangeInDomain s.cfg ea n = false ∧ f = .accessFault s.pc.val ea) := by
  unfold State.accessCheck
  split_ifs with h1 h2
  · constructor
    · intro h; injection h with h; exact Or.inl ⟨h1, h.symm⟩
    · rintro (⟨-, rfl⟩ | ⟨h, -⟩)
      · rfl
      · exact absurd h h1
  · constructor
    · intro h; exact nomatch h
    · rintro (⟨h, -⟩ | ⟨-, h, -⟩)
      · exact absurd h h1
      · rw [h2] at h; exact nomatch h
  · constructor
    · intro h; injection h with h
      exact Or.inr ⟨not_not.mp h1, Bool.eq_false_iff.mpr h2, h.symm⟩
    · rintro (⟨h, -⟩ | ⟨-, -, rfl⟩)
      · exact absurd h h1
      · rfl

/-- Everything that makes an address exist (R51, log entry 6). -/
theorem inDomain_iff (cfg : Config) (a : Int) :
    inDomain cfg a = true ↔ ∃ g ∈ cfg.memDomain, regionHas g a = true := List.any_eq_true

@[simp] theorem regionHas_run (first a : Int) (size : Nat) :
    regionHas (.run first size) a = true ↔ first ≤ a ∧ a < first + size := by simp [regionHas]

@[simp] theorem regionHas_upFrom (first a : Int) : regionHas (.upFrom first) a = true ↔ first ≤ a := by simp [regionHas]

@[simp] theorem regionHas_downFrom (last a : Int) : regionHas (.downFrom last) a = true ↔ a ≤ last := by simp [regionHas]

theorem rangeInDomain_iff (cfg : Config) (a : Int) (n : Nat) :
    rangeInDomain cfg a n = true ↔ ∀ b, a ≤ b → b < a + n → inDomain cfg b = true := by
  unfold rangeInDomain
  rw [List.all_eq_true]
  constructor
  · intro h b h1 h2
    have := h (b - a).toNat (by rw [List.mem_range]; omega)
    rwa [show a + ((b - a).toNat : Int) = b by omega] at this
  · intro h k hk
    exact h _ (by omega) (by have := List.mem_range.mp hk; omega)

/-! ## The memory forms -/

/-- Everything a 28-pent load can do. -/
theorem loadPair_next {align : Nat} {dd : DIdx} {m : MemOperand} {s t : State} :
    loadPair align dd m s = .next t ↔
      s.CanAccess align (s.effAddr m) 28 ∧ (s.writeD dd (s.memRead (s.effAddr m) 28)).advance = .next t := by
  unfold loadPair
  cases h : s.accessCheck align (s.effAddr m) 28 with
  | none => exact ⟨fun he => ⟨accessCheck_none.mp h, he⟩, fun he => he.2⟩
  | some f =>
    have hn : ¬ s.CanAccess align (s.effAddr m) 28 := fun hc => by rw [accessCheck_none.mpr hc] at h; exact nomatch h
    simp only [hn, false_and, iff_false]
    exact fun he => nomatch he

/-- Everything a 28-pent store can do. -/
theorem storePair_next {align : Nat} {ds : DIdx} {m : MemOperand} {s t : State} :
    storePair align m ds s = .next t ↔
      s.CanAccess align (s.effAddr m) 28 ∧ (s.memWrite (s.effAddr m) 28 (s.readD ds)).advance = .next t := by
  unfold storePair
  cases h : s.accessCheck align (s.effAddr m) 28 with
  | none => exact ⟨fun he => ⟨accessCheck_none.mp h, he⟩, fun he => he.2⟩
  | some f =>
    have hn : ¬ s.CanAccess align (s.effAddr m) 28 := fun hc => by rw [accessCheck_none.mpr hc] at h; exact nomatch h
    simp only [hn, false_and, iff_false]
    exact fun he => nomatch he

/-- Everything a 56-pent load can do. -/
theorem loadQuad_next {align : Nat} {qd : QIdx} {m : MemOperand} {s t : State} :
    loadQuad align qd m s = .next t ↔
      s.CanAccess align (s.effAddr m) 56 ∧ (s.writeQ qd (s.memRead (s.effAddr m) 56)).advance = .next t := by
  unfold loadQuad
  cases h : s.accessCheck align (s.effAddr m) 56 with
  | none => exact ⟨fun he => ⟨accessCheck_none.mp h, he⟩, fun he => he.2⟩
  | some f =>
    have hn : ¬ s.CanAccess align (s.effAddr m) 56 := fun hc => by rw [accessCheck_none.mpr hc] at h; exact nomatch h
    simp only [hn, false_and, iff_false]
    exact fun he => nomatch he

/-- Everything a 56-pent store can do. -/
theorem storeQuad_next {align : Nat} {qs : QIdx} {m : MemOperand} {s t : State} :
    storeQuad align m qs s = .next t ↔
      s.CanAccess align (s.effAddr m) 56 ∧ (s.memWrite (s.effAddr m) 56 (s.readQ qs)).advance = .next t := by
  unfold storeQuad
  cases h : s.accessCheck align (s.effAddr m) 56 with
  | none => exact ⟨fun he => ⟨accessCheck_none.mp h, he⟩, fun he => he.2⟩
  | some f =>
    have hn : ¬ s.CanAccess align (s.effAddr m) 56 := fun hc => by rw [accessCheck_none.mpr hc] at h; exact nomatch h
    simp only [hn, false_and, iff_false]
    exact fun he => nomatch he

/-- R54, R55: a word written is the word read, in either pent order. -/
theorem memRead_memWrite (s : State) (a : Int) (n : Nat) (v : Int) : (s.memWrite a n v).memRead a n = bal n v := by
  unfold State.memRead State.memWrite
  have h := readPents_writePents s a (memoryOrder s.cfg.pentOrder (pents n v))
  rw [memoryOrder_length, pents_length] at h
  rw [h, writePents_cfg, memoryOrder_memoryOrder, valOf_pents]

/-- R60: a binary128 image written is the value read. -/
theorem memReadB128_memWriteB128 (s : State) (a : Int) {b : Int} (hb : IsB128 b) :
    (s.memWriteB128 a b).memReadB128 a = b := by
  obtain ⟨h1, -, h3⟩ := b128CodecOf_lawful s.cfg
  unfold State.memReadB128 State.memWriteB128
  have h := readPents_writePents s a ((b128CodecOf s.cfg).enc b)
  rw [h1 b hb] at h
  rw [writePents_cfg, h, h3 b hb]

/-- R60: a binary128 image read is a binary128 value. -/
theorem memReadB128_isB128 (s : State) (a : Int) : IsB128 (s.memReadB128 a) :=
  (b128CodecOf_lawful s.cfg).2.1 _ (readPents_length s _ _)

/-! ## The program text -/

theorem progAt_progSet (p : List (Int × Term)) (a : Int) (t : Term) : progAt (progSet p a t) a = some t := by
  induction p with
  | nil => simp [progSet, progAt]
  | cons e rest ih =>
    obtain ⟨b, u⟩ := e
    unfold progSet
    split_ifs with h1 h2
    · simp [progAt]
    · simp [progAt]
    · have hb : b ≠ a := fun h => h2 h.symm
      unfold progAt at ih ⊢
      rw [List.find?_cons_of_neg (by simp [hb])]
      exact ih

/-- R226: what the end address of an admitted program must satisfy. -/
theorem endAddressOk_iff (cfg : Config) (prog : List (Int × Term)) :
    endAddressOk cfg prog = true ↔ ∀ a, endAddress cfg prog = some a → Fits 14 a ∧ progAt prog a = none := by
  unfold endAddressOk
  cases endAddress cfg prog <;> simp [Fits]

/-- Everything a loader can do when it admits a program (R90, R202, R220, R226). -/
theorem load_next {cfg : Config} {prog : List (Int × Term)} {s : State} :
    load cfg prog = .next s ↔ failedCheck cfg prog = none ∧ s = State.resetWith cfg prog := by
  unfold load
  cases failedCheck cfg prog with
  | none => exact ⟨fun h => ⟨rfl, by injection h with h; exact h.symm⟩, fun h => by rw [h.2]⟩
  | some c => exact ⟨fun h => (nomatch h), fun h => (nomatch h.1)⟩

/-- The end address of an admitted program is in range and holds no instruction (R226). -/
theorem endAddress_of_admitted {cfg : Config} {prog : List (Int × Term)} (h : failedCheck cfg prog = none) {a : Int}
    (ha : endAddress cfg prog = some a) : Fits 14 a ∧ progAt prog a = none := by
  unfold failedCheck at h
  split at h
  · exact nomatch h
  · split at h
    · exact nomatch h
    · split at h
      · rename_i hok; exact (endAddressOk_iff cfg prog).mp hok a ha
      · exact nomatch h

/-- The instruction placed is the one the next step fetches (log entry 3). -/
theorem fetch_withFetchWord (s : State) (nbits w : Nat) :
    (s.withFetchWord nbits w).fetch = some (readTerm (textOfBytes (bytesOfNat nbits w))) :=
  progAt_progSet _ _ _

end Sys2Proof.Machine
end

