-- ==== Sys2Proof/Laws/PerInstr.lean ====
section
/-! SUPPORT. Statements made of every instruction, one lemma a constructor. The family `DecodeEncode`: the term the encoder
writes for a well-formed instruction decodes to that instruction (R81, R82, R84, R90). -/

namespace Sys2Proof.Laws

/-- Decoding the term of a well-formed instruction gives the instruction back. -/
def DecodeEncode.Statement (i : Instr) : Prop := i.wf = true → decode (encode i) = .ok i

theorem readIndex_of_fin {n : Nat} (c : Check) (k : Fin n) : readIndex n c k.val = .ok k := by
  simp [readIndex]

theorem readClassR_r (k : RIdx) : readClassR (.r k.val) = .ok k := readIndex_of_fin _ k

theorem readClassD_d (k : DIdx) : readClassD (.d k.val) = .ok k := readIndex_of_fin _ k

theorem readClassQ_q (k : QIdx) : readClassQ (.q k.val) = .ok k := readIndex_of_fin _ k

theorem readClassX_x (k : XIdx) : readClassX (.x k.val) = .ok k := readIndex_of_fin _ k

theorem readClassM_mem (m : MemOperand) : readClassM (.mem m.base.val m.offset) = .ok m := by
  simp [readClassM, readIndex_of_fin, Except.bind]

theorem readClassL_label (a : Int) : readClassL (.label a) = .ok a := rfl

/-- A term whose mnemonic stands in the table and whose operands its reader accepts as `i` decodes to `i` when `i` is well
formed. -/
theorem decode_of_row {t : Term} {i : Instr} {row : List Char × (List Operand → Except Check Instr)}
    (hf : instrTable.find? (fun row => row.1 == t.mnemonic) = some row) (hr : row.2 t.operands = .ok i)
    (hw : i.wf = true) : decode t = .ok i := by
  have hc : i.failedCheck = none := by simpa [Instr.wf] using hw
  simp only [decode, hf, hr, hc]

theorem DecodeEncode.add14 (rd rs1 rs2 : RIdx) : DecodeEncode.Statement (.add14 rd rs1 rs2) :=
  fun hw => decode_of_row rfl (by
    simp [encode, Instr.operands, readFormat3, readClassR_r, Except.bind]) hw

theorem DecodeEncode.sub14 (rd rs1 rs2 : RIdx) : DecodeEncode.Statement (.sub14 rd rs1 rs2) :=
  fun hw => decode_of_row rfl (by
    simp [encode, Instr.operands, readFormat3, readClassR_r, Except.bind]) hw

theorem DecodeEncode.mul14 (rd rs1 rs2 : RIdx) : DecodeEncode.Statement (.mul14 rd rs1 rs2) :=
  fun hw => decode_of_row rfl (by
    simp [encode, Instr.operands, readFormat3, readClassR_r, Except.bind]) hw

theorem DecodeEncode.div14 (rd rs1 rs2 : RIdx) : DecodeEncode.Statement (.div14 rd rs1 rs2) :=
  fun hw => decode_of_row rfl (by
    simp [encode, Instr.operands, readFormat3, readClassR_r, Except.bind]) hw

theorem DecodeEncode.extend14 (xd : XIdx) (rs : RIdx) : DecodeEncode.Statement (.extend14 xd rs) :=
  fun hw => decode_of_row rfl (by
    simp [encode, Instr.operands, readFormat2, readClassR_r, readClassX_x, Except.bind]) hw

theorem DecodeEncode.trunc16 (rd : RIdx) (xs : XIdx) : DecodeEncode.Statement (.trunc16 rd xs) :=
  fun hw => decode_of_row rfl (by
    simp [encode, Instr.operands, readFormat2, readClassR_r, readClassX_x, Except.bind]) hw

theorem DecodeEncode.add28 (dd ds1 ds2 : DIdx) : DecodeEncode.Statement (.add28 dd ds1 ds2) :=
  fun hw => decode_of_row rfl (by
    simp [encode, Instr.operands, readFormat3, readClassD_d, Except.bind]) hw

theorem DecodeEncode.sub28 (dd ds1 ds2 : DIdx) : DecodeEncode.Statement (.sub28 dd ds1 ds2) :=
  fun hw => decode_of_row rfl (by
    simp [encode, Instr.operands, readFormat3, readClassD_d, Except.bind]) hw

theorem DecodeEncode.mul28 (dd ds1 ds2 : DIdx) : DecodeEncode.Statement (.mul28 dd ds1 ds2) :=
  fun hw => decode_of_row rfl (by
    simp [encode, Instr.operands, readFormat3, readClassD_d, Except.bind]) hw

theorem DecodeEncode.div28 (dd ds1 ds2 : DIdx) : DecodeEncode.Statement (.div28 dd ds1 ds2) :=
  fun hw => decode_of_row rfl (by
    simp [encode, Instr.operands, readFormat3, readClassD_d, Except.bind]) hw

theorem DecodeEncode.neg28 (dd ds : DIdx) : DecodeEncode.Statement (.neg28 dd ds) :=
  fun hw => decode_of_row rfl (by
    simp [encode, Instr.operands, readFormat2, readClassD_d, Except.bind]) hw

theorem DecodeEncode.cmp28 (ds1 ds2 : DIdx) : DecodeEncode.Statement (.cmp28 ds1 ds2) :=
  fun hw => decode_of_row rfl (by
    simp [encode, Instr.operands, readFormat2, readClassD_d, Except.bind]) hw

theorem DecodeEncode.tst28 (ds : DIdx) : DecodeEncode.Statement (.tst28 ds) :=
  fun hw => decode_of_row rfl (by
    simp [encode, Instr.operands, readFormat1, readClassD_d, Except.bind]) hw

theorem DecodeEncode.load28 (dd : DIdx) (m : MemOperand) : DecodeEncode.Statement (.load28 dd m) :=
  fun hw => decode_of_row rfl (by
    simp [encode, Instr.operands, readFormat2, readClassD_d, readClassM_mem, Except.bind]) hw

theorem DecodeEncode.store28 (m : MemOperand) (ds : DIdx) : DecodeEncode.Statement (.store28 m ds) :=
  fun hw => decode_of_row rfl (by
    simp [encode, Instr.operands, readFormat2, readClassD_d, readClassM_mem, Except.bind]) hw

theorem DecodeEncode.split28 (rdHi rdLo : RIdx) (ds : DIdx) : DecodeEncode.Statement (.split28 rdHi rdLo ds) :=
  fun hw => decode_of_row rfl (by
    simp [encode, Instr.operands, readFormat3, readClassD_d, readClassR_r, Except.bind]) hw

theorem DecodeEncode.join28 (dd : DIdx) (rsHi rsLo : RIdx) : DecodeEncode.Statement (.join28 dd rsHi rsLo) :=
  fun hw => decode_of_row rfl (by
    simp [encode, Instr.operands, readFormat3, readClassD_d, readClassR_r, Except.bind]) hw

theorem DecodeEncode.macc28 (ds1 ds2 : DIdx) : DecodeEncode.Statement (.macc28 ds1 ds2) :=
  fun hw => decode_of_row rfl (by
    simp [encode, Instr.operands, readFormat2, readClassD_d, Except.bind]) hw

theorem DecodeEncode.msub28 (ds1 ds2 : DIdx) : DecodeEncode.Statement (.msub28 ds1 ds2) :=
  fun hw => decode_of_row rfl (by
    simp [encode, Instr.operands, readFormat2, readClassD_d, Except.bind]) hw

theorem DecodeEncode.getacc28Hi (dd : DIdx) : DecodeEncode.Statement (.getacc28Hi dd) :=
  fun hw => decode_of_row rfl (by
    simp [encode, Instr.operands, readFormat1, readClassD_d, Except.bind]) hw

theorem DecodeEncode.getacc28Lo (dd : DIdx) : DecodeEncode.Statement (.getacc28Lo dd) :=
  fun hw => decode_of_row rfl (by
    simp [encode, Instr.operands, readFormat1, readClassD_d, Except.bind]) hw

theorem DecodeEncode.clracc : DecodeEncode.Statement (.clracc) :=
  fun hw => decode_of_row rfl (rfl) hw

theorem DecodeEncode.add56 (qd qs1 qs2 : QIdx) : DecodeEncode.Statement (.add56 qd qs1 qs2) :=
  fun hw => decode_of_row rfl (by
    simp [encode, Instr.operands, readFormat3, readClassQ_q, Except.bind]) hw

theorem DecodeEncode.sub56 (qd qs1 qs2 : QIdx) : DecodeEncode.Statement (.sub56 qd qs1 qs2) :=
  fun hw => decode_of_row rfl (by
    simp [encode, Instr.operands, readFormat3, readClassQ_q, Except.bind]) hw

theorem DecodeEncode.mul56 (qd qs1 qs2 : QIdx) : DecodeEncode.Statement (.mul56 qd qs1 qs2) :=
  fun hw => decode_of_row rfl (by
    simp [encode, Instr.operands, readFormat3, readClassQ_q, Except.bind]) hw

theorem DecodeEncode.div56 (qd qs1 qs2 : QIdx) : DecodeEncode.Statement (.div56 qd qs1 qs2) :=
  fun hw => decode_of_row rfl (by
    simp [encode, Instr.operands, readFormat3, readClassQ_q, Except.bind]) hw

theorem DecodeEncode.neg56 (qd qs : QIdx) : DecodeEncode.Statement (.neg56 qd qs) :=
  fun hw => decode_of_row rfl (by
    simp [encode, Instr.operands, readFormat2, readClassQ_q, Except.bind]) hw

theorem DecodeEncode.b128ToP56 (qd : QIdx) (m : MemOperand) : DecodeEncode.Statement (.b128ToP56 qd m) :=
  fun hw => decode_of_row rfl (by
    simp [encode, Instr.operands, readFormat2, readClassM_mem, readClassQ_q, Except.bind]) hw

theorem DecodeEncode.p56ToB128 (m : MemOperand) (qs : QIdx) : DecodeEncode.Statement (.p56ToB128 m qs) :=
  fun hw => decode_of_row rfl (by
    simp [encode, Instr.operands, readFormat2, readClassM_mem, readClassQ_q, Except.bind]) hw

theorem DecodeEncode.p56ToB128Sat (m : MemOperand) (qs : QIdx) : DecodeEncode.Statement (.p56ToB128Sat m qs) :=
  fun hw => decode_of_row rfl (by
    simp [encode, Instr.operands, readFormat2, readClassM_mem, readClassQ_q, Except.bind]) hw

theorem DecodeEncode.cmp56 (qs1 qs2 : QIdx) : DecodeEncode.Statement (.cmp56 qs1 qs2) :=
  fun hw => decode_of_row rfl (by
    simp [encode, Instr.operands, readFormat2, readClassQ_q, Except.bind]) hw

theorem DecodeEncode.tst56 (qs : QIdx) : DecodeEncode.Statement (.tst56 qs) :=
  fun hw => decode_of_row rfl (by
    simp [encode, Instr.operands, readFormat1, readClassQ_q, Except.bind]) hw

theorem DecodeEncode.load56 (qd : QIdx) (m : MemOperand) : DecodeEncode.Statement (.load56 qd m) :=
  fun hw => decode_of_row rfl (by
    simp [encode, Instr.operands, readFormat2, readClassM_mem, readClassQ_q, Except.bind]) hw

theorem DecodeEncode.store56 (m : MemOperand) (qs : QIdx) : DecodeEncode.Statement (.store56 m qs) :=
  fun hw => decode_of_row rfl (by
    simp [encode, Instr.operands, readFormat2, readClassM_mem, readClassQ_q, Except.bind]) hw

theorem DecodeEncode.macc56 (qs1 qs2 : QIdx) : DecodeEncode.Statement (.macc56 qs1 qs2) :=
  fun hw => decode_of_row rfl (by
    simp [encode, Instr.operands, readFormat2, readClassQ_q, Except.bind]) hw

theorem DecodeEncode.msub56 (qs1 qs2 : QIdx) : DecodeEncode.Statement (.msub56 qs1 qs2) :=
  fun hw => decode_of_row rfl (by
    simp [encode, Instr.operands, readFormat2, readClassQ_q, Except.bind]) hw

theorem DecodeEncode.getacc56Hi (qd : QIdx) : DecodeEncode.Statement (.getacc56Hi qd) :=
  fun hw => decode_of_row rfl (by
    simp [encode, Instr.operands, readFormat1, readClassQ_q, Except.bind]) hw

theorem DecodeEncode.getacc56Lo (qd : QIdx) : DecodeEncode.Statement (.getacc56Lo qd) :=
  fun hw => decode_of_row rfl (by
    simp [encode, Instr.operands, readFormat1, readClassQ_q, Except.bind]) hw

theorem DecodeEncode.clracc112 : DecodeEncode.Statement (.clracc112) :=
  fun hw => decode_of_row rfl (rfl) hw

theorem DecodeEncode.addMix (dd : DIdx) (xs : XIdx) (rt : RIdx) : DecodeEncode.Statement (.addMix dd xs rt) :=
  fun hw => decode_of_row rfl (by
    simp [encode, Instr.operands, readFormat3, readClassD_d, readClassR_r, readClassX_x, Except.bind]) hw

theorem DecodeEncode.adds14 (rd rs1 rs2 : RIdx) : DecodeEncode.Statement (.adds14 rd rs1 rs2) :=
  fun hw => decode_of_row rfl (by
    simp [encode, Instr.operands, readFormat3, readClassR_r, Except.bind]) hw

theorem DecodeEncode.adds28 (dd ds1 ds2 : DIdx) : DecodeEncode.Statement (.adds28 dd ds1 ds2) :=
  fun hw => decode_of_row rfl (by
    simp [encode, Instr.operands, readFormat3, readClassD_d, Except.bind]) hw

theorem DecodeEncode.sext14To28 (dd : DIdx) (rs : RIdx) : DecodeEncode.Statement (.sext14To28 dd rs) :=
  fun hw => decode_of_row rfl (by
    simp [encode, Instr.operands, readFormat2, readClassD_d, readClassR_r, Except.bind]) hw

theorem DecodeEncode.sext14To56 (qd : QIdx) (rs : RIdx) : DecodeEncode.Statement (.sext14To56 qd rs) :=
  fun hw => decode_of_row rfl (by
    simp [encode, Instr.operands, readFormat2, readClassQ_q, readClassR_r, Except.bind]) hw

theorem DecodeEncode.sext28To56 (qd : QIdx) (ds : DIdx) : DecodeEncode.Statement (.sext28To56 qd ds) :=
  fun hw => decode_of_row rfl (by
    simp [encode, Instr.operands, readFormat2, readClassD_d, readClassQ_q, Except.bind]) hw

theorem DecodeEncode.trunc28To14 (rd : RIdx) (ds : DIdx) : DecodeEncode.Statement (.trunc28To14 rd ds) :=
  fun hw => decode_of_row rfl (by
    simp [encode, Instr.operands, readFormat2, readClassD_d, readClassR_r, Except.bind]) hw

theorem DecodeEncode.trunc56To28 (dd : DIdx) (qs : QIdx) : DecodeEncode.Statement (.trunc56To28 dd qs) :=
  fun hw => decode_of_row rfl (by
    simp [encode, Instr.operands, readFormat2, readClassD_d, readClassQ_q, Except.bind]) hw

theorem DecodeEncode.trunc56To14 (rd : RIdx) (qs : QIdx) : DecodeEncode.Statement (.trunc56To14 rd qs) :=
  fun hw => decode_of_row rfl (by
    simp [encode, Instr.operands, readFormat2, readClassQ_q, readClassR_r, Except.bind]) hw

theorem DecodeEncode.p56TruncB128 (qd qs : QIdx) : DecodeEncode.Statement (.p56TruncB128 qd qs) :=
  fun hw => decode_of_row rfl (by
    simp [encode, Instr.operands, readFormat2, readClassQ_q, Except.bind]) hw

theorem DecodeEncode.p28TruncB64 (dd ds : DIdx) : DecodeEncode.Statement (.p28TruncB64 dd ds) :=
  fun hw => decode_of_row rfl (by
    simp [encode, Instr.operands, readFormat2, readClassD_d, Except.bind]) hw

theorem DecodeEncode.p14TruncB32 (rd rs : RIdx) : DecodeEncode.Statement (.p14TruncB32 rd rs) :=
  fun hw => decode_of_row rfl (by
    simp [encode, Instr.operands, readFormat2, readClassR_r, Except.bind]) hw

theorem DecodeEncode.add28c (dd ds1 ds2 : DIdx) : DecodeEncode.Statement (.add28c dd ds1 ds2) :=
  fun hw => decode_of_row rfl (by
    simp [encode, Instr.operands, readFormat3, readClassD_d, Except.bind]) hw

theorem DecodeEncode.addc28 (dd ds1 ds2 : DIdx) : DecodeEncode.Statement (.addc28 dd ds1 ds2) :=
  fun hw => decode_of_row rfl (by
    simp [encode, Instr.operands, readFormat3, readClassD_d, Except.bind]) hw

theorem DecodeEncode.ovfchk14 (rd rs1 rs2 : RIdx) : DecodeEncode.Statement (.ovfchk14 rd rs1 rs2) :=
  fun hw => decode_of_row rfl (by
    simp [encode, Instr.operands, readFormat3, readClassR_r, Except.bind]) hw

theorem DecodeEncode.ovfchk28 (dd ds1 ds2 : DIdx) : DecodeEncode.Statement (.ovfchk28 dd ds1 ds2) :=
  fun hw => decode_of_row rfl (by
    simp [encode, Instr.operands, readFormat3, readClassD_d, Except.bind]) hw

theorem DecodeEncode.loadu28 (dd : DIdx) (m : MemOperand) : DecodeEncode.Statement (.loadu28 dd m) :=
  fun hw => decode_of_row rfl (by
    simp [encode, Instr.operands, readFormat2, readClassD_d, readClassM_mem, Except.bind]) hw

theorem DecodeEncode.storeu28 (m : MemOperand) (ds : DIdx) : DecodeEncode.Statement (.storeu28 m ds) :=
  fun hw => decode_of_row rfl (by
    simp [encode, Instr.operands, readFormat2, readClassD_d, readClassM_mem, Except.bind]) hw

theorem DecodeEncode.loadu56 (qd : QIdx) (m : MemOperand) : DecodeEncode.Statement (.loadu56 qd m) :=
  fun hw => decode_of_row rfl (by
    simp [encode, Instr.operands, readFormat2, readClassM_mem, readClassQ_q, Except.bind]) hw

theorem DecodeEncode.storeu56 (m : MemOperand) (qs : QIdx) : DecodeEncode.Statement (.storeu56 m qs) :=
  fun hw => decode_of_row rfl (by
    simp [encode, Instr.operands, readFormat2, readClassM_mem, readClassQ_q, Except.bind]) hw

theorem DecodeEncode.bvs (target : Int) : DecodeEncode.Statement (.bvs target) :=
  fun hw => decode_of_row rfl (by
    simp [encode, Instr.operands, readFormat1, readClassL_label, Except.bind]) hw

end Sys2Proof.Laws
end

