-- ==== Sys2Proof/Tests/Slice0.lean ====
section
/-! SUPPORT. Tests. The expected values are those of 95_test_vectors.md (section numbers in the comments) or worked out by hand
from the rules; none is the model's own answer. After them, for each obligation with hypotheses, a witness: a concrete state
and operands that meet all of them, one for each clause, at the ends of the clauses' ranges. -/

namespace Sys2Proof.Tests
open Sys2Proof.Machine

-- One theorem after the other: many at once need more threads than the checker's memory limit gives stacks for.
set_option Elab.async false

/-! ## Helpers -/

/-- Whether the answer is a next state that passes a check. -/
def next (r : Result) (p : State → Bool) : Bool :=
  match r with
  | .next t => p t
  | _ => false

/-- Whether the answer is a certain fault. -/
def faults (r : Result) (f : Fault) : Bool :=
  match r with
  | .fault g => decide (g = f)
  | _ => false

/-- Whether the answer is the refusal with a certain check. -/
def refuses (r : Result) (c : Check) : Bool :=
  match r with
  | .refused q => decide (q = .notAdmitted c)
  | _ => false

/-- The next state, where there is one. -/
def nextOf (r : Result) : State :=
  match r with
  | .next t => t
  | _ => State.reset

theorem eq_next_of (r : Result) (h : next r (fun _ => true) = true) : r = .next (nextOf r) := by
  cases r with
  | next t => rfl
  | fault f => exact nomatch h
  | refused q => exact nomatch h

/-- What a line of assembler reads as. -/
def reads (line : String) (i : Instr) : Bool :=
  match decodeText line.toList with
  | .ok j => decide (j = i)
  | .error _ => false

/-- The check a line of assembler fails. -/
def fails (line : String) (c : Check) : Bool :=
  match decodeText line.toList with
  | .ok _ => false
  | .error d => decide (d = c)

/-- The state after reset, `MemDomain` 0..511. -/
def s0 : State := State.reset

/-! ## The number system (section 2.0, R9) -/

theorem test_powers : radixPow 14 = 6103515625 ∧ radixPow 28 = 37252902984619140625 ∧ maxMag 14 = 3051757812 ∧
    maxMag 16 = 76293945312 ∧ maxMag 28 = 18626451492309570312 ∧
    maxMag 56 = 693889390390722837764769792556762695312 := by decide +kernel

theorem test_pents : pents 2 8 = [.n2, .p2] ∧ pents 3 38 = [.n2, .n2, .p2] ∧ pents 4 100 = [.zero, .zero, .n1, .p1] ∧
    pents 14 (-12345) = [.zero, .p1, .p1, .p1, .zero, .p1, .n1, .zero, .zero, .zero, .zero, .zero, .zero, .zero] := by
  decide +kernel

theorem test_bal_carry : bal 1 3 = -2 ∧ carry 1 3 = 1 ∧ bal 1 (-3) = 2 ∧ carry 1 (-3) = -1 ∧ bal 2 13 = -12 ∧
    bal 28 (2 * maxMag 28 + 1) = 0 ∧ carry 28 (2 * maxMag 28 + 1) = 1 ∧ carry 28 (-2 * maxMag 28 - 1) = -1 := by
  decide +kernel

theorem test_lo_hi : lo 14 18310546868 = -7 ∧ hi 14 18310546868 = 3 ∧ lo 14 (maxMag 14 + 1) = -maxMag 14 ∧
    lo 28 (10 ^ 20) = -11758708953857421875 ∧ hi 28 (10 ^ 20) = 3 ∧ clamp 14 (-radixPow 14) = -maxMag 14 := by
  decide +kernel

/-! ## Decoding: a written-out term for every constructor (30_encoding.md R81, R84, R88, R89) -/

theorem test_decode_p14 :
    (reads "ADD14 R3, R1, R2" (.add14 3 1 2) && reads "SUB14 R31, R0, R2" (.sub14 31 0 2) &&
      reads "MUL14 R3, R1, R2" (.mul14 3 1 2) && reads "DIV14 R3, R1, R0" (.div14 3 1 0) &&
      reads "EXTEND14 X5, R4" (.extend14 5 4) && reads "TRUNC16 R6, X5" (.trunc16 6 5)) = true := by decide +kernel

theorem test_decode_p28 :
    (reads "ADD28 D3, D1, D2" (.add28 3 1 2) && reads "SUB28 D3, D1, D2" (.sub28 3 1 2) &&
      reads "MUL28 D3, D1, D2" (.mul28 3 1 2) && reads "DIV28 D15, D1, D0" (.div28 15 1 0) &&
      reads "NEG28 D3, D2" (.neg28 3 2) && reads "CMP28 D1, D2" (.cmp28 1 2) && reads "TST28 D2" (.tst28 2) &&
      reads "LOAD28 D4, [R8+32]" (.load28 4 ⟨8, 32⟩) && reads "STORE28 [R8-32], D3" (.store28 ⟨8, -32⟩ 3) &&
      reads "SPLIT28 R10, R11, D2" (.split28 10 11 2) && reads "JOIN28 D4, R10, R11" (.join28 4 10 11)) = true := by
  decide +kernel

theorem test_decode_acc56 :
    (reads "MACC28 D1, D2" (.macc28 1 2) && reads "MSUB28 D3, D4" (.msub28 3 4) &&
      reads "GETACC28_HI D5" (.getacc28Hi 5) && reads "GETACC28_LO D6" (.getacc28Lo 6) && reads "CLRACC" .clracc) = true := by
  decide +kernel

theorem test_decode_p56 :
    (reads "ADD56 Q3, Q1, Q2" (.add56 3 1 2) && reads "SUB56 Q3, Q1, Q2" (.sub56 3 1 2) &&
      reads "MUL56 Q3, Q1, Q2" (.mul56 3 1 2) && reads "DIV56 Q7, Q1, Q2" (.div56 7 1 2) &&
      reads "NEG56 Q3, Q1" (.neg56 3 1) && reads "B128_TO_P56 Q2, [256]" (.b128ToP56 2 ⟨0, 256⟩) &&
      reads "P56_TO_B128 [R9], Q1" (.p56ToB128 ⟨9, 0⟩ 1) && reads "P56_TO_B128_SAT [R0+256], Q1" (.p56ToB128Sat ⟨0, 256⟩ 1) &&
      reads "CMP56 Q1, Q2" (.cmp56 1 2) && reads "TST56 Q1" (.tst56 1) &&
      reads "LOAD56 Q1, [R0+128]" (.load56 1 ⟨0, 128⟩) && reads "STORE56 [R0+192], Q1" (.store56 ⟨0, 192⟩ 1)) = true := by
  decide +kernel

theorem test_decode_acc112 :
    (reads "MACC56 Q1, Q2" (.macc56 1 2) && reads "MSUB56 Q3, Q4" (.msub56 3 4) &&
      reads "GETACC56_HI Q3" (.getacc56Hi 3) && reads "GETACC56_LO Q4" (.getacc56Lo 4) &&
      reads "CLRACC112" .clracc112) = true := by decide +kernel

theorem test_decode_mixed :
    (reads "ADD_MIX D6, X5, R4" (.addMix 6 5 4) && reads "ADDS14 R3, R1, R2" (.adds14 3 1 2) &&
      reads "ADDS28 D3, D1, D2" (.adds28 3 1 2) && reads "SEXT14_28 D3, R4" (.sext14To28 3 4) &&
      reads "SEXT14_56 Q2, R4" (.sext14To56 2 4) && reads "SEXT28_56 Q1, D3" (.sext28To56 1 3) &&
      reads "TRUNC28_14 R9, D2" (.trunc28To14 9 2) && reads "TRUNC56_28 D5, Q1" (.trunc56To28 5 1) &&
      reads "TRUNC56_14 R9, Q1" (.trunc56To14 9 1) && reads "P56_TRUNC_B128 Q3, Q1" (.p56TruncB128 3 1) &&
      reads "P28_TRUNC_B64 D3, D1" (.p28TruncB64 3 1) && reads "P14_TRUNC_B32 R3, R1" (.p14TruncB32 3 1)) = true := by
  decide +kernel

theorem test_decode_carry_unaligned_branch :
    (reads "ADD28C  D0, D2, D4      ; D0 = D2 + D4, Carry flag set if overflow" (.add28c 0 2 4) &&
      reads "ADDC28 D7, D3, D5" (.addc28 7 3 5) && reads "OVFCHK14 R9, R1, R2" (.ovfchk14 9 1 2) &&
      reads "OVFCHK28 D9, D1, D2" (.ovfchk28 9 1 2) && reads "LOADU28 D4, [R0+156]" (.loadu28 4 ⟨0, 156⟩) &&
      reads "STOREU28 [R0+5], D3" (.storeu28 ⟨0, 5⟩ 3) && reads "LOADU56 Q2, [R0+28]" (.loadu56 2 ⟨0, 28⟩) &&
      reads "STOREU56 [R0+7], Q1" (.storeu56 ⟨0, 7⟩ 1) && reads "BVS 40" (.bvs 40)) = true := by decide +kernel

/-- The characters of `CLRACC`, `TST28 D2` and `BVS 7` as bytes, the first lowest (log entry 1). -/
theorem test_decodeTableWord : decodeTableWord 48 0x43434152_4C43 = some .clracc ∧
    decodeTableWord 64 0x3244_203832_545354 = some (.tst28 2) ∧ decodeTableWord 40 0x37_20_53_56_42 = some (.bvs 7) ∧
    decodeTableWord 0 0 = none ∧ decodeTableWord 16 0x0000 = none := by decide +kernel

/-- Log entries 23 and 24: capitals alone, and the first of two declarations. -/
theorem test_case_and_duplicates :
    (fails "add14 R3, R1, R2" .mnemonicKnown && fails "ADD14 r3, R1, R2" .operandCount) = true ∧
    assemble 1 0 ["x: BVS x".toList, "x: BVS X".toList] =
      [(0, ⟨"BVS".toList, [.label 0]⟩), (1, ⟨"BVS".toList, [.name "X".toList]⟩)] := by decide +kernel

/-- Log entry 26: text before the colon that is no name is dropped as a declaration is, and no operand can name it. -/
theorem test_malformed_declaration :
    (reads "1x: CLRACC" .clracc && reads ": CLRACC" .clracc && fails "BVS 1x" .operandCount) = true := by decide +kernel

/-- Log entries 27 and 28: one text is one line, and a label after the last instruction is the address past it. -/
theorem test_line_feed_and_last_label :
    (reads "ADD14 R3,\nR1, R2" (.add14 3 1 2) && reads "CLRACC ; a\nBVS 7" .clracc) = true ∧
    assemble 4 100 ["BVS out".toList, "CLRACC".toList, "out:".toList] =
      [(100, ⟨"BVS".toList, [.label 108]⟩), (104, ⟨"CLRACC".toList, []⟩)] := by decide +kernel

/-- A label's name stands for the address of its instruction, as in program P3 (section 3.3). -/
theorem test_assemble_label :
    assemble 4 100 ["BVS over".toList, "CLRACC ; nothing".toList, "over: CLRACC112".toList] =
      [(100, ⟨"BVS".toList, [.label 108]⟩), (104, ⟨"CLRACC".toList, []⟩), (108, ⟨"CLRACC112".toList, []⟩)] := by
  decide +kernel

/-- The word placed where the next step fetches is the one it runs. -/
theorem test_withFetchWord :
    next (step ((s0.writeAcc56 5).withFetchWord 48 0x43434152_4C43)) (fun t => t.acc56.val == 0 && t.pc.val == 1) = true := by
  decide +kernel

/-! ## Ill-formed terms, one for each check (section 2.12) -/

theorem test_refused_terms :
    (fails "LOAD14 R1, [R0+0]" .mnemonicKnown && fails "NOP" .mnemonicKnown && fails "ADD14 R1, R2" .operandCount &&
      fails "ADD28 R3, R1, R2" .operandCount && fails "LOAD28 D1, [D2+0]" .operandCount && fails "ADD14 R32, R0, R0" .rIndex &&
      fails "ADD28 D16, D0, D0" .dIndex && fails "ADD56 Q8, Q0, Q0" .qIndex && fails "EXTEND14 X0, R4" .xIndex &&
      fails "TRUNC16 R1, X32" .xIndex && fails "SPLIT28 R5, R5, D1" .splitDests &&
      fails "BVS nowhere" .labelDefined) = true := by decide +kernel

theorem test_split_into_R0_admitted : reads "SPLIT28 R0, R0, D1" (.split28 0 0 1) = true := by decide +kernel

theorem test_wf_xIndex : (Instr.extend14 0 4).failedCheck = some .xIndex ∧ (Instr.extend14 1 4).wf = true := by decide

theorem test_wf_splitDests : (Instr.split28 5 5 1).failedCheck = some .splitDests ∧ (Instr.split28 0 0 1).wf = true := by
  decide

/-- `label_defined` and `placement` are checks of a whole program (R90). -/
theorem test_wf_program :
    Program.failedCheck [(0, .bvs 2), (1, .clracc)] 1 (some 2) = none ∧
    Program.failedCheck [(0, .bvs 3), (1, .clracc)] 1 (some 2) = some .labelDefined ∧
    Program.failedCheck [(0, .clracc), (2, .clracc)] 1 (some 3) = some .placement ∧
    Program.failedCheck [(maxMag 14, .clracc), (maxMag 14 + 1, .clracc)] 1 none = some .placement := by decide +kernel

/-- `EndPC` given as an address must not be an instruction's (R226). -/
theorem test_wf_endAddress :
    failedCheck { Config.default with endPC := .at 0 } [(0, ⟨"CLRACC".toList, []⟩)] = some .endAddress ∧
    failedCheck { Config.default with endPC := .at 1 } [(0, ⟨"CLRACC".toList, []⟩)] = none := by decide +kernel

/-- `EndPC` by default lies in [-M_14, M_14] too (R226): M_14 is the last address it may have. -/
theorem test_wf_default_endAddress :
    failedCheck Config.default [(maxMag 14, ⟨"BVS".toList, [.label (maxMag 14 + 1)]⟩)] = some .endAddress ∧
    failedCheck Config.default [(maxMag 14 - 1, ⟨"BVS".toList, [.label (maxMag 14)]⟩)] = none := by decide +kernel

/-- `MemDomain` without a bound: the whole line as two half lines (R51); `InitMem` 2 everywhere but at one address (R39). -/
theorem test_unbounded_memory :
    let s := State.resetWith
      { Config.default with memDomain := [.upFrom 0, .downFrom (-1)], initMem := ⟨[(-100, .n1)], .all .p2⟩ } []
    (next (exec (.loadu28 4 ⟨0, 10 ^ 30⟩) s) (fun t => t.readD 4 == maxMag 28) &&
      next (exec (.loadu28 4 ⟨0, -100⟩) s) (fun t => t.readD 4 == maxMag 28 - 3)) = true := by decide +kernel

/-! ## One step of each instruction -/

-- Sections 1.4 and 2.1.
theorem test_views : ((s0.writeR 4 5).writeR 5 (-1)).readD 2 = -6103515620 ∧
    (((s0.writeR 1 9).writeR 2 1).writeR 3 0).readQ 0 = 37252903039550781250 ∧
    ((s0.writeD 0 18310546868).readR 1 = 3 ∧ (s0.writeD 0 18310546868).readR 0 = 0) := by decide +kernel

theorem test_view_quad : (s0.writeQ 1 (2 ^ 127)).readR 7 = 748288838 ∧ (s0.writeQ 1 (2 ^ 127)).readR 6 = 1912977869 ∧
    (s0.writeQ 1 (2 ^ 127)).readR 5 = 2359100966 ∧ (s0.writeQ 1 (2 ^ 127)).readR 4 = -1156909897 := by decide +kernel

theorem test_add14_wraps : next (exec (.add14 3 1 2) ((s0.writeR 1 (maxMag 14)).writeR 2 1))
    (fun t => t.readR 3 == -maxMag 14 && t.flagC == .zero && t.flagV == false) = true := by decide +kernel

theorem test_add14_R0 : next (exec (.add14 0 1 2) ((s0.writeR 1 5).writeR 2 7)) (fun t => t.readR 0 == 0) = true := by
  decide +kernel

theorem test_sub14_order : next (exec (.sub14 3 1 2) ((s0.writeR 1 5).writeR 2 7)) (fun t => t.readR 3 == -2) = true := by
  decide +kernel

theorem test_mul14 : next (exec (.mul14 3 1 2) ((s0.writeR 1 100000).writeR 2 100000))
    (fun t => t.readR 3 == -2207031250 && t.acc28.val == 10000000000) = true := by decide +kernel

theorem test_mul14_replaces : next (exec (.mul14 3 1 2) (((s0.writeR 1 3).writeR 2 4).writeAcc28 999))
    (fun t => t.acc28.val == 12) = true := by decide +kernel

theorem test_div14_sign : next (exec (.div14 3 1 2) ((s0.writeR 1 (-7)).writeR 2 2)) (fun t => t.readR 3 == -3) = true := by
  decide +kernel

theorem test_div14_zero : faults (exec (.div14 3 1 0) (s0.writeR 1 7)) (.divideByZero 0) = true := by decide +kernel

theorem test_extend14 : next (exec (.extend14 5 4) ((s0.writeR 4 (-7)).writeX 5 (maxMag 16)))
    (fun t => t.readX 5 == -7) = true := by decide +kernel

theorem test_trunc16 : next (exec (.trunc16 6 5) (s0.writeX 5 6103515628))
    (fun t => t.readR 6 == 3 && t.flagV == false) = true := by decide +kernel

-- Section 2.2.
theorem test_add28_D0 : next (exec (.add28 0 1 2) ((s0.writeD 1 6103515628).writeD 2 4))
    (fun t => t.readD 0 == 6103515625 && t.readR 1 == 1) = true := by decide +kernel

theorem test_add28_wraps : next (exec (.add28 3 1 2) ((s0.writeD 1 (maxMag 28)).writeD 2 1))
    (fun t => t.readR 7 == -maxMag 14 && t.readR 6 == -maxMag 14 && t.flagC == .zero) = true := by decide +kernel

theorem test_sub28 : next (exec (.sub28 3 1 2) ((s0.writeD 1 10).writeD 2 25))
    (fun t => t.readR 7 == 0 && t.readR 6 == -15) = true := by decide +kernel

theorem test_mul28 : next (exec (.mul28 3 1 2) ((s0.writeD 1 (10 ^ 15)).writeD 2 (-3 * 10 ^ 12)))
    (fun t => t.readD 3 == 7450580596923828125 && t.acc56.val == -3 * 10 ^ 27) = true := by decide +kernel

theorem test_div28 : next (exec (.div28 3 1 2) ((s0.writeD 1 (10 ^ 18)).writeD 2 (-7)))
    (fun t => t.readD 3 == -142857142857142857) = true := by decide +kernel

theorem test_div28_zero : faults (exec (.div28 3 1 0) (s0.writeD 1 5)) (.divideByZero 0) = true := by decide +kernel

theorem test_neg28 : next (exec (.neg28 3 2) (s0.writeD 2 3051757813))
    (fun t => t.readR 7 == -1 && t.readR 6 == maxMag 14) = true := by decide +kernel

theorem test_cmp28_exact : next (exec (.cmp28 1 2) ((s0.writeD 1 (-maxMag 28)).writeD 2 (maxMag 28)))
    (fun t => t.flagCC == .neg) = true := by decide +kernel

theorem test_tst28_D0 : next (exec (.tst28 0) (s0.writeR 1 1)) (fun t => t.flagCC == .pos) = true := by decide +kernel

theorem test_load28_base_in_destination :
    next (exec (.load28 4 ⟨8, 32⟩) ((s0.writeR 8 64).memWrite 96 28 (maxMag 28)))
      (fun t => t.readR 8 == maxMag 14 && t.readR 9 == maxMag 14) = true := by decide +kernel

theorem test_load28_misaligned : faults (exec (.load28 3 ⟨8, 1⟩) (s0.writeR 8 64)) (.misaligned 0 65) = true := by
  decide +kernel

theorem test_store28 : next (exec (.store28 ⟨8, 32⟩ 3) ((s0.writeR 8 64).writeD 3 13))
    (fun t => t.readPents 5 95 == [.zero, .n2, .n2, .p1, .zero] && t.memRead 96 28 == 13) = true := by decide +kernel

theorem test_store28_end : next (exec (.store28 ⟨0, 480⟩ 3) (s0.writeD 3 (-1)))
    (fun t => t.mem == [(480, .n1)]) = true := by decide +kernel

theorem test_split28 : next (exec (.split28 10 11 2) (s0.writeD 2 3051757813))
    (fun t => t.readR 10 == 1 && t.readR 11 == -maxMag 14) = true := by decide +kernel

theorem test_split28_same : refuses (exec (.split28 5 5 1) s0) .splitDests = true := by decide +kernel

theorem test_join28_swap : next (exec (.join28 2 4 5) ((s0.writeR 4 11).writeR 5 22))
    (fun t => t.readR 4 == 22 && t.readR 5 == 11) = true := by decide +kernel

-- Section 2.3.
theorem test_macc28 : next (exec (.macc28 3 4) (((s0.writeAcc56 (10 ^ 20)).writeD 3 (-4000000000)).writeD 4 5000000000))
    (fun t => t.acc56.val == 80000000000000000000) = true := by decide +kernel

theorem test_msub28_wraps : next (exec (.msub28 1 2) (((s0.writeAcc56 (-maxMag 56)).writeD 1 1).writeD 2 1))
    (fun t => t.acc56.val == maxMag 56) = true := by decide +kernel

theorem test_getacc28_hi : next (exec (.getacc28Hi 5) (s0.writeAcc56 (10 ^ 20)))
    (fun t => t.readD 5 == 3 && t.acc56.val == 10 ^ 20) = true := by decide +kernel

theorem test_getacc28_lo : next (exec (.getacc28Lo 6) (s0.writeAcc56 (10 ^ 20)))
    (fun t => t.readD 6 == -11758708953857421875) = true := by decide +kernel

theorem test_clracc : next (exec .clracc (((s0.writeAcc56 (10 ^ 20)).writeAcc28 5).writeAcc112 7))
    (fun t => t.acc56.val == 0 && t.acc28.val == 5 && t.acc112.val == 7) = true := by decide +kernel

-- Section 2.4.
theorem test_add56_wraps : next (exec (.add56 3 1 2) ((s0.writeQ 1 (maxMag 56)).writeQ 2 1))
    (fun t => t.readQ 3 == -maxMag 56) = true := by decide +kernel

theorem test_add56_Q0 : next (exec (.add56 0 1 2) ((s0.writeQ 1 6103515634).writeQ 2 1))
    (fun t => t.readQ 0 == 6103515625 && t.readR 1 == 1) = true := by decide +kernel

theorem test_sub56 : next (exec (.sub56 3 1 2) ((s0.writeQ 1 1).writeQ 2 2)) (fun t => t.readQ 3 == -1) = true := by
  decide +kernel

theorem test_mul56 : next (exec (.mul56 3 1 2) ((s0.writeQ 1 (2 ^ 100)).writeQ 2 (-(2 ^ 90))))
    (fun t => t.readQ 3 == 92550411118958106169177660337848793651 && t.acc112.val == -(2 ^ 190)) = true := by
  decide +kernel

theorem test_div56 : next (exec (.div56 3 1 2) ((s0.writeQ 1 (2 ^ 127)).writeQ 2 2)) (fun t => t.readQ 3 == 2 ^ 126) = true := by
  decide +kernel

theorem test_div56_zero : faults (exec (.div56 3 1 2) (s0.writeQ 1 9)) (.divideByZero 0) = true := by decide +kernel

theorem test_neg56 : next (exec (.neg56 3 1) (s0.writeQ 1 (-maxMag 56))) (fun t => t.readQ 3 == maxMag 56) = true := by
  decide +kernel

theorem test_cmp56 : next (exec (.cmp56 1 2) ((s0.writeQ 1 (-maxMag 56)).writeQ 2 (maxMag 56)))
    (fun t => t.flagCC == .neg) = true := by decide +kernel

theorem test_tst56_top : next (exec (.tst56 1) (s0.writeQ 1 227373675443232059478759765625))
    (fun t => t.flagCC == .pos && t.readR 7 == 1) = true := by decide +kernel

theorem test_load56 : next (exec (.load56 1 ⟨0, 128⟩) (s0.memWrite 128 56 (2 ^ 127)))
    (fun t => t.readD 2 == 14398809605776683853 && t.readD 3 == 4567192616659071619) = true := by decide +kernel

theorem test_load56_misaligned : faults (exec (.load56 1 ⟨0, 32⟩) s0) (.misaligned 0 32) = true := by decide +kernel

theorem test_store56 : next (exec (.store56 ⟨0, 192⟩ 1) (s0.writeQ 1 37252902984619140627))
    (fun t => t.mem == [(192, .p2), (220, .p1)]) = true := by decide +kernel

-- Section 2.5; the images themselves are free values, so only what the rules fix is tested.
theorem test_p56ToB128_overflow : next (exec (.p56ToB128 ⟨0, 256⟩ 1) (s0.writeQ 1 (-(2 ^ 127))))
    (fun t => t.flagV == true && t.flagS == false && t.draws == 1) = true := by decide +kernel

theorem test_p56ToB128_access : faults (exec (.p56ToB128 ⟨0, 500⟩ 1) (s0.writeQ 1 5)) (.accessFault 0 500) = true := by
  decide +kernel

theorem test_clampB128 : clampB128 (maxMag 56) = 2 ^ 127 - 1 ∧ clampB128 (-(2 ^ 127)) = -(2 ^ 127 - 1) ∧ clampB128 5 = 5 := by
  decide +kernel

theorem test_b128ToP56_access : faults (exec (.b128ToP56 2 ⟨0, 457⟩) s0) (.accessFault 0 457) = true := by decide +kernel

theorem test_p56ToB128Sat_access : faults (exec (.p56ToB128Sat ⟨0, -1⟩ 2) s0) (.accessFault 0 (-1)) = true := by
  decide +kernel

-- Section 2.6.
theorem test_macc56 : next (exec (.macc56 1 2) ((s0.writeQ 1 (2 ^ 100)).writeQ 2 3))
    (fun t => t.acc112.val == 3802951800684688204490109616128) = true := by decide +kernel

theorem test_macc56_wraps : next (exec (.macc56 1 2) (((s0.writeAcc112 (maxMag 112)).writeQ 1 1).writeQ 2 1))
    (fun t => t.acc112.val == -maxMag 112) = true := by decide +kernel

theorem test_msub56 :
    next (exec (.msub56 1 2) (((s0.writeAcc112 3802951800684688204490109616128).writeQ 1 (2 ^ 100)).writeQ 2 1))
      (fun t => t.acc112.val == 2 ^ 101) = true := by decide +kernel

theorem test_getacc56_hi : next (exec (.getacc56Hi 3) (s0.writeAcc112 (-(2 ^ 190))))
    (fun t => t.readQ 3 == -1130782121458165971) = true := by decide +kernel

theorem test_getacc56_lo : next (exec (.getacc56Lo 3) (s0.writeAcc112 (maxMag 56 + 1)))
    (fun t => t.readQ 3 == -maxMag 56) = true := by decide +kernel

theorem test_clracc112 : next (exec .clracc112 ((s0.writeAcc112 (2 ^ 101)).writeAcc56 4))
    (fun t => t.acc112.val == 0 && t.acc56.val == 4) = true := by decide +kernel

-- Section 2.7.
theorem test_addMix : next (exec (.addMix 6 5 4) ((s0.writeX 5 (maxMag 16)).writeR 4 (maxMag 14)))
    (fun t => t.readD 6 == 79345703124 && t.readR 13 == 13 && t.readR 12 == -1) = true := by decide +kernel

theorem test_adds14_clamps : next (exec (.adds14 3 1 2) ((s0.writeR 1 (-maxMag 14)).writeR 2 (-5)))
    (fun t => t.readR 3 == -maxMag 14 && t.flagS == true) = true := by decide +kernel

theorem test_adds14_clears : next (exec (.adds14 3 1 2) (((s0.writeR 1 3051757811).writeR 2 1).setS true))
    (fun t => t.readR 3 == maxMag 14 && t.flagS == false) = true := by decide +kernel

theorem test_adds28 : next (exec (.adds28 3 1 2) ((s0.writeD 1 (maxMag 28)).writeD 2 (maxMag 28)))
    (fun t => t.readD 3 == maxMag 28 && t.flagS == true) = true := by decide +kernel

theorem test_sext14_28 : next (exec (.sext14To28 3 4) ((s0.writeD 3 (maxMag 28)).writeR 4 (-7)))
    (fun t => t.readR 7 == 0 && t.readR 6 == -7) = true := by decide +kernel

theorem test_sext14_56 : next (exec (.sext14To56 2 4) ((s0.writeQ 2 (maxMag 56)).writeR 4 (-7)))
    (fun t => t.readR 8 == -7 && t.readR 9 == 0 && t.readR 10 == 0 && t.readR 11 == 0) = true := by decide +kernel

theorem test_sext28_56_high_pair : next (exec (.sext28To56 1 3) ((s0.writeD 3 77).writeD 2 5))
    (fun t => t.readD 2 == 77 && t.readD 3 == 0) = true := by decide +kernel

theorem test_trunc28_14 : next (exec (.trunc28To14 9 2) (s0.writeD 2 12207031255))
    (fun t => t.readR 9 == 5 && t.flagV == true) = true := by decide +kernel

theorem test_trunc28_14_clears : next (exec (.trunc28To14 9 2) ((s0.writeD 2 (-3)).setV true))
    (fun t => t.readR 9 == -3 && t.flagV == false) = true := by decide +kernel

theorem test_trunc56_28 : next (exec (.trunc56To28 5 1) (s0.writeQ 1 18626451492309570313))
    (fun t => t.readD 5 == -maxMag 28 && t.flagV == true) = true := by decide +kernel

theorem test_trunc56_14 : next (exec (.trunc56To14 9 1) (s0.writeQ 1 37252902984619140625))
    (fun t => t.readR 9 == 0 && t.flagV == true) = true := by decide +kernel

theorem test_p56TruncB128 : next (exec (.p56TruncB128 3 1) (s0.writeQ 1 (maxMag 56)))
    (fun t => t.readQ 3 == 13324656548845910838020577693226272400 && t.flagV == true) = true := by decide +kernel

theorem test_p56TruncB128_end : next (exec (.p56TruncB128 3 1) (s0.writeQ 1 (-(2 ^ 127))))
    (fun t => t.readQ 3 == -(2 ^ 127) && t.flagV == true) = true := by decide +kernel

theorem test_p28TruncB64 : next (exec (.p28TruncB64 3 1) (s0.writeD 1 10000000000000000000))
    (fun t => t.readD 3 == -8446744073709551616 && t.flagV == true) = true := by decide +kernel

theorem test_p14TruncB32 : next (exec (.p14TruncB32 3 1) (s0.writeR 1 (-maxMag 14)))
    (fun t => t.readR 3 == 1243209484 && t.flagV == true) = true := by decide +kernel

theorem test_p14TruncB32_in_range : next (exec (.p14TruncB32 3 1) ((s0.writeR 1 2147483647).setV true))
    (fun t => t.readR 3 == 2147483647 && t.flagV == false) = true := by decide +kernel

-- Section 2.8.
theorem test_add28c_down : next (exec (.add28c 6 2 4) ((s0.writeD 2 (-maxMag 28)).writeD 4 (-1)))
    (fun t => t.readD 6 == maxMag 28 && t.flagC == .neg && t.flagV == false) = true := by decide +kernel

theorem test_addc28_largest : next (exec (.addc28 7 3 5) (((s0.writeD 3 (maxMag 28)).writeD 5 (maxMag 28)).setC 1))
    (fun t => t.readD 7 == 0 && t.flagC == .pos) = true := by decide +kernel

theorem test_addc28_minus : next (exec (.addc28 7 3 5) ((s0.writeD 3 (-3)).setC (-1)))
    (fun t => t.readD 7 == -4 && t.flagC == .zero) = true := by decide +kernel

theorem test_ovfchk14 : next (exec (.ovfchk14 9 1 2) (((s0.writeR 1 3051757811).writeR 2 2).writeR 9 55))
    (fun t => t.readR 9 == 55 && t.flagV == true) = true := by decide +kernel

theorem test_ovfchk14_clears : next (exec (.ovfchk14 9 1 2) (((s0.writeR 1 3051757810).writeR 2 2).setV true))
    (fun t => t.flagV == false) = true := by decide +kernel

theorem test_ovfchk28 : next (exec (.ovfchk28 9 1 2) (((s0.writeD 1 (-maxMag 28)).writeD 2 (-1)).writeD 9 8))
    (fun t => t.readD 9 == 8 && t.flagV == true) = true := by decide +kernel

-- Section 2.9.
theorem test_storeu28 : next (exec (.storeu28 ⟨0, 5⟩ 3) (s0.writeD 3 13))
    (fun t => t.mem == [(5, .n2), (6, .n2), (7, .p1)]) = true := by decide +kernel

theorem test_loadu28_high_half : next (exec (.loadu28 4 ⟨0, 156⟩) (s0.memWrite 128 56 335276126861572265621))
    (fun t => t.readD 4 == 9) = true := by decide +kernel

theorem test_loadu28_access : faults (exec (.loadu28 4 ⟨0, 485⟩) s0) (.accessFault 0 485) = true := by decide +kernel

theorem test_loadu56 : next (exec (.loadu56 2 ⟨0, 28⟩) (s0.memWrite 28 56 (-1))) (fun t => t.readQ 2 == -1) = true := by
  decide +kernel

theorem test_storeu56_last : next (exec (.storeu56 ⟨0, 456⟩ 1) (s0.writeQ 1 1)) (fun t => t.mem == [(456, .p1)]) = true := by
  decide +kernel

theorem test_storeu56_access : faults (exec (.storeu56 ⟨0, 457⟩ 1) (s0.writeQ 1 1)) (.accessFault 0 457) = true := by
  decide +kernel

-- Section 2.10.
theorem test_bvs_taken : next (exec (.bvs 40) (((s0.setV true).setS true).setC (-1)))
    (fun t => t.pc.val == 40 && t.flagV == true && t.flagS == true && t.flagC == .neg) = true := by decide +kernel

theorem test_bvs_reads_only_V : next (exec (.bvs 40) (s0.setS true)) (fun t => t.pc.val == 1) = true := by decide +kernel

/-- The highest address of PC14 with `R1 = 3`: no instruction but a taken BVS can complete there. -/
def sTop : State := { s0.writeR 1 3 with pc := wordOf 14 (maxMag 14) }

theorem test_pc_out_of_range : faults (exec (.add14 1 1 1) sTop) (.pcOutOfRange (maxMag 14)) = true := by decide +kernel

/-- Section 2.11: the end of the program is not `EndPC`, so the second step finds no instruction. -/
theorem test_no_instruction :
    let s := State.resetWith { Config.default with endPC := .at 2 } [(0, ⟨"ADD14".toList, [.r 1, .r 0, .r 0]⟩)]
    (next (step s) (fun t => t.pc.val == 1) && faults (step (nextOf (step s))) (.noInstruction 1)) = true := by
  decide +kernel

/-- The most significant pent first: the other value of `PentOrder` (R56). -/
theorem test_msp_first :
    let s := State.resetWith { Config.default with pentOrder := .mspFirst } []
    next (exec (.storeu28 ⟨0, 5⟩ 3) (s.writeD 3 13)) (fun t => t.mem == [(30, .p1), (31, .n2), (32, .n2)]) = true := by
  decide +kernel

/-! ## Witnesses: the number system and the views -/

theorem witness_PentWordsCorrespondToValues : Fits 14 (maxMag 14) ∧ Fits 14 (-maxMag 14) ∧
    ([.n1, .p2] : List Pent).length = 2 ∧ Pent.n2 ≠ .zero := by decide +kernel

theorem witness_WrapAndCarryAreUnique : (Fits 14 (-maxMag 14) ∧ maxMag 14 + 1 = 1 * radixPow 14 + -maxMag 14) ∧
    (∀ v ∈ [2 * maxMag 28 + 1, maxMag 28 + 1, maxMag 28, -maxMag 28, -maxMag 28 - 1, -(2 * maxMag 28 + 1)],
      -(2 * maxMag 28 + 1) ≤ v ∧ v ≤ 2 * maxMag 28 + 1) := by decide +kernel

theorem witness_SplitIsASplitOfTheDigitString : (Fits 14 (-7) ∧ 18310546868 = 3 * radixPow 14 + -7) ∧
    Fits (14 + 14) (-maxMag 28) := by decide +kernel

theorem witness_QuotientBoundAndExactness : (-2 : Int) ≠ 0 ∧ (-2 : Int) ∣ 8 := by decide +kernel

theorem witness_RegisterZeroIsHardwired : (31 : RIdx) ≠ 0 ∧ Fits 14 (-maxMag 14) ∧ Fits 14 (maxMag 14) := by decide +kernel

theorem witness_PairViewsAliasTheRegisters : Fits 28 (maxMag 28) ∧ Fits 28 18310546868 := by decide +kernel

theorem witness_QuadViewsAliasTheRegisters : Fits 56 (-maxMag 56) ∧ Fits 56 (2 ^ 127) := by decide +kernel

theorem witness_P16FileIsSeparateStorage : Fits 16 (maxMag 16) ∧ Fits 16 (-maxMag 16) := by decide +kernel

/-! ## Witnesses: the whole machine -/

/-- A one-instruction program that stores 13 at the highest aligned address. -/
def sStore : State :=
  (State.resetWith Config.default [(0, ⟨"STORE28".toList, [.mem 0 480, .d 3]⟩)]).writeD 3 13

theorem sStore_step : step sStore = .next (nextOf (step sStore)) := eq_next_of _ (by decide +kernel)

theorem witness_StepKeepsTheInvariant : sStore.Inv ∧ ∃ t, step sStore = .next t :=
  ⟨⟨by decide +kernel, by decide +kernel, by decide +kernel⟩, _, sStore_step⟩

theorem witness_StepKeepsConfigurationAndProgram : ∃ t, step sStore = .next t := ⟨_, sStore_step⟩

theorem witness_FlagsChangeOnlyByTheirWriters :
    (∃ t, exec (.tst28 2) s0 = .next t) ∧ writesC (.tst28 2) = false ∧ writesV (.tst28 2) = false ∧ writesS (.tst28 2) = false ∧
    (∃ t, exec (.add28c 6 2 4) s0 = .next t) ∧ writesCC (.add28c 6 2 4) = false :=
  ⟨⟨_, eq_next_of _ (by decide +kernel)⟩, rfl, rfl, rfl, ⟨_, eq_next_of _ (by decide +kernel)⟩, rfl⟩

/-- ADDC28 with its `C`, BVS with its `V`, and any flags for an instruction that reads none. -/
theorem witness_FlagsAreReadOnlyByTheirReaders :
    (((∃ dd ds1 ds2, Instr.addc28 7 3 5 = .addc28 dd ds1 ds2) → (Sign.zero = s0.flagC)) ∧
      ((∃ a, Instr.addc28 7 3 5 = .bvs a) → true = s0.flagV)) ∧
    (((∃ dd ds1 ds2, Instr.bvs 40 = .addc28 dd ds1 ds2) → (Sign.neg = s0.flagC)) ∧
      ((∃ a, Instr.bvs 40 = .bvs a) → false = s0.flagV)) ∧
    (((∃ dd ds1 ds2, Instr.clracc = .addc28 dd ds1 ds2) → (Sign.neg = s0.flagC)) ∧
      ((∃ a, Instr.clracc = .bvs a) → true = s0.flagV)) :=
  ⟨⟨fun _ => rfl, fun ⟨_, h⟩ => (nomatch h)⟩, ⟨fun ⟨_, _, _, h⟩ => (nomatch h), fun _ => rfl⟩,
    ⟨fun ⟨_, _, _, h⟩ => (nomatch h), fun ⟨_, h⟩ => (nomatch h)⟩⟩

theorem witness_AccumulatorsChangeOnlyByTheirWriters :
    (∃ t, exec (.macc28 1 2) s0 = .next t) ∧ writesAcc28 (.macc28 1 2) = false ∧ writesAcc112 (.macc28 1 2) = false ∧
    (∃ t, exec (.mul14 3 1 2) s0 = .next t) ∧ writesAcc56 (.mul14 3 1 2) = false :=
  ⟨⟨_, eq_next_of _ (by decide +kernel)⟩, rfl, rfl, ⟨_, eq_next_of _ (by decide +kernel)⟩, rfl⟩

theorem witness_MemoryChangesOnlyInsideTheStoredPents :
    ∃ t, exec (.store28 ⟨0, 480⟩ 3) (s0.writeD 3 13) = .next t ∧ t.readPent 480 ≠ (s0.writeD 3 13).readPent 480 :=
  ⟨_, eq_next_of _ (by decide +kernel), by decide +kernel⟩

theorem witness_PcMovesByIlenOrTakenBranch :
    ((∃ t, exec (.bvs 40) (s0.setV true) = .next t) ∧ (s0.setV true).flagV = true) ∧
    ((∃ t, exec (.bvs 40) s0 = .next t) ∧ s0.flagV = false) ∧
    ((∃ t, exec .clracc (s0.setV true) = .next t) ∧ ∀ a, Instr.clracc ≠ .bvs a) :=
  ⟨⟨⟨_, eq_next_of _ (by decide +kernel)⟩, rfl⟩, ⟨⟨_, eq_next_of _ (by decide +kernel)⟩, rfl⟩,
    ⟨⟨_, eq_next_of _ (by decide +kernel)⟩, fun _ h => (nomatch h)⟩⟩

/-- Every cause of the statement occurs. -/
theorem witness_FaultsAndRefusalsHaveTheirCauses :
    (faults (exec (.div28 3 1 0) s0) (.divideByZero 0) && faults (exec (.load28 3 ⟨0, 513⟩) s0) (.misaligned 0 513) &&
      faults (exec (.storeu28 ⟨0, 496⟩ 3) s0) (.accessFault 0 496) &&
      faults (exec (.bvs (maxMag 14 + 1)) (s0.setV true)) (.pcOutOfRange 0) &&
      faults (exec .clracc sTop) (.pcOutOfRange (maxMag 14)) && refuses (exec (.extend14 0 4) s0) .xIndex) = true := by
  decide +kernel

theorem witness_FailingAccessFaultsAlignmentFirst :
    (s0.accessOf (.load28 3 ⟨0, 513⟩) = some (513, 32, 28) ∧ ¬ s0.CanAccess 32 513 28) ∧
    (s0.accessOf (.store56 ⟨0, 512⟩ 1) = some (512, 64, 56) ∧ ¬ s0.CanAccess 64 512 56) ∧
    (s0.accessOf (.storeu56 ⟨0, 457⟩ 1) = some (457, 1, 56) ∧ ¬ s0.CanAccess 1 457 56) := by decide +kernel

theorem witness_PcOutOfRangeSuppressesTheWork : ¬ sTop.CanAdvance ∧
    ((Instr.div14 3 2 1).wf = true ∧ (∀ a, Instr.div14 3 2 1 = .bvs a → sTop.flagV = false) ∧
      sTop.divisorOf (.div14 3 2 1) ≠ some 0 ∧
      (∀ ea align n, sTop.accessOf (.div14 3 2 1) = some (ea, align, n) → sTop.CanAccess align ea n)) ∧
    ((Instr.store28 ⟨0, 480⟩ 1).wf = true ∧ sTop.accessOf (.store28 ⟨0, 480⟩ 1) = some (480, 32, 28) ∧
      sTop.CanAccess 32 480 28) ∧
    ((Instr.bvs 40).wf = true ∧ sTop.flagV = false) :=
  ⟨by decide +kernel, ⟨rfl, fun _ h => (nomatch h), by decide +kernel, fun _ _ _ h => (nomatch h)⟩, by decide +kernel,
    by decide +kernel⟩

/-! ## Witnesses: the instructions -/

theorem witness_Add14AndSub14Wrap : ((s0.writeR 1 (maxMag 14)).writeR 2 1).CanAdvance := by decide +kernel

/-- The next `pc` may be as high as M_14. -/
theorem witness_MultipliesLeaveTheExactProduct :
    State.CanAdvance { s0.writeQ 1 (maxMag 56) with pc := wordOf 14 (maxMag 14 - 1) } := by decide +kernel

theorem witness_DivisionsDeliverTheQuotientOrFault : (s0.writeQ 1 9).CanAdvance ∧
    (s0.writeQ 1 9).readR 4 ≠ 0 ∧ (s0.writeQ 1 9).readR 0 = 0 ∧ (s0.writeQ 1 9).readD 2 ≠ 0 ∧ (s0.writeQ 1 9).readD 0 = 0 ∧
    (s0.writeQ 1 9).readQ 1 ≠ 0 ∧ (s0.writeQ 1 9).readQ 0 = 0 := by decide +kernel

theorem witness_Extend14AndTrunc16Convert : (s0.writeX 5 (maxMag 14)).CanAdvance ∧ (5 : XIdx) ≠ 0 ∧
    Fits 14 ((s0.writeX 5 (maxMag 14)).readX 5) ∧ ¬ Fits 14 ((s0.writeX 5 (maxMag 14 + 1)).readX 5) := by decide +kernel

theorem witness_Add28Sub28Neg28DeliverTheirResults : (s0.writeD 1 (maxMag 28)).CanAdvance := by decide +kernel

theorem witness_Add56Sub56Neg56DeliverTheirResults : (s0.writeQ 1 (-maxMag 56)).CanAdvance := by decide +kernel

theorem witness_ComparesAndTestsWriteCC : (s0.writeQ 1 (-maxMag 56)).CanAdvance := by decide +kernel

/-- Each case of the aligned and of the unaligned form, at the ends of the domain. -/
theorem witness_Load28AndLoadu28Load : s0.CanAdvance ∧ s0.effAddr ⟨0, 31⟩ % (s0.cfg.align28 : Int) ≠ 0 ∧
    (s0.effAddr ⟨0, 512⟩ % (s0.cfg.align28 : Int) = 0 ∧ rangeInDomain s0.cfg (s0.effAddr ⟨0, 512⟩) 28 = false) ∧
    s0.CanAccess s0.cfg.align28 (s0.effAddr ⟨0, 480⟩) 28 ∧
    rangeInDomain s0.cfg (s0.effAddr ⟨0, 485⟩) 28 = false ∧ rangeInDomain s0.cfg (s0.effAddr ⟨0, 484⟩) 28 = true := by
  decide +kernel

theorem witness_Store28AndStoreu28Store : (s0.writeD 3 13).CanAdvance ∧
    s0.effAddr ⟨0, 30⟩ % (s0.cfg.align28 : Int) ≠ 0 ∧
    (s0.effAddr ⟨0, -32⟩ % (s0.cfg.align28 : Int) = 0 ∧ rangeInDomain s0.cfg (s0.effAddr ⟨0, -32⟩) 28 = false) ∧
    s0.CanAccess s0.cfg.align28 (s0.effAddr ⟨0, 0⟩) 28 ∧
    rangeInDomain s0.cfg (s0.effAddr ⟨0, -1⟩) 28 = false ∧ rangeInDomain s0.cfg (s0.effAddr ⟨0, 0⟩) 28 = true := by
  decide +kernel

theorem witness_Load56AndLoadu56Load : s0.CanAdvance ∧ s0.cfg.pentOrder = .lspFirst ∧
    s0.effAddr ⟨0, 32⟩ % (s0.cfg.align56 : Int) ≠ 0 ∧
    (s0.effAddr ⟨0, 512⟩ % (s0.cfg.align56 : Int) = 0 ∧ rangeInDomain s0.cfg (s0.effAddr ⟨0, 512⟩) 56 = false) ∧
    s0.CanAccess s0.cfg.align56 (s0.effAddr ⟨0, 448⟩) 56 ∧
    rangeInDomain s0.cfg (s0.effAddr ⟨0, 457⟩) 56 = false ∧ rangeInDomain s0.cfg (s0.effAddr ⟨0, 456⟩) 56 = true := by
  decide +kernel

theorem witness_Store56AndStoreu56Store : (s0.writeQ 1 (-1)).CanAdvance ∧
    s0.effAddr ⟨0, 100⟩ % (s0.cfg.align56 : Int) ≠ 0 ∧
    (s0.effAddr ⟨0, -64⟩ % (s0.cfg.align56 : Int) = 0 ∧ rangeInDomain s0.cfg (s0.effAddr ⟨0, -64⟩) 56 = false) ∧
    s0.CanAccess s0.cfg.align56 (s0.effAddr ⟨0, 0⟩) 56 ∧
    rangeInDomain s0.cfg (s0.effAddr ⟨0, -1⟩) 56 = false ∧ rangeInDomain s0.cfg (s0.effAddr ⟨0, 456⟩) 56 = true := by
  decide +kernel

theorem witness_ReadAfterWriteOfWords : Fits 28 (-maxMag 28) ∧ ((36 : Int) + (28 : Nat) ≤ 64 ∨ (64 : Int) + (28 : Nat) ≤ 36) ∧
    ((92 : Int) + (56 : Nat) ≤ 64 ∨ (64 : Int) + (28 : Nat) ≤ 92) := by decide +kernel

theorem witness_MixedWidthReadsSeeTheHalves : (s0.writeQ 1 5).cfg.pentOrder = .lspFirst ∧
    (∃ t, exec (.store56 ⟨0, 448⟩ 1) (s0.writeQ 1 5) = .next t) ∧
    (∃ t, exec (.storeu56 ⟨0, 456⟩ 1) (s0.writeQ 1 5) = .next t) :=
  ⟨rfl, ⟨_, eq_next_of _ (by decide +kernel)⟩, ⟨_, eq_next_of _ (by decide +kernel)⟩⟩

theorem witness_Split28CopiesTheHalves : (s0.writeD 2 18310546868).CanAdvance ∧ (10 : RIdx) ≠ 11 ∧ ((0 : RIdx) = 0) ∧
    (5 : RIdx) ≠ 0 := by decide +kernel

theorem witness_Join28MakesThePair : ((s0.writeR 4 11).writeR 5 22).CanAdvance ∧ (2 : DIdx) ≠ 0 := by decide +kernel

theorem witness_AccumulatingFormsAddTheProduct : (s0.writeAcc112 (maxMag 112)).CanAdvance := by decide +kernel

theorem witness_GetaccDeliversTheHalves : (s0.writeAcc56 (10 ^ 20)).CanAdvance := by decide +kernel

theorem witness_ClearsClearTheirAccumulator : (s0.writeAcc56 (10 ^ 20)).CanAdvance := by decide +kernel

theorem witness_MultiplyThenGetaccGivesTheExactProduct :
    (∃ a b c, exec (.mul28 3 1 2) ((s0.writeD 1 7).writeD 2 (-9)) = .next a ∧ exec (.getacc28Hi 5) a = .next b ∧
      exec (.getacc28Lo 6) b = .next c ∧ (5 : DIdx) ≠ 0 ∧ (6 : DIdx) ≠ 0 ∧ (5 : DIdx) ≠ 6) ∧
    (∃ a b c, exec (.mul56 3 1 2) ((s0.writeQ 1 7).writeQ 2 (-9)) = .next a ∧ exec (.getacc56Hi 4) a = .next b ∧
      exec (.getacc56Lo 5) b = .next c ∧ (4 : QIdx) ≠ 0 ∧ (5 : QIdx) ≠ 0 ∧ (4 : QIdx) ≠ 5) :=
  ⟨⟨_, _, _, eq_next_of _ (by decide +kernel), eq_next_of _ (by decide +kernel), eq_next_of _ (by decide +kernel),
      by decide, by decide, by decide⟩,
    ⟨_, _, _, eq_next_of _ (by decide +kernel), eq_next_of _ (by decide +kernel), eq_next_of _ (by decide +kernel),
      by decide, by decide, by decide⟩⟩

theorem witness_B128ToP56LoadsTheValue : s0.CanAdvance ∧ s0.CanAccess s0.cfg.alignB128 (s0.effAddr ⟨0, 456⟩) s0.cfg.b128Pents := by
  decide +kernel

/-- A value at the end of the symmetric range and one past it. -/
theorem witness_P56ToB128StoresOrOverflows : s0.CanAdvance ∧
    s0.CanAccess s0.cfg.alignB128 (s0.effAddr ⟨0, 456⟩) s0.cfg.b128Pents ∧
    (∀ v ∈ [2 ^ 127 - 1, -(2 ^ 127 - 1)], -b128Max ≤ (s0.writeQ 1 v).readQ 1 ∧ (s0.writeQ 1 v).readQ 1 ≤ b128Max) ∧
    (∀ v ∈ [2 ^ 127, -(2 ^ 127)], ¬ (-b128Max ≤ (s0.writeQ 1 v).readQ 1 ∧ (s0.writeQ 1 v).readQ 1 ≤ b128Max)) := by
  decide +kernel

theorem witness_P56ToB128SatStoresTheClampedValue : (s0.writeQ 1 (-(2 ^ 127))).CanAdvance ∧
    s0.CanAccess s0.cfg.alignB128 (s0.effAddr ⟨0, 0⟩) s0.cfg.b128Pents := by decide +kernel

/-- P56_TO_B128 of a value in range answers a next state, in which the registers and the configuration are as before. -/
theorem p56ToB128_next (s : State) (m : MemOperand) (qs : QIdx) (hc : s.CanAdvance)
    (ha : s.CanAccess s.cfg.alignB128 (s.effAddr m) s.cfg.b128Pents) (hv : exceedsBin 128 (s.readQ qs) = false) :
    ∃ t, exec (.p56ToB128 m qs) s = .next t ∧ t.cfg = s.cfg ∧ t.readR = s.readR ∧ t.pc = wordOf 14 (s.pc.val + s.cfg.ilen) := by
  refine ⟨{ (s.memWriteB128 (s.effAddr m) (s.readQ qs)).setV false with pc := wordOf 14 (s.pc.val + s.cfg.ilen) }, ?_, ?_, ?_,
    rfl⟩
  · simp only [exec, execP56ToB128, accessCheck_none.mpr ha, hv]
    exact advance_next.mpr ⟨by simpa [State.CanAdvance, State.memWriteB128] using hc, by simp [State.memWriteB128]⟩
  · simp [State.memWriteB128]
  · exact writePents_readR s _ _

theorem witness_StoredBinary128ComesBack : ∃ t u,
    -b128Max ≤ (s0.writeQ 1 (2 ^ 127 - 1)).readQ 1 ∧ (s0.writeQ 1 (2 ^ 127 - 1)).readQ 1 ≤ b128Max ∧
    exec (.p56ToB128 ⟨0, 256⟩ 1) (s0.writeQ 1 (2 ^ 127 - 1)) = .next t ∧ exec (.b128ToP56 2 ⟨0, 256⟩) t = .next u ∧
    (2 : QIdx) ≠ 0 := by
  obtain ⟨t, ht, h1, h2, h3⟩ := p56ToB128_next (s0.writeQ 1 (2 ^ 127 - 1)) ⟨0, 256⟩ 1 (by decide +kernel) (by decide +kernel)
    (by decide +kernel)
  have hea : t.effAddr ⟨0, 256⟩ = 256 := by rw [State.effAddr, h2]; decide +kernel
  have ha : t.CanAccess t.cfg.alignB128 (t.effAddr ⟨0, 256⟩) t.cfg.b128Pents := by
    rw [hea, State.CanAccess, h1]; decide +kernel
  have hc : t.CanAdvance := by rw [State.CanAdvance, h1, h3]; decide +kernel
  refine ⟨t, { t.writeQ 2 (t.memReadB128 (t.effAddr ⟨0, 256⟩)) with pc := wordOf 14 (t.pc.val + t.cfg.ilen) },
    by decide +kernel, by decide +kernel, ht, ?_, by decide⟩
  simp only [exec, execB128ToP56, accessCheck_none.mpr ha]
  exact advance_next.mpr ⟨by simpa [State.CanAdvance] using hc, by simp⟩

theorem witness_AddMixNeverWraps : ((s0.writeX 5 (maxMag 16)).writeR 4 (maxMag 14)).CanAdvance := by decide +kernel

theorem witness_SaturatingAddsClamp : ((s0.writeR 1 (maxMag 14)).writeR 2 1).CanAdvance := by decide +kernel

theorem witness_SignExtensionsKeepTheValue : (s0.writeR 4 (-7)).CanAdvance := by decide +kernel

theorem witness_TruncationsKeepTheLowPents : (s0.writeQ 1 (maxMag 28 + 1)).CanAdvance := by decide +kernel

/-- Values at the end of each range and one past it. -/
theorem witness_BinaryTruncationsReportTheRange : (s0.writeQ 1 (2 ^ 127)).CanAdvance ∧
    (let inRange (m : Nat) (v : Int) : Bool := decide (-(2 ^ (m - 1) - 1) ≤ v ∧ v ≤ 2 ^ (m - 1) - 1)
     inRange 128 ((s0.writeQ 1 (2 ^ 127 - 1)).readQ 1) = true ∧ inRange 128 ((s0.writeQ 1 (2 ^ 127)).readQ 1) = false ∧
     inRange 64 ((s0.writeD 1 (-(2 ^ 63 - 1))).readD 1) = true ∧ inRange 64 ((s0.writeD 1 (-(2 ^ 63))).readD 1) = false ∧
     inRange 32 ((s0.writeR 1 2147483647).readR 1) = true ∧ inRange 32 ((s0.writeR 1 2147483648).readR 1) = false) := by
  decide +kernel

theorem witness_DefaultBinaryTruncationIsTheWrap : 0 < 1 ∧ 0 < 128 := by decide

theorem witness_CarryAddsDeliverSumAndCarry : (((s0.writeD 3 (maxMag 28)).writeD 5 (maxMag 28)).setC 1).CanAdvance := by
  decide +kernel

/-- The corrected example of section 1.5 (a): destinations D6 and D7. -/
theorem witness_CarryChainAdds56Pents : ∃ t u,
    ((6 : DIdx) ≠ 0 ∧ (7 : DIdx) ≠ 0 ∧ (6 : DIdx) ≠ 7 ∧ (6 : DIdx) ≠ 3 ∧ (6 : DIdx) ≠ 5) ∧
    exec (.add28c 6 2 4) ((((s0.writeD 2 (maxMag 28)).writeD 3 7).writeD 4 1).writeD 5 4) = .next t ∧
    exec (.addc28 7 3 5) t = .next u ∧ u.readQ 3 = 428408384323120117188 ∧ u.flagC = .zero :=
  ⟨_, _, by decide, eq_next_of _ (by decide +kernel), eq_next_of _ (by decide +kernel), by decide +kernel, by decide +kernel⟩

theorem witness_OverflowChecksWriteVAlone : ((s0.writeR 1 (-maxMag 14)).writeR 2 (-1)).CanAdvance := by decide +kernel

/-- The four cases, each at the end of PC14's range. -/
theorem witness_BvsBranchesOnV : ((s0.setV true).flagV = true ∧ Fits 14 (maxMag 14) ∧ ¬ Fits 14 (maxMag 14 + 1)) ∧
    (s0.flagV = false ∧ s0.CanAdvance) ∧ (sTop.flagV = false ∧ ¬ sTop.CanAdvance) := by decide +kernel

/-! ## Witnesses: fetch, decoding, runs -/

theorem witness_StepRunsTheDecodedInstruction : ¬ sStore.Finished ∧
    sStore.fetch = some ⟨"STORE28".toList, [.mem 0 480, .d 3]⟩ ∧
    decode ⟨"STORE28".toList, [.mem 0 480, .d 3]⟩ = .ok (.store28 ⟨0, 480⟩ 3) :=
  ⟨by decide +kernel, by decide +kernel, by decide⟩

theorem witness_StepWithoutAnInstruction :
    (State.resetWith { Config.default with endPC := .at 0 } []).Finished ∧ (¬ s0.Finished ∧ s0.fetch = none) ∧
    (let s := State.resetWith Config.default [(0, ⟨"NOP".toList, []⟩)]
     ¬ s.Finished ∧ s.fetch = some ⟨"NOP".toList, []⟩ ∧ decode ⟨"NOP".toList, []⟩ = .error .mnemonicKnown) :=
  ⟨by decide +kernel, by decide +kernel, by decide +kernel, by decide +kernel, by decide⟩

theorem witness_AssemblerTextRoundTrips : (Instr.split28 0 0 1).wf = true ∧ (Instr.bvs (-maxMag 14)).wf = true ∧
    (Instr.load28 4 ⟨31, -1⟩).wf = true := by decide

theorem witness_DecodedTermIsTheEncodedOne :
    decode ⟨"ADD_MIX".toList, [.d 15, .x 31, .r 0]⟩ = .ok (.addMix 15 31 0) := by decide

/-- Memory with R3 = M_14 and R2 = 1 for LOAD28 D1, [R0+0]: their sum overflows. -/
def cfgOverflow : Config :=
  { Config.default with initMem := ⟨(0, .p1) :: (List.range 14).map fun k => ((k : Int) + 14, .p2), .all .zero⟩ }

/-- A program whose BVS is taken, to its own first instruction. -/
def progOverflow : List (Int × Term) :=
  assemble 1 0 ["start: LOAD28 D1, [R0+0]".toList, "OVFCHK14 R0, R2, R3".toList, "BVS start".toList]

theorem progOverflow_load : load cfgOverflow progOverflow = .next (nextOf (load cfgOverflow progOverflow)) :=
  eq_next_of _ (by decide +kernel)

theorem witness_AdmittedProgramsBranchToInstructions : ∃ s₀ s e t,
    load cfgOverflow progOverflow = .next s₀ ∧ Reaches s₀ s ∧ s.fetch = some e ∧ decode e = .ok (.bvs 0) ∧ s.flagV = true ∧
    step s = .next t :=
  ⟨_, _, ⟨"BVS".toList, [.label 0]⟩, _, progOverflow_load,
    .step (.step .start (eq_next_of _ (by decide +kernel))) (eq_next_of _ (by decide +kernel)),
    by decide +kernel, by decide, by decide +kernel, eq_next_of _ (by decide +kernel)⟩

theorem witness_AdmittedProgramsAreNeverRefused :
    failedCheck Config.default (assemble 1 0 ["BVS nowhere".toList]) = some .labelDefined ∧
    failedCheck Config.default (assemble 1 (maxMag 14) ["CLRACC".toList]) = some .endAddress ∧
    ∃ s₀, load cfgOverflow progOverflow = .next s₀ ∧ Reaches s₀ s₀ :=
  ⟨by decide +kernel, by decide +kernel, _, progOverflow_load, .start⟩

end Sys2Proof.Tests
end

section
/-! The general registers: R0 as a hardwired zero, the other registers as storage (10_state.md rule R22), and what they hold
after reset (R39). -/

namespace Sys2Proof.Machine

/-- R22: a write to R0 changes nothing. -/
@[simp] theorem writeR_zero (s : State) (v : Int) : s.writeR 0 v = s := rfl

/-- R39: every general register reads 0 after reset, R0 by its own rule and the others by the word in their slot. -/
@[simp] theorem readR_resetWith (cfg : Config) (prog : List (Int × Term)) (i : RIdx) :
    (State.resetWith cfg prog).readR i = 0 := by
  by_cases hi : i = 0
  · subst hi; exact readR_zero _
  · simp [State.readR, hi, State.resetWith, PWord.zero]

/-- R22: a value that fits is read back from any register other than R0 as it was written, without wrapping. -/
theorem readR_writeR_same (s : State) {i : RIdx} {v : Int} (hi : i ≠ 0) (hv : Fits 14 v) : (s.writeR i v).readR i = v := by
  rw [readR_writeR, if_pos ⟨rfl, hi⟩, bal_of_fits hv]

/-- R22: writing a value that fits changes the one register written and nothing else software can see. -/
theorem view_writeR_of_fits (s : State) (i : RIdx) {v : Int} (hv : Fits 14 v) :
    (s.writeR i v).view = s.view.withR i v := by
  rw [view_writeR, bal_of_fits hv]

/-- Settles O5, from the laws of reading and writing one general register: what R0 does, the range of a read, what a write
shows, and reset. -/
theorem registerZeroIsHardwired : Obligations.RegisterZeroIsHardwired := by
  intro s
  have hreset : ∀ cfg prog i, (State.resetWith cfg prog).readR i = 0 := readR_resetWith
  have hwrite : ∀ i v, i ≠ 0 → Fits 14 v →
      (s.writeR i v).view = s.view.withR i v ∧ (s.writeR i v).readR i = v :=
    fun i _ hi hv => ⟨view_writeR_of_fits s i hv, readR_writeR_same s hi hv⟩
  exact ⟨hreset, readR_zero s, writeR_zero s, readR_fits s, hwrite⟩

end Sys2Proof.Machine
end

section
/-! Instructions that complete, by what they write: a pair, a quad or a word of memory (10_state.md rules R24, R25, R27;
20_memory.md rule R55), and the three outcomes of a memory access (R58, R61, R203). -/

namespace Sys2Proof.Machine

theorem fits_zero (n : Nat) : Fits n 0 := pword_fits (PWord.zero n)

/-! ## The view of a pair just written -/

/-- R24: the high register of the pair written, which is never R0. -/
theorem withD_reg_high (w : View) (k : DIdx) (v : Int) : (w.withD k v).reg k.high = hi 14 v :=
  if_pos rfl

/-- R24: the low register of the pair written, where it is not R0. -/
theorem withD_reg_low (w : View) {k : DIdx} (hk : k ≠ 0) (v : Int) : (w.withD k v).reg k.low = lo 14 v := by
  have hne : k.low ≠ 0 := by
    rw [Ne, Fin.ext_iff] at hk ⊢
    simpa [DIdx.low] using hk
  have hodd : ¬ k.low.val = 2 * k.val + 1 := by simp [DIdx.low]
  exact (if_neg hodd).trans (if_pos ⟨rfl, hne⟩)

/-! ## Completion by what is written -/

section

variable {i : Instr} {s u : State}

/-- An instruction that ends by advancing from a state with the old `pc` and configuration completes. -/
theorem completes_of_advance_frame (he : exec i s = u.advance) (hpc : u.pc = s.pc) (hcfg : u.cfg = s.cfg)
    (hc : s.CanAdvance) : Completes i s u.view.next :=
  completes_of_advance he (by rwa [State.CanAdvance, hpc, hcfg]) rfl

/-- R24, R27: an instruction whose work is to write a value that fits into a pair. -/
theorem completes_of_writeD {k : DIdx} {v : Int} (he : exec i s = (s.writeD k v).advance) (hc : s.CanAdvance)
    (hv : Fits 28 v) : Completes i s (s.view.withD k v).next := by
  have h := completes_of_advance_frame he (writeD_pc s k v) (writeD_cfg s k v) hc
  rwa [view_writeD, bal_of_fits hv] at h

/-- R25, R27: an instruction whose work is to write a value that fits into a quad. -/
theorem completes_of_writeQ {k : QIdx} {v : Int} (he : exec i s = (s.writeQ k v).advance) (hc : s.CanAdvance)
    (hv : Fits 56 v) : Completes i s (s.view.withQ k v).next := by
  have h := completes_of_advance_frame he (writeQ_pc s k v) (writeQ_cfg s k v) hc
  rwa [view_writeQ, bal_of_fits hv] at h

/-- R27, R55: an instruction whose work is to write a word of `n` pents to memory. -/
theorem completes_of_memWrite {a : Int} {n : Nat} {v : Int} (he : exec i s = (s.memWrite a n v).advance)
    (hc : s.CanAdvance) :
    Completes i s (s.view.withMem a n (memoryOrder s.cfg.pentOrder (pents n v))).next := by
  have h := completes_of_advance_frame he (writePents_pc s a _) (writePents_cfg s a _) hc
  rwa [view_memWrite] at h

/-! ## The outcomes of an access (R58, R61, R203) -/

/-- An instruction that raises the fault of its access check and otherwise completes: the alignment fault comes first, then the
access fault. -/
theorem access_outcome {align n : Nat} {ea : Int} {w : View}
    (hfault : ∀ f, s.accessCheck align ea n = some f → exec i s = .fault f)
    (hdone : s.CanAccess align ea n → Completes i s w) :
    if ea % (align : Int) ≠ 0 then exec i s = .fault (.misaligned s.pc.val ea)
    else if rangeInDomain s.cfg ea n = false then exec i s = .fault (.accessFault s.pc.val ea)
    else Completes i s w := by
  split_ifs with hmis hout
  · exact hfault _ (accessCheck_some.mpr (.inl ⟨hmis, rfl⟩))
  · exact hfault _ (accessCheck_some.mpr (.inr ⟨not_not.mp hmis, hout, rfl⟩))
  · exact hdone ⟨not_not.mp hmis, Bool.eq_true_of_not_eq_false hout⟩

/-- R59: with an alignment of 1 the alignment fault cannot occur. -/
theorem access_outcome_unaligned {n : Nat} {ea : Int} {w : View}
    (hfault : ∀ f, s.accessCheck 1 ea n = some f → exec i s = .fault f)
    (hdone : s.CanAccess 1 ea n → Completes i s w) :
    if rangeInDomain s.cfg ea n = false then exec i s = .fault (.accessFault s.pc.val ea) else Completes i s w := by
  have h := access_outcome hfault hdone
  rwa [if_neg (not_not.mpr (by simp))] at h

end

end Sys2Proof.Machine
end

section
/-! The P28 loads and stores (41_p28.md rules R117, R118, R180, R181): LOAD28 and LOADU28, STORE28 and STOREU28 differ only in
the alignment they ask for. -/

namespace Sys2Proof.Machine

variable {align : Nat} {m : MemOperand} {s : State}

/-! ## The shared meanings, one equation a case -/

theorem loadPair_of_fault {dd : DIdx} {f : Fault} (h : s.accessCheck align (s.effAddr m) 28 = some f) :
    loadPair align dd m s = .fault f := by
  unfold loadPair
  rw [h]
  rfl

theorem loadPair_of_canAccess {dd : DIdx} (h : s.CanAccess align (s.effAddr m) 28) :
    loadPair align dd m s = (s.writeD dd (s.memRead (s.effAddr m) 28)).advance := by
  unfold loadPair
  rw [accessCheck_none.mpr h]

theorem storePair_of_fault {ds : DIdx} {f : Fault} (h : s.accessCheck align (s.effAddr m) 28 = some f) :
    storePair align m ds s = .fault f := by
  unfold storePair
  rw [h]
  rfl

theorem storePair_of_canAccess {ds : DIdx} (h : s.CanAccess align (s.effAddr m) 28) :
    storePair align m ds s = (s.memWrite (s.effAddr m) 28 (s.readD ds)).advance := by
  unfold storePair
  rw [accessCheck_none.mpr h]

/-! ## Completion -/

/-- R117, R180: a load whose access is admitted puts the word read into the pair. -/
theorem completes_of_loadPair {i : Instr} {dd : DIdx} (he : exec i s = loadPair align dd m s) (hc : s.CanAdvance)
    (ha : s.CanAccess align (s.effAddr m) 28) :
    Completes i s (s.view.withD dd (s.memRead (s.effAddr m) 28)).next :=
  completes_of_writeD (he.trans (loadPair_of_canAccess ha)) hc (memRead_fits s _ 28)

/-- R118, R181: a store whose access is admitted puts the pents of the pair into memory, in the configuration's order. -/
theorem completes_of_storePair {i : Instr} {ds : DIdx} (he : exec i s = storePair align m ds s) (hc : s.CanAdvance)
    (ha : s.CanAccess align (s.effAddr m) 28) :
    Completes i s
      (s.view.withMem (s.effAddr m) 28 (memoryOrder s.cfg.pentOrder (pents 28 (s.readD ds)))).next :=
  completes_of_memWrite (he.trans (storePair_of_canAccess ha)) hc

/-- Settles O28: both forms are the one pair load, LOADU28 with an alignment of 1. -/
theorem load28AndLoadu28Load : Obligations.Load28AndLoadu28Load := by
  intro s dd m hc
  have haligned : exec (.load28 dd m) s = loadPair s.cfg.align28 dd m s := rfl
  have hunaligned : exec (.loadu28 dd m) s = loadPair 1 dd m s := rfl
  exact ⟨access_outcome (fun _ hf => haligned.trans (loadPair_of_fault hf)) (completes_of_loadPair haligned hc),
    access_outcome_unaligned (fun _ hf => hunaligned.trans (loadPair_of_fault hf)) (completes_of_loadPair hunaligned hc)⟩

/-- Settles O29: both forms are the one pair store, STOREU28 with an alignment of 1. -/
theorem store28AndStoreu28Store : Obligations.Store28AndStoreu28Store := by
  intro s m ds hc
  have haligned : exec (.store28 m ds) s = storePair s.cfg.align28 m ds s := rfl
  have hunaligned : exec (.storeu28 m ds) s = storePair 1 m ds s := rfl
  exact ⟨access_outcome (fun _ hf => haligned.trans (storePair_of_fault hf)) (completes_of_storePair haligned hc),
    access_outcome_unaligned (fun _ hf => hunaligned.trans (storePair_of_fault hf)) (completes_of_storePair hunaligned hc)⟩

end Sys2Proof.Machine
end

section
/-! Joining two words, and reading and clearing the accumulators (41_p28.md rules R120, R123 to R125; 42_p56.md rules R144 to
R146). -/

namespace Sys2Proof.Machine

/-- Settles O35: the digit split of `h * 5^14 + l` is unique, so each half of the pair written is the word given; the sources
are read in the old state, whatever pair they lie in. -/
theorem join28MakesThePair : Obligations.Join28MakesThePair := by
  intro s dd rsHi rsLo hc
  have hhi := readR_fits s rsHi
  have hlo := readR_fits s rsLo
  have hfits : Fits 28 (s.readR rsHi * radixPow 14 + s.readR rsLo) := join_fits (j := 14) (k := 14) hhi hlo
  have hdone : Completes (.join28 dd rsHi rsLo) s
      (s.view.withD dd (s.readR rsHi * radixPow 14 + s.readR rsLo)).next := completes_of_writeD rfl hc hfits
  obtain ⟨t, ht, hview⟩ := hdone
  have hreg : ∀ j, t.readR j = (s.view.withD dd (s.readR rsHi * radixPow 14 + s.readR rsLo)).reg j :=
    fun j => congrFun (congrArg View.reg hview) j
  have hhigh : t.readR dd.high = s.readR rsHi := by rw [hreg, withD_reg_high, hi_unique hlo rfl]
  have hlow : dd ≠ 0 → t.readR dd.low = s.readR rsLo := fun hd => by rw [hreg, withD_reg_low _ hd, lo_unique hlo rfl]
  exact ⟨⟨t, ht, hview⟩, hfits, t, ht, hhigh, hlow⟩

/-- Settles O37: each half of an accumulator fits its destination and is written as it is; that the halves make the
accumulator is the law of the digit split. -/
theorem getaccDeliversTheHalves : Obligations.GetaccDeliversTheHalves := by
  intro s hc
  have hhi56 : Fits 28 (hi 28 s.acc56.val) := hi_fits (j := 28) (k := 28) (pword_fits s.acc56)
  have hhi112 : Fits 56 (hi 56 s.acc112.val) := hi_fits (j := 56) (k := 56) (pword_fits s.acc112)
  exact ⟨fun _ => ⟨completes_of_writeD rfl hc hhi56, completes_of_writeD rfl hc (lo_fits 28 _)⟩,
    fun _ => ⟨completes_of_writeQ rfl hc hhi112, completes_of_writeQ rfl hc (lo_fits 56 _)⟩,
    hi_mul_add_lo 28 _, hhi56, hi_mul_add_lo 56 _, hhi112⟩

/-- Settles O38: each form writes its own accumulator alone, and 0 is written without wrapping. -/
theorem clearsClearTheirAccumulator : Obligations.ClearsClearTheirAccumulator := by
  intro s hc
  have hacc56 : (s.writeAcc56 0).view = { s.view with acc56 := 0 } := by rw [view_writeAcc56, bal_of_fits (fits_zero 56)]
  have hacc112 : (s.writeAcc112 0).view = { s.view with acc112 := 0 } := by
    rw [view_writeAcc112, bal_of_fits (fits_zero 112)]
  exact ⟨hacc56 ▸ completes_of_advance_frame rfl rfl rfl hc, hacc112 ▸ completes_of_advance_frame rfl rfl rfl hc⟩

end Sys2Proof.Machine
end

section
/-! The P56 loads and stores (42_p56.md rules R140, R141, R182, R183): LOAD56 and LOADU56, STORE56 and STOREU56 differ only in
the alignment they ask for; and how a word read from memory splits at an address (20_memory.md rule R54). -/

namespace Sys2Proof.Machine

variable {align : Nat} {m : MemOperand} {s : State}

/-! ## The shared meanings, one equation a case -/

theorem loadQuad_of_fault {qd : QIdx} {f : Fault} (h : s.accessCheck align (s.effAddr m) 56 = some f) :
    loadQuad align qd m s = .fault f := by
  unfold loadQuad
  rw [h]
  rfl

theorem loadQuad_of_canAccess {qd : QIdx} (h : s.CanAccess align (s.effAddr m) 56) :
    loadQuad align qd m s = (s.writeQ qd (s.memRead (s.effAddr m) 56)).advance := by
  unfold loadQuad
  rw [accessCheck_none.mpr h]

theorem storeQuad_of_fault {qs : QIdx} {f : Fault} (h : s.accessCheck align (s.effAddr m) 56 = some f) :
    storeQuad align m qs s = .fault f := by
  unfold storeQuad
  rw [h]
  rfl

theorem storeQuad_of_canAccess {qs : QIdx} (h : s.CanAccess align (s.effAddr m) 56) :
    storeQuad align m qs s = (s.memWrite (s.effAddr m) 56 (s.readQ qs)).advance := by
  unfold storeQuad
  rw [accessCheck_none.mpr h]

/-! ## Completion -/

/-- R140, R182: a load whose access is admitted puts the word read into the quad. -/
theorem completes_of_loadQuad {i : Instr} {qd : QIdx} (he : exec i s = loadQuad align qd m s) (hc : s.CanAdvance)
    (ha : s.CanAccess align (s.effAddr m) 56) :
    Completes i s (s.view.withQ qd (s.memRead (s.effAddr m) 56)).next :=
  completes_of_writeQ (he.trans (loadQuad_of_canAccess ha)) hc (memRead_fits s _ 56)

/-- R141, R183: a store whose access is admitted puts the pents of the quad into memory, in the configuration's order. -/
theorem completes_of_storeQuad {i : Instr} {qs : QIdx} (he : exec i s = storeQuad align m qs s) (hc : s.CanAdvance)
    (ha : s.CanAccess align (s.effAddr m) 56) :
    Completes i s
      (s.view.withMem (s.effAddr m) 56 (memoryOrder s.cfg.pentOrder (pents 56 (s.readQ qs)))).next :=
  completes_of_memWrite (he.trans (storeQuad_of_canAccess ha)) hc

/-! ## A read in two parts -/

/-- R54: with the least significant pent first, the word of `j + k` pents at `a` has the word of `k` pents at `a` as its low
part and the word of `j` pents at `a + k` as its high part. -/
theorem memRead_add (hord : s.cfg.pentOrder = .lspFirst) (a : Int) (j k : Nat) :
    s.memRead a (j + k) = s.memRead (a + k) j * radixPow k + s.memRead a k := by
  have hread : ∀ b n, s.memRead b n = valOf (s.readPents n b) := fun b n => by
    rw [State.memRead, hord, memoryOrder]
  rw [hread, hread, hread, Nat.add_comm j k, readPents_append, valOf_append, readPents_length]
  ring

/-- Settles O30: both forms are the one quad load, LOADU56 with an alignment of 1; the two pairs of the word read are its two
parts of 28 pents. -/
theorem load56AndLoadu56Load : Obligations.Load56AndLoadu56Load := by
  intro s qd m hc
  have haligned : exec (.load56 qd m) s = loadQuad s.cfg.align56 qd m s := rfl
  have hunaligned : exec (.loadu56 qd m) s = loadQuad 1 qd m s := rfl
  exact ⟨access_outcome (fun _ hf => haligned.trans (loadQuad_of_fault hf)) (completes_of_loadQuad haligned hc),
    access_outcome_unaligned (fun _ hf => hunaligned.trans (loadQuad_of_fault hf)) (completes_of_loadQuad hunaligned hc),
    fun hord => memRead_add hord (s.effAddr m) 28 28⟩

/-- Settles O31: both forms are the one quad store, STOREU56 with an alignment of 1. -/
theorem store56AndStoreu56Store : Obligations.Store56AndStoreu56Store := by
  intro s m qs hc
  have haligned : exec (.store56 m qs) s = storeQuad s.cfg.align56 m qs s := rfl
  have hunaligned : exec (.storeu56 m qs) s = storeQuad 1 m qs s := rfl
  exact ⟨access_outcome (fun _ hf => haligned.trans (storeQuad_of_fault hf)) (completes_of_storeQuad haligned hc),
    access_outcome_unaligned (fun _ hf => hunaligned.trans (storeQuad_of_fault hf))
      (completes_of_storeQuad hunaligned hc)⟩

end Sys2Proof.Machine
end

section
/-! Mixed-precision addition and the sign extensions (43_mixed_and_conversion.md rules R150, R153 to R155): each writes a value
that fits its destination, so that nothing wraps. -/

namespace Sys2Proof.Machine

/-- R150: `M_16 + M_14 = 79,345,703,124` bounds the sum of a P16 and a P14 value. -/
theorem readX_add_readR_bounds (s : State) (xs : XIdx) (rt : RIdx) :
    -79345703124 ≤ s.readX xs + s.readR rt ∧ s.readX xs + s.readR rt ≤ 79345703124 := by
  obtain ⟨hxlo, hxhi⟩ := readX_fits s xs
  obtain ⟨hrlo, hrhi⟩ := readR_fits s rt
  have hM : maxMag 16 + maxMag 14 = 79345703124 := by decide +kernel
  constructor <;> omega

/-- R150: the sum of a P16 and a P14 value is in the range of a pair, because `M_16 + M_14 < M_28`. -/
theorem readX_add_readR_fits (s : State) (xs : XIdx) (rt : RIdx) : Fits 28 (s.readX xs + s.readR rt) := by
  obtain ⟨hlo, hhi⟩ := readX_add_readR_bounds s xs rt
  have hM : 79345703124 < maxMag 28 := by decide +kernel
  constructor <;> omega

/-- Settles O44: the sum fits 28 pents, so the pair is written with it unwrapped. -/
theorem addMixNeverWraps : Obligations.AddMixNeverWraps := by
  intro s dd xs rt hc
  have hfits := readX_add_readR_fits s xs rt
  obtain ⟨hlo, hhi⟩ := readX_add_readR_bounds s xs rt
  exact ⟨completes_of_writeD rfl hc hfits, hlo, hhi, hfits⟩

/-- Settles O46: a value that fits the narrow source fits the wide destination, and its part above the source's width is 0. -/
theorem signExtensionsKeepTheValue : Obligations.SignExtensionsKeepTheValue := by
  intro s hc
  have h14 := readR_fits s
  have h28 := readD_fits s
  exact ⟨fun _ rs => ⟨completes_of_writeD rfl hc (fits_mono (by decide) (h14 rs)), hi_of_fits (h14 rs)⟩,
    fun _ rs => completes_of_writeQ rfl hc (fits_mono (by decide) (h14 rs)),
    fun _ ds => ⟨completes_of_writeQ rfl hc (fits_mono (by decide) (h28 ds)), hi_of_fits (h28 ds)⟩⟩

end Sys2Proof.Machine
end

section
/-! What `exec` does, said once for all sixty instructions (10_state.md rules R27, R28; 60_exceptions.md rules R200 to R203):
the refusal, the fault, or the work of the instruction and then the next `pc`. -/

namespace Sys2Proof.Machine

/-! ## The parts of an execution -/

/-- The fault that stops an instruction before it writes anything, if any (R58, R61, R100, R203). -/
def State.faultOf (s : State) (i : Instr) : Option Fault :=
  if s.divisorOf i = some 0 then some (.divideByZero s.pc.val)
  else (s.accessOf i).bind fun a => s.accessCheck a.2.1 a.1 a.2.2

/-- Where an instruction that is not stopped goes (R27, R190). -/
def State.nextPC (s : State) : Instr → Int
  | .bvs target => if s.flagV then target else s.pc.val + s.cfg.ilen
  | _ => s.pc.val + s.cfg.ilen

/-- All that an instruction writes but `pc`. -/
def State.work (s : State) : Instr → State
  | .add14 rd rs1 rs2 => s.writeR rd (bal 14 (s.readR rs1 + s.readR rs2))
  | .sub14 rd rs1 rs2 => s.writeR rd (bal 14 (s.readR rs1 - s.readR rs2))
  | .mul14 rd rs1 rs2 => (s.writeAcc28 (s.readR rs1 * s.readR rs2)).writeR rd (lo 14 (s.readR rs1 * s.readR rs2))
  | .div14 rd rs1 rs2 => s.writeR rd (divQ s.cfg.quotient (s.readR rs1) (s.readR rs2))
  | .extend14 xd rs => s.writeX xd (s.readR rs)
  | .trunc16 rd xs => s.writeR rd (lo 14 (s.readX xs))
  | .add28 dd ds1 ds2 => s.writeD dd (bal 28 (s.readD ds1 + s.readD ds2))
  | .sub28 dd ds1 ds2 => s.writeD dd (bal 28 (s.readD ds1 - s.readD ds2))
  | .mul28 dd ds1 ds2 => (s.writeAcc56 (s.readD ds1 * s.readD ds2)).writeD dd (lo 28 (s.readD ds1 * s.readD ds2))
  | .div28 dd ds1 ds2 => s.writeD dd (divQ s.cfg.quotient (s.readD ds1) (s.readD ds2))
  | .neg28 dd ds => s.writeD dd (-s.readD ds)
  | .cmp28 ds1 ds2 => s.setCC (s.readD ds1 - s.readD ds2)
  | .tst28 ds => s.setCC (s.readD ds)
  | .load28 dd m | .loadu28 dd m => s.writeD dd (s.memRead (s.effAddr m) 28)
  | .store28 m ds | .storeu28 m ds => s.memWrite (s.effAddr m) 28 (s.readD ds)
  | .split28 rdHi rdLo ds => (s.writeR rdHi (hi 14 (s.readD ds))).writeR rdLo (lo 14 (s.readD ds))
  | .join28 dd rsHi rsLo => s.writeD dd (s.readR rsHi * radixPow 14 + s.readR rsLo)
  | .macc28 ds1 ds2 => s.writeAcc56 (bal 56 (s.acc56.val + s.readD ds1 * s.readD ds2))
  | .msub28 ds1 ds2 => s.writeAcc56 (bal 56 (s.acc56.val - s.readD ds1 * s.readD ds2))
  | .getacc28Hi dd => s.writeD dd (hi 28 s.acc56.val)
  | .getacc28Lo dd => s.writeD dd (lo 28 s.acc56.val)
  | .clracc => s.writeAcc56 0
  | .add56 qd qs1 qs2 => s.writeQ qd (bal 56 (s.readQ qs1 + s.readQ qs2))
  | .sub56 qd qs1 qs2 => s.writeQ qd (bal 56 (s.readQ qs1 - s.readQ qs2))
  | .mul56 qd qs1 qs2 => (s.writeAcc112 (s.readQ qs1 * s.readQ qs2)).writeQ qd (lo 56 (s.readQ qs1 * s.readQ qs2))
  | .div56 qd qs1 qs2 => s.writeQ qd (divQ s.cfg.quotient (s.readQ qs1) (s.readQ qs2))
  | .neg56 qd qs => s.writeQ qd (-s.readQ qs)
  | .b128ToP56 qd m => s.writeQ qd (s.memReadB128 (s.effAddr m))
  | .p56ToB128 m qs =>
    if exceedsBin 128 (s.readQ qs) then (s.memDrawB128 (s.effAddr m)).setV true
    else (s.memWriteB128 (s.effAddr m) (s.readQ qs)).setV false
  | .p56ToB128Sat m qs =>
    (s.memWriteB128 (s.effAddr m) (clampB128 (s.readQ qs))).setS (decide (clampB128 (s.readQ qs) ≠ s.readQ qs))
  | .cmp56 qs1 qs2 => s.setCC (s.readQ qs1 - s.readQ qs2)
  | .tst56 qs => s.setCC (s.readQ qs)
  | .load56 qd m | .loadu56 qd m => s.writeQ qd (s.memRead (s.effAddr m) 56)
  | .store56 m qs | .storeu56 m qs => s.memWrite (s.effAddr m) 56 (s.readQ qs)
  | .macc56 qs1 qs2 => s.writeAcc112 (bal 112 (s.acc112.val + s.readQ qs1 * s.readQ qs2))
  | .msub56 qs1 qs2 => s.writeAcc112 (bal 112 (s.acc112.val - s.readQ qs1 * s.readQ qs2))
  | .getacc56Hi qd => s.writeQ qd (hi 56 s.acc112.val)
  | .getacc56Lo qd => s.writeQ qd (lo 56 s.acc112.val)
  | .clracc112 => s.writeAcc112 0
  | .addMix dd xs rt => s.writeD dd (s.readX xs + s.readR rt)
  | .adds14 rd rs1 rs2 =>
    (s.writeR rd (clamp 14 (s.readR rs1 + s.readR rs2))).setS (exceeds 14 (s.readR rs1 + s.readR rs2))
  | .adds28 dd ds1 ds2 =>
    (s.writeD dd (clamp 28 (s.readD ds1 + s.readD ds2))).setS (exceeds 28 (s.readD ds1 + s.readD ds2))
  | .sext14To28 dd rs => s.writeD dd (s.readR rs)
  | .sext14To56 qd rs => s.writeQ qd (s.readR rs)
  | .sext28To56 qd ds => s.writeQ qd (s.readD ds)
  | .trunc28To14 rd ds => (s.writeR rd (lo 14 (s.readD ds))).setV (hasHigh 14 (s.readD ds))
  | .trunc56To28 dd qs => (s.writeD dd (lo 28 (s.readQ qs))).setV (hasHigh 28 (s.readQ qs))
  | .trunc56To14 rd qs => (s.writeR rd (lo 14 (s.readQ qs))).setV (hasHigh 14 (s.readQ qs))
  | .p56TruncB128 qd qs =>
    if exceedsBin 128 (s.readQ qs) then (s.writeQ qd (binTrunc s.cfg.binTrunc 128 (s.readQ qs))).setV true
    else (s.writeQ qd (s.readQ qs)).setV false
  | .p28TruncB64 dd ds =>
    if exceedsBin 64 (s.readD ds) then (s.writeD dd (binTrunc s.cfg.binTrunc 64 (s.readD ds))).setV true
    else (s.writeD dd (s.readD ds)).setV false
  | .p14TruncB32 rd rs =>
    if exceedsBin 32 (s.readR rs) then (s.writeR rd (binTrunc s.cfg.binTrunc 32 (s.readR rs))).setV true
    else (s.writeR rd (s.readR rs)).setV false
  | .add28c dd ds1 ds2 =>
    (s.writeD dd (bal 28 (s.readD ds1 + s.readD ds2))).setC (carry 28 (s.readD ds1 + s.readD ds2))
  | .addc28 dd ds1 ds2 =>
    (s.writeD dd (bal 28 (s.readD ds1 + s.readD ds2 + s.flagC.toInt))).setC
      (carry 28 (s.readD ds1 + s.readD ds2 + s.flagC.toInt))
  | .ovfchk14 _ rs1 rs2 => s.setV (exceeds 14 (s.readR rs1 + s.readR rs2))
  | .ovfchk28 _ ds1 ds2 => s.setV (exceeds 28 (s.readD ds1 + s.readD ds2))
  | .bvs _ => s

variable {s t : State} {i : Instr}

/-! ## What the work leaves alone -/

@[simp] theorem work_cfg : (s.work i).cfg = s.cfg := by
  cases i with
  | _ => simp [State.work, State.memWrite, State.memWriteB128, apply_ite State.cfg]

@[simp] theorem work_prog : (s.work i).prog = s.prog := by
  cases i with
  | _ => simp [State.work, State.memWrite, State.memWriteB128, apply_ite State.prog]

@[simp] theorem work_pc : (s.work i).pc = s.pc := by
  cases i with
  | _ => simp [State.work, State.memWrite, State.memWriteB128, apply_ite State.pc]

/-! ## The outcome -/

theorem advance_work : (s.work i).advance = (s.work i).goto (s.pc.val + s.cfg.ilen) := by
  rw [State.advance, work_pc, work_cfg]

theorem faultOf_of_divisor (h : s.divisorOf i = some 0) : s.faultOf i = some (.divideByZero s.pc.val) := if_pos h

theorem faultOf_of_no_division (h : s.divisorOf i ≠ some 0) :
    s.faultOf i = (s.accessOf i).bind fun a => s.accessCheck a.2.1 a.1 a.2.2 := if_neg h

theorem faultOf_of_access {ea : Int} {align n : Nat} (hd : s.divisorOf i = none)
    (ha : s.accessOf i = some (ea, align, n)) : s.faultOf i = s.accessCheck align ea n := by
  rw [faultOf_of_no_division (by simp [hd]), ha]
  rfl

/-- An instruction that neither divides nor accesses memory does its work. -/
theorem exec_of_plain (hd : s.divisorOf i = none) (ha : s.accessOf i = none) (hn : s.nextPC i = s.pc.val + s.cfg.ilen)
    (he : exec i s = (s.work i).advance) :
    exec i s = (s.faultOf i).elim ((s.work i).goto (s.nextPC i)) .fault := by
  rw [faultOf_of_no_division (by simp [hd]), ha, he, hn, advance_work]
  rfl

/-- A division stops at a divisor 0 (R100 law 5). -/
theorem exec_of_division {b : Int} (hd : s.divisorOf i = some b) (ha : s.accessOf i = none)
    (hn : s.nextPC i = s.pc.val + s.cfg.ilen)
    (he : exec i s = if b = 0 then raise (.divideByZero s.pc.val) else (s.work i).advance) :
    exec i s = (s.faultOf i).elim ((s.work i).goto (s.nextPC i)) .fault := by
  rw [he]
  split_ifs with hb
  · rw [faultOf_of_divisor (hb ▸ hd)]
    rfl
  · rw [faultOf_of_no_division (by simp [hd, hb]), ha, hn, advance_work]
    rfl

/-- An access stops at a failing check (R58, R61). -/
theorem exec_of_access {ea : Int} {align n : Nat} (hd : s.divisorOf i = none) (ha : s.accessOf i = some (ea, align, n))
    (hn : s.nextPC i = s.pc.val + s.cfg.ilen)
    (hfault : ∀ f, s.accessCheck align ea n = some f → exec i s = .fault f)
    (hdone : s.CanAccess align ea n → exec i s = (s.work i).advance) :
    exec i s = (s.faultOf i).elim ((s.work i).goto (s.nextPC i)) .fault := by
  rw [faultOf_of_access hd ha, hn, ← advance_work]
  cases h : s.accessCheck align ea n with
  | none => exact hdone (accessCheck_none.mp h)
  | some f => exact hfault f h

/-- R27, R28, R203: an instruction that passes its checks stops with its fault, or does its work and goes on; nothing of the
work is seen where `goto` faults. -/
theorem exec_eq (hw : i.failedCheck = none) :
    exec i s = (s.faultOf i).elim ((s.work i).goto (s.nextPC i)) .fault := by
  cases i with
  | div14 | div28 | div56 => exact exec_of_division rfl rfl rfl rfl
  | load28 | loadu28 => exact exec_of_access rfl rfl rfl (fun _ => loadPair_of_fault) loadPair_of_canAccess
  | store28 | storeu28 => exact exec_of_access rfl rfl rfl (fun _ => storePair_of_fault) storePair_of_canAccess
  | load56 | loadu56 => exact exec_of_access rfl rfl rfl (fun _ => loadQuad_of_fault) loadQuad_of_canAccess
  | store56 | storeu56 => exact exec_of_access rfl rfl rfl (fun _ => storeQuad_of_fault) storeQuad_of_canAccess
  | b128ToP56 qd m =>
    exact exec_of_access rfl rfl rfl (fun f hf => by simp only [exec, execB128ToP56, hf, raise])
      fun ha => by simp only [exec, execB128ToP56, accessCheck_none.mpr ha, State.work]
  | p56ToB128 m qs =>
    exact exec_of_access rfl rfl rfl (fun f hf => by simp only [exec, execP56ToB128, hf, raise])
      fun ha => by simp only [exec, execP56ToB128, accessCheck_none.mpr ha, State.work, apply_ite State.advance]
  | p56ToB128Sat m qs =>
    exact exec_of_access rfl rfl rfl (fun f hf => by simp only [exec, execP56ToB128Sat, hf, raise])
      fun ha => by simp only [exec, execP56ToB128Sat, accessCheck_none.mpr ha, State.work]
  | p56TruncB128 | p28TruncB64 | p14TruncB32 => exact exec_of_plain rfl rfl rfl (apply_ite State.advance _ _ _).symm
  | extend14 xd rs =>
    have hx : xd ≠ 0 := by simpa [Instr.failedCheck] using hw
    exact exec_of_plain rfl rfl rfl (if_neg hx)
  | split28 rdHi rdLo ds =>
    have hd : ¬ (rdHi = rdLo ∧ rdHi ≠ 0) := by simpa [Instr.failedCheck] using hw
    exact exec_of_plain rfl rfl rfl (if_neg hd)
  | bvs target => 
    show (if s.flagV then s.goto target else s.advance) = s.goto (if s.flagV then target else _)
    split <;> rfl
  | _ => exact exec_of_plain rfl rfl rfl rfl

/-- R86, R90: an instruction that fails a check of its own operands is refused with that check, in every state. -/
theorem exec_of_failedCheck {c : Check} (hc : i.failedCheck = some c) : exec i s = .refused (.notAdmitted c) := by
  cases i with
  | extend14 xd rs =>
    obtain ⟨hx, rfl⟩ : xd = 0 ∧ Check.xIndex = c := by simpa [Instr.failedCheck] using hc
    exact if_pos hx
  | split28 rdHi rdLo ds =>
    obtain ⟨hd, rfl⟩ : (rdHi = rdLo ∧ rdHi ≠ 0) ∧ Check.splitDests = c := by simpa [Instr.failedCheck] using hc
    exact if_pos hd
  | _ => exact nomatch hc

theorem exec_of_faultOf {f : Fault} (hw : i.failedCheck = none) (hf : s.faultOf i = some f) : exec i s = .fault f := by
  rw [exec_eq hw, hf]
  rfl

theorem exec_of_passes (hw : i.failedCheck = none) (hf : s.faultOf i = none) :
    exec i s = (s.work i).goto (s.nextPC i) := by
  rw [exec_eq hw, hf]
  rfl

/-- Everything an instruction that answers a next state has done. -/
theorem exec_next : exec i s = .next t ↔
    i.failedCheck = none ∧ s.faultOf i = none ∧ Fits 14 (s.nextPC i) ∧
      t = { s.work i with pc := wordOf 14 (s.nextPC i) } := by
  cases hw : i.failedCheck with
  | some c => simp [exec_of_failedCheck hw]
  | none => 
    cases hf : s.faultOf i with
    | some f => simp [exec_of_faultOf hw hf]
    | none => simp only [exec_of_passes hw hf, goto_next, true_and]

/-- Everything a fault can come from: a check before the work, or the next `pc`. -/
theorem exec_fault {f : Fault} : exec i s = .fault f ↔
    i.failedCheck = none ∧
      (s.faultOf i = some f ∨ s.faultOf i = none ∧ ¬ Fits 14 (s.nextPC i) ∧ f = .pcOutOfRange s.pc.val) := by
  cases hw : i.failedCheck with
  | some c => simp [exec_of_failedCheck hw]
  | none =>
    cases hf : s.faultOf i with
    | some g => simp [exec_of_faultOf hw hf]
    | none =>
      rw [exec_of_passes hw hf]
      by_cases hfit : Fits 14 (s.nextPC i)
      · simp [goto_of_fits hfit, hfit]
      · simp [goto_of_not_fits hfit, hfit, eq_comm]

/-- A refusal names the check that fails. -/
theorem exec_refused {r : Refusal} (h : exec i s = .refused r) : ∃ c, i.failedCheck = some c ∧ r = .notAdmitted c := by
  cases hw : i.failedCheck with
  | some c =>
    rw [exec_of_failedCheck hw] at h
    exact ⟨c, rfl, (Host.Outcome.refused.inj h).symm⟩
  | none =>
    cases hf : s.faultOf i with
    | some g => simp [exec_of_faultOf hw hf] at h
    | none => exact absurd (exec_of_passes hw hf ▸ h) goto_not_refused

end Sys2Proof.Machine
end

section
/-! Statements about every instruction and every step: what is kept, who writes what, where `pc` goes, and the causes of a stop
(10_state.md rules R27, R28, R33, R34, R36; 20_memory.md; 60_exceptions.md). -/

namespace Sys2Proof.Machine

variable {s t : State} {i : Instr}

/-! ## The checks before the work -/

/-- R203: an instruction is not stopped exactly when its divisor is not 0 and its access is admitted. -/
theorem faultOf_none : s.faultOf i = none ↔
    s.divisorOf i ≠ some 0 ∧ ∀ ea align n, s.accessOf i = some (ea, align, n) → s.CanAccess align ea n := by
  unfold State.faultOf
  split_ifs with hd
  · simp [hd]
  · rw [Option.bind_eq_none_iff]
    constructor
    · exact fun h => ⟨hd, fun ea align n ha => accessCheck_none.mp (h _ ha)⟩
    · exact fun h a ha => accessCheck_none.mpr (h.2 _ _ _ ha)

theorem faultOf_some {f : Fault} (h : s.faultOf i = some f) :
    (s.divisorOf i = some 0 ∧ f = .divideByZero s.pc.val) ∨
      ∃ ea align n, s.accessOf i = some (ea, align, n) ∧ s.accessCheck align ea n = some f := by
  unfold State.faultOf at h
  split_ifs at h with hd
  · exact .inl ⟨hd, (Option.some.inj h).symm⟩
  · obtain ⟨⟨ea, align, n⟩, ha, hf⟩ := Option.bind_eq_some_iff.mp h
    exact .inr ⟨ea, align, n, ha, hf⟩

/-- A memory instruction is no division and fails no check of its own. -/
theorem of_accessOf {a : Int × Nat × Nat} (h : s.accessOf i = some a) : s.divisorOf i = none ∧ i.failedCheck = none := by
  cases i with
  | load28 | store28 | loadu28 | storeu28 | load56 | store56 | loadu56 | storeu56 | b128ToP56 | p56ToB128
  | p56ToB128Sat => exact ⟨rfl, rfl⟩
  | _ => exact nomatch h

/-! ## What the work writes, by the tables of writers (R33, R36, R52) -/

theorem work_flagCC (h : writesCC i = false) : (s.work i).flagCC = s.flagCC := by
  cases i with
  | cmp28 | tst28 | cmp56 | tst56 => exact nomatch h
  | _ => simp [State.work, State.memWrite, State.memWriteB128, apply_ite State.flagCC]

theorem work_flagC (h : writesC i = false) : (s.work i).flagC = s.flagC := by
  cases i with
  | add28c | addc28 => exact nomatch h
  | _ => simp [State.work, State.memWrite, State.memWriteB128, apply_ite State.flagC]

theorem work_flagV (h : writesV i = false) : (s.work i).flagV = s.flagV := by
  cases i with
  | p56ToB128 | trunc28To14 | trunc56To28 | trunc56To14 | p56TruncB128 | p28TruncB64 | p14TruncB32
  | ovfchk14 | ovfchk28 => exact nomatch h
  | _ => simp [State.work, State.memWrite, State.memWriteB128]

theorem work_flagS (h : writesS i = false) : (s.work i).flagS = s.flagS := by
  cases i with
  | adds14 | adds28 | p56ToB128Sat => exact nomatch h
  | _ => simp [State.work, State.memWrite, State.memWriteB128, apply_ite State.flagS]

theorem work_acc28 (h : writesAcc28 i = false) : (s.work i).acc28 = s.acc28 := by
  cases i with
  | mul14 => exact nomatch h
  | _ => simp [State.work, State.memWrite, State.memWriteB128, apply_ite State.acc28]

theorem work_acc56 (h : writesAcc56 i = false) : (s.work i).acc56 = s.acc56 := by
  cases i with
  | mul28 | macc28 | msub28 | clracc => exact nomatch h
  | _ => simp [State.work, State.memWrite, State.memWriteB128, apply_ite State.acc56]

theorem work_acc112 (h : writesAcc112 i = false) : (s.work i).acc112 = s.acc112 := by
  cases i with
  | mul56 | macc56 | msub56 | clracc112 => exact nomatch h
  | _ => simp [State.work, State.memWrite, State.memWriteB128, apply_ite State.acc112]

theorem work_mem (h : writesMemory i = false) : (s.work i).mem = s.mem := by
  cases i with
  | store28 | storeu28 | store56 | storeu56 | p56ToB128 | p56ToB128Sat => exact nomatch h
  | _ => simp [State.work, apply_ite State.mem]

/-! ## The stored pents -/

theorem exceedsBin_eq_false {m : Nat} {v : Int} : exceedsBin m v = false ↔ -binMax m ≤ v ∧ v ≤ binMax m := by
  simp [exceedsBin, and_comm]

/-- R136: a value that does not exceed the symmetric range is a binary128 value. -/
theorem isB128_of_not_exceedsBin {v : Int} (h : exceedsBin 128 v = false) : IsB128 v := by
  obtain ⟨hlo, hhi⟩ := exceedsBin_eq_false.mp h
  have hmax : binMax 128 = 2 ^ 127 - 1 := rfl
  unfold IsB128
  omega

theorem clampB128_isB128 (v : Int) : IsB128 (clampB128 v) := by
  unfold clampB128 b128Max IsB128
  split_ifs <;> omega

/-- R52, R55, R60: a storing instruction writes one row of pents, from its effective address on and as wide as its access. -/
theorem work_mem_of_store (h : writesMemory i = true) : ∃ ea align image,
    s.accessOf i = some (ea, align, image.length) ∧ (s.work i).mem = (s.writePents ea image).mem := by
  have hword : ∀ n v, (memoryOrder s.cfg.pentOrder (pents n v)).length = n := by simp
  have hb128 := (b128CodecOf_lawful s.cfg).1
  cases i with
  | store28 | storeu28 | store56 | storeu56 => exact ⟨_, _, _, by rw [hword]; rfl, rfl⟩
  | p56ToB128Sat m qs => exact ⟨_, _, _, by rw [hb128 _ (clampB128_isB128 (s.readQ qs))]; rfl, rfl⟩
  | p56ToB128 m qs =>
    cases he : exceedsBin 128 (s.readQ qs) with
    | true => exact ⟨_, _, drawnImage s.cfg s.draws, by rw [drawnImage_length]; rfl, by simp [State.work, he]⟩
    | false =>
      exact ⟨_, _, _, by rw [hb128 _ (isB128_of_not_exceedsBin he)]; rfl, by simp [State.work, he, State.memWriteB128]⟩
  | _ => exact nomatch h

/-! ## The slot of R0 (R22) -/

theorem writeR_gpr_zero (s : State) (k : RIdx) (v : Int) : (s.writeR k v).gpr[0] = s.gpr[0] := by
  unfold State.writeR
  split
  · rfl
  · rename_i hk
    have hne : k.val ≠ 0 := fun h => hk (Fin.ext h)
    simp [hne]

theorem writeD_gpr_zero (s : State) (k : DIdx) (v : Int) : (s.writeD k v).gpr[0] = s.gpr[0] := by
  rw [State.writeD, writeR_gpr_zero, writeR_gpr_zero]

theorem writeQ_gpr_zero (s : State) (k : QIdx) (v : Int) : (s.writeQ k v).gpr[0] = s.gpr[0] := by
  rw [State.writeQ, writeD_gpr_zero, writeD_gpr_zero]

theorem work_gpr_zero : (s.work i).gpr[0] = s.gpr[0] := by
  have hite : ∀ (c : Prop) [Decidable c] (a b : State), a.gpr[0] = s.gpr[0] → b.gpr[0] = s.gpr[0] →
      (if c then a else b).gpr[0] = s.gpr[0] := fun c _ a b ha hb => by split <;> assumption
  cases i with
  | p56ToB128 | p56TruncB128 | p28TruncB64 | p14TruncB32 =>
    exact hite _ _ _ (by simp [writeR_gpr_zero, writeD_gpr_zero, writeQ_gpr_zero])
      (by simp [State.memWriteB128, writeR_gpr_zero, writeD_gpr_zero, writeQ_gpr_zero])
  | _ => simp [State.work, State.memWrite, State.memWriteB128, writeR_gpr_zero, writeD_gpr_zero, writeQ_gpr_zero]

/-! ## The invariant -/

/-- The invariant speaks of memory, the configuration and the slot of R0 alone. -/
theorem inv_of_mem {u : State} (hs : s.Inv) (hcfg : u.cfg = s.cfg) (hgpr : u.gpr[0] = s.gpr[0]) (hmem : u.mem = s.mem) :
    u.Inv := by
  unfold State.Inv
  rw [hcfg, hgpr, hmem]
  exact hs

/-- A row of pents written where every address exists keeps memory canonical and inside `MemDomain`. -/
theorem writePents_inv (hs : s.Inv) {a : Int} {w : List Pent} (hd : rangeInDomain s.cfg a w.length = true) :
    (s.writePents a w).Inv := by
  obtain ⟨hwf, hdom, hgpr⟩ := hs
  refine ⟨?_, fun e he => ?_, by rwa [writePents_gpr]⟩
  · rw [writePents_cfg]
    exact writePents_wf s a w hwf
  · rw [writePents_cfg]
    rcases mem_writePents s a w he with ⟨hlo, hhi⟩ | hold
    · exact (rangeInDomain_iff s.cfg a w.length).mp hd e.1 hlo hhi
    · exact hdom e hold

theorem exec_inv (hs : s.Inv) (h : exec i s = .next t) : t.Inv := by
  obtain ⟨-, hf, -, rfl⟩ := exec_next.mp h
  cases hm : writesMemory i with
  | false => exact inv_of_mem hs work_cfg work_gpr_zero (work_mem hm)
  | true =>
    obtain ⟨ea, align, image, ha, hmem⟩ := work_mem_of_store (s := s) hm
    have haccess := (faultOf_none.mp hf).2 _ _ _ ha
    have hw := writePents_inv hs haccess.2
    exact inv_of_mem hw (by simp) (by simp [work_gpr_zero]) hmem

/-- Everything a step that answers a next state can be: nothing at the end of the run (R226), else the instruction at `pc`. -/
theorem step_next (h : step s = .next t) :
    (s.Finished ∧ t = s) ∨ ∃ e i, ¬ s.Finished ∧ s.fetch = some e ∧ decode e = .ok i ∧ exec i s = .next t := by
  unfold step at h
  split_ifs at h with hfin
  · exact .inl ⟨hfin, (Host.Outcome.next.inj h).symm⟩
  · split at h
    · exact nomatch h
    · rename_i e he
      split at h
      · exact nomatch h
      · rename_i i hi
        exact .inr ⟨e, i, hfin, he, hi, h⟩

/-- Settles O11: no instruction writes the slot of R0, and the one row of pents a store writes stands where its access check
has found every address to exist. -/
theorem stepKeepsTheInvariant : Obligations.StepKeepsTheInvariant := by
  intro s t hs h
  rcases step_next h with ⟨-, rfl⟩ | ⟨_, _, -, -, -, he⟩
  · exact hs
  · exact exec_inv hs he

/-- Settles O12: no work touches the two fields, and the end of an instruction writes `pc` alone. -/
theorem stepKeepsConfigurationAndProgram : Obligations.StepKeepsConfigurationAndProgram := by
  intro s t h
  rcases step_next h with ⟨-, rfl⟩ | ⟨_, _, -, -, -, he⟩
  · exact ⟨rfl, rfl⟩
  · obtain ⟨-, -, -, rfl⟩ := exec_next.mp he
    exact ⟨work_cfg, work_prog⟩

/-- Settles O13, one flag of the work at a time. -/
theorem flagsChangeOnlyByTheirWriters : Obligations.FlagsChangeOnlyByTheirWriters := by
  intro i s t h
  obtain ⟨-, -, -, rfl⟩ := exec_next.mp h
  exact ⟨work_flagCC, work_flagC, work_flagV, work_flagS⟩

/-- Settles O15, one accumulator of the work at a time. -/
theorem accumulatorsChangeOnlyByTheirWriters : Obligations.AccumulatorsChangeOnlyByTheirWriters := by
  intro i s t h
  obtain ⟨-, -, -, rfl⟩ := exec_next.mp h
  exact ⟨work_acc28, work_acc56, work_acc112⟩

/-- Settles O16: an instruction that is no store keeps memory, and a store writes the one row of pents of its access. -/
theorem memoryChangesOnlyInsideTheStoredPents : Obligations.MemoryChangesOnlyInsideTheStoredPents := by
  intro i s t a h hne
  obtain ⟨-, -, -, rfl⟩ := exec_next.mp h
  cases hm : writesMemory i with
  | false => exact absurd (by simp [State.readPent, work_mem hm]) hne
  | true =>
    obtain ⟨ea, align, image, ha, hmem⟩ := work_mem_of_store (s := s) hm
    have hread : memGet s.cfg (s.work i).mem a = (s.writePents ea image).readPent a := by
      rw [State.readPent, writePents_cfg, hmem]
    refine ⟨rfl, ea, align, image.length, ha, ?_⟩
    by_contra hout
    refine hne ?_
    rw [State.readPent, work_cfg, hread, readPent_writePents, if_neg hout]

/-- Settles O17: `pc` is the one field that the end of an instruction writes, with `nextPC`. -/
theorem pcMovesByIlenOrTakenBranch : Obligations.PcMovesByIlenOrTakenBranch := by
  intro i s t h
  obtain ⟨-, -, hfit, rfl⟩ := exec_next.mp h
  have hpc : (wordOf 14 (s.nextPC i)).val = s.nextPC i := bal_of_fits hfit
  refine ⟨fun target hi hv => ?_, fun hseq => ?_⟩
  · rw [hpc, hi]
    exact if_pos hv
  · rw [hpc]
    cases i with
    | bvs target =>
      have hv : s.flagV = false := hseq.resolve_right fun hne => hne target rfl
      exact if_neg (by simp [hv])
    | _ => rfl

/-! ## The causes of a stop -/

/-- The next `pc` can be out of range by the taken branch or by the next address in sequence (R28, R190). -/
theorem nextPC_not_fits (h : ¬ Fits 14 (s.nextPC i)) :
    (∃ target, i = .bvs target ∧ s.flagV = true ∧ ¬ Fits 14 target) ∨ ¬ s.CanAdvance := by
  cases i with
  | bvs target =>
    cases hv : s.flagV with
    | true => exact .inl ⟨target, rfl, rfl, by simpa [State.nextPC, hv] using h⟩
    | false => exact .inr (by simpa [State.nextPC, hv] using h)
  | _ => exact .inr h

/-- Settles O18: a fault is that of the checks before the work or that of the next `pc`; a refusal is that of the
instruction's own check. -/
theorem faultsAndRefusalsHaveTheirCauses : Obligations.FaultsAndRefusalsHaveTheirCauses := by
  intro i s
  refine ⟨fun f h => ?_, fun r h => exec_refused h⟩
  obtain ⟨-, hf | ⟨-, hpc, rfl⟩⟩ := exec_fault.mp h
  · rcases faultOf_some hf with ⟨hd, rfl⟩ | ⟨ea, align, n, ha, hcheck⟩
    · exact .inl ⟨rfl, hd⟩
    · rcases accessCheck_some.mp hcheck with ⟨hmis, rfl⟩ | ⟨hal, hout, rfl⟩
      · exact .inr (.inl ⟨ea, align, n, ha, hmis, rfl⟩)
      · exact .inr (.inr (.inl ⟨ea, align, n, ha, hal, hout, rfl⟩))
  · exact .inr (.inr (.inr ⟨rfl, nextPC_not_fits hpc⟩))

/-- Settles O19: a memory instruction makes no check before its access check, which asks for alignment first. -/
theorem failingAccessFaultsAlignmentFirst : Obligations.FailingAccessFaultsAlignmentFirst := by
  intro i s ea align n ha hno
  obtain ⟨hd, hw⟩ := of_accessOf ha
  refine exec_of_faultOf hw ((faultOf_of_access hd ha).trans (accessCheck_some.mpr ?_))
  split_ifs with hmis
  · exact .inl ⟨hmis, rfl⟩
  · have hal := not_not.mp hmis
    exact .inr ⟨hal, Bool.eq_false_iff.mpr fun hin => hno ⟨hal, hin⟩, rfl⟩

/-- Settles O20: with no check failing, what is left is `goto`, which faults without a word on the work. -/
theorem pcOutOfRangeSuppressesTheWork : Obligations.PcOutOfRangeSuppressesTheWork := by
  intro i s hadv hwf hv hd ha
  have hw : i.failedCheck = none := by simpa [Instr.wf] using hwf
  have hseq : s.nextPC i = s.pc.val + s.cfg.ilen := by
    cases i with
    | bvs target => exact if_neg (by simp [hv target rfl])
    | _ => rfl
  rw [exec_of_passes hw (faultOf_none.mpr ⟨hd, ha⟩), hseq, goto_of_not_fits hadv, work_pc]

end Sys2Proof.Machine
end

section
/-! The flags as inputs (10_state.md rule R34): nothing but ADDC28 reads `C`, nothing but BVS reads `V`, nothing reads `CC` or
`S`. -/

namespace Sys2Proof.Machine

/-! ## Other flags, one law a state operation -/

section

variable (s : State) (cc c : Sign) (v b : Bool)

@[simp] theorem withFlags_cfg : (s.withFlags cc c v b).cfg = s.cfg := rfl
@[simp] theorem withFlags_pc : (s.withFlags cc c v b).pc = s.pc := rfl
@[simp] theorem withFlags_acc56 : (s.withFlags cc c v b).acc56 = s.acc56 := rfl
@[simp] theorem withFlags_acc112 : (s.withFlags cc c v b).acc112 = s.acc112 := rfl
@[simp] theorem withFlags_flagC : (s.withFlags cc c v b).flagC = c := rfl
@[simp] theorem withFlags_flagV : (s.withFlags cc c v b).flagV = v := rfl
@[simp] theorem withFlags_draws : (s.withFlags cc c v b).draws = s.draws := rfl
@[simp] theorem withFlags_readR : (s.withFlags cc c v b).readR = s.readR := rfl
@[simp] theorem withFlags_readD : (s.withFlags cc c v b).readD = s.readD := rfl
@[simp] theorem withFlags_readQ : (s.withFlags cc c v b).readQ = s.readQ := rfl
@[simp] theorem withFlags_readX : (s.withFlags cc c v b).readX = s.readX := rfl
@[simp] theorem withFlags_effAddr : (s.withFlags cc c v b).effAddr = s.effAddr := rfl
@[simp] theorem withFlags_accessCheck : (s.withFlags cc c v b).accessCheck = s.accessCheck := rfl

@[simp] theorem withFlags_readPents (n : Nat) (a : Int) : (s.withFlags cc c v b).readPents n a = s.readPents n a :=
  readPents_congr fun _ _ _ => rfl

@[simp] theorem withFlags_memRead (a : Int) (n : Nat) : (s.withFlags cc c v b).memRead a n = s.memRead a n := by
  simp [State.memRead]

@[simp] theorem withFlags_memReadB128 (a : Int) : (s.withFlags cc c v b).memReadB128 a = s.memReadB128 a := by
  simp [State.memReadB128]

@[simp] theorem writeR_withFlags (k : RIdx) (x : Int) :
    (s.withFlags cc c v b).writeR k x = (s.writeR k x).withFlags cc c v b := by
  unfold State.writeR
  split <;> rfl

@[simp] theorem writeD_withFlags (k : DIdx) (x : Int) :
    (s.withFlags cc c v b).writeD k x = (s.writeD k x).withFlags cc c v b := by
  simp [State.writeD]

@[simp] theorem writeQ_withFlags (k : QIdx) (x : Int) :
    (s.withFlags cc c v b).writeQ k x = (s.writeQ k x).withFlags cc c v b := by
  simp [State.writeQ]

@[simp] theorem writeX_withFlags (k : XIdx) (x : Int) :
    (s.withFlags cc c v b).writeX k x = (s.writeX k x).withFlags cc c v b := rfl

@[simp] theorem writeAcc28_withFlags (x : Int) :
    (s.withFlags cc c v b).writeAcc28 x = (s.writeAcc28 x).withFlags cc c v b := rfl

@[simp] theorem writeAcc56_withFlags (x : Int) :
    (s.withFlags cc c v b).writeAcc56 x = (s.writeAcc56 x).withFlags cc c v b := rfl

@[simp] theorem writeAcc112_withFlags (x : Int) :
    (s.withFlags cc c v b).writeAcc112 x = (s.writeAcc112 x).withFlags cc c v b := rfl

@[simp] theorem writePents_withFlags (a : Int) (w : List Pent) :
    (s.withFlags cc c v b).writePents a w = (s.writePents a w).withFlags cc c v b := by
  induction w generalizing s a with
  | nil => rfl
  | cons p ps ih => exact ih (s.writePent a p) (a + 1)

@[simp] theorem memWrite_withFlags (a : Int) (n : Nat) (x : Int) :
    (s.withFlags cc c v b).memWrite a n x = (s.memWrite a n x).withFlags cc c v b := by
  simp [State.memWrite]

@[simp] theorem memWriteB128_withFlags (a x : Int) :
    (s.withFlags cc c v b).memWriteB128 a x = (s.memWriteB128 a x).withFlags cc c v b := by
  simp [State.memWriteB128]

@[simp] theorem memDrawB128_withFlags (a : Int) :
    (s.withFlags cc c v b).memDrawB128 a = (s.memDrawB128 a).withFlags cc c v b := by
  simp only [State.memDrawB128, withFlags_cfg, withFlags_draws, writePents_withFlags]
  rfl

@[simp] theorem setCC_withFlags (x : Int) : (s.withFlags cc c v b).setCC x = (s.setCC x).withFlags (sgn x) c v b := rfl

@[simp] theorem setC_withFlags (x : Int) : (s.withFlags cc c v b).setC x = (s.setC x).withFlags cc (signOf x) v b := rfl

@[simp] theorem setV_withFlags (x : Bool) : (s.withFlags cc c v b).setV x = (s.setV x).withFlags cc c x b := rfl

@[simp] theorem setS_withFlags (x : Bool) : (s.withFlags cc c v b).setS x = (s.setS x).withFlags cc c v x := rfl

end

/-! ## Other flags, through an execution -/

section

variable {s : State} {i : Instr} {cc c : Sign} {v b : Bool}

theorem faultOf_withFlags : (s.withFlags cc c v b).faultOf i = s.faultOf i := by
  have hd : (s.withFlags cc c v b).divisorOf i = s.divisorOf i := by cases i <;> rfl
  have ha : (s.withFlags cc c v b).accessOf i = s.accessOf i := by cases i <;> rfl
  rw [State.faultOf, State.faultOf, hd, ha, withFlags_accessCheck, withFlags_pc]

theorem nextPC_withFlags (hv : (∃ target, i = .bvs target) → v = s.flagV) :
    (s.withFlags cc c v b).nextPC i = s.nextPC i := by
  cases i with
  | bvs target => simp [State.nextPC, hv ⟨target, rfl⟩]
  | _ => rfl

/-- The work writes the flags of its row of the table of writers and keeps the others, whatever they are (R33, R34). -/
theorem work_withFlags (hc : (∃ dd ds1 ds2, i = .addc28 dd ds1 ds2) → c = s.flagC) :
    (s.withFlags cc c v b).work i =
      (s.work i).withFlags (if writesCC i then (s.work i).flagCC else cc) (if writesC i then (s.work i).flagC else c)
        (if writesV i then (s.work i).flagV else v) (if writesS i then (s.work i).flagS else b) := by
  cases i with
  | addc28 dd ds1 ds2 =>
    obtain rfl := hc ⟨dd, ds1, ds2, rfl⟩
    simp [State.work, writesCC, writesC, writesV, writesS]
  | p56ToB128 | p56TruncB128 | p28TruncB64 | p14TruncB32 =>
    simp only [State.work, writesCC, writesC, writesV, writesS]
    split <;> simp_all
  | p56ToB128Sat m qs =>
    simp only [State.work, withFlags_effAddr, withFlags_readQ, memWriteB128_withFlags, setS_withFlags]
    rfl
  | _ => simp [State.work, writesCC, writesC, writesV, writesS]

/-- Settles O14: other values of the flags that an instruction does not read change neither its checks nor its next `pc`, and
pass through its work but for the flags it writes. -/
theorem flagsAreReadOnlyByTheirReaders : Obligations.FlagsAreReadOnlyByTheirReaders := by
  intro i s cc c v b hc hv
  have hfault := faultOf_withFlags (s := s) (i := i) (cc := cc) (c := c) (v := v) (b := b)
  have hwork := work_withFlags (s := s) (cc := cc) (v := v) (b := b) hc
  have hpc := nextPC_withFlags (s := s) (cc := cc) (c := c) (b := b) hv
  cases h : exec i s with
  | next t =>
    obtain ⟨hw, hf, hfit, rfl⟩ := exec_next.mp h
    exact exec_next.mpr ⟨hw, hfault.trans hf, hpc ▸ hfit, by rw [hwork, hpc]; rfl⟩
  | fault f =>
    obtain ⟨hw, hstop⟩ := exec_fault.mp h
    exact exec_fault.mpr ⟨hw, by rwa [hfault, hpc]⟩
  | refused r =>
    obtain ⟨k, hk, rfl⟩ := exec_refused h
    exact exec_of_failedCheck hk

end

end Sys2Proof.Machine
end

section
/-! Decimal numbers (log entry 17): the digits written are digits, and the number read from them is the number written. -/

namespace Sys2Proof

/-- A decimal digit is its character's distance from `0`. -/
theorem digitChar_toNat {d : Nat} (hd : d < 10) : (Char.ofNat (48 + d)).toNat = 48 + d :=
  (Char.toNat_ofNat _).trans (if_pos (Or.inl (by omega)))

theorem isDigitChar_digitChar {d : Nat} (hd : d < 10) : isDigitChar (Char.ofNat (48 + d)) = true := by
  simp [isDigitChar, digitChar_toNat hd]
  omega

theorem digitsValue_append (n : Nat) (a b : List Char) : digitsValue n (a ++ b) = digitsValue (digitsValue n a) b := by
  induction a generalizing n with
  | nil => rfl
  | cons c a ih => exact ih _

theorem digitsValue_singleton (n : Nat) (c : Char) : digitsValue n [c] = 10 * n + (c.toNat - 48) := rfl

theorem decimalDigits_digits (fuel n : Nat) : ∀ c ∈ decimalDigits fuel n, isDigitChar c = true := by
  induction fuel generalizing n with
  | zero => simp [decimalDigits]
  | succ fuel ih =>
    unfold decimalDigits
    split_ifs with hn
    · simpa using isDigitChar_digitChar hn
    · intro c hc
      rcases List.mem_append.mp hc with hc | hc
      · exact ih _ c hc
      · rw [List.mem_singleton.mp hc]
        exact isDigitChar_digitChar (Nat.mod_lt n (by omega))

theorem decimalDigits_ne_nil (fuel n : Nat) : decimalDigits (fuel + 1) n ≠ [] := by
  unfold decimalDigits
  split_ifs <;> simp

/-- Fuel above the binary length is enough, because a division by 10 shortens a number by more than one bit. -/
theorem digitsValue_decimalDigits {fuel n : Nat} (h : n < 2 ^ fuel) : digitsValue 0 (decimalDigits fuel n) = n := by
  induction fuel generalizing n with
  | zero =>
    obtain rfl : n = 0 := by simpa using h
    rfl
  | succ fuel ih =>
    unfold decimalDigits
    split_ifs with hn
    · rw [digitsValue_singleton, digitChar_toNat hn]
      omega
    · have hmod : n % 10 < 10 := Nat.mod_lt n (by omega)
      rw [digitsValue_append, ih (by rw [pow_succ] at h; omega), digitsValue_singleton, digitChar_toNat hmod]
      omega

theorem writeNat_digits (n : Nat) : ∀ c ∈ writeNat n, isDigitChar c = true := decimalDigits_digits _ n

theorem writeNat_ne_nil (n : Nat) : writeNat n ≠ [] := decimalDigits_ne_nil _ n

@[simp] theorem readNat_writeNat (n : Nat) : readNat (writeNat n) = some n := by
  have hall : (writeNat n).all isDigitChar = true := List.all_eq_true.mpr (writeNat_digits n)
  have hval : digitsValue 0 (writeNat n) = n := digitsValue_decimalDigits Nat.lt_log2_self
  simp [readNat, writeNat_ne_nil, hall, hval]

/-! ## Signed numbers -/

/-- A text of digits is read as an unsigned number. -/
theorem readInt_of_digits {cs : List Char} (h : ∀ c ∈ cs, isDigitChar c = true) :
    readInt cs = (readNat cs).map fun n : Nat => (n : Int) := by
  unfold readInt
  split
  · exact absurd (h '-' (by simp)) (by decide)
  · exact absurd (h '+' (by simp)) (by decide)
  · cases readNat cs <;> rfl

theorem readInt_minus (n : Nat) : readInt ('-' :: writeNat n) = some (-(n : Int)) := by simp [readInt]

theorem readOffset_minus (n : Nat) : readOffset ('-' :: writeNat n) = some (-(n : Int)) := by simp [readOffset]

theorem readOffset_plus (n : Nat) : readOffset ('+' :: writeNat n) = some (n : Int) := by simp [readOffset]

@[simp] theorem readInt_writeInt (v : Int) : readInt (writeInt v) = some v := by
  unfold writeInt
  split_ifs with hv
  · rw [readInt_minus, Int.ofNat_natAbs_of_nonpos hv.le, neg_neg]
  · rw [readInt_of_digits (writeNat_digits _), readNat_writeNat, Option.map_some, Int.natAbs_of_nonneg (not_lt.mp hv)]

@[simp] theorem readOffset_writeOffset (v : Int) : readOffset (writeOffset v) = some v := by
  unfold writeOffset
  split_ifs with hv
  · rw [readOffset_minus, Int.ofNat_natAbs_of_nonpos hv.le, neg_neg]
  · rw [readOffset_plus, Int.natAbs_of_nonneg (not_lt.mp hv)]

end Sys2Proof
end

section
/-! The line of assembler text that the encoder writes, read back part by part (30_encoding.md rules R82, R88, R89). -/

namespace Sys2Proof

/-! ## The characters of a line -/

/-- The characters of mnemonics and operands. -/
def isTokenChar (c : Char) : Bool :=
  isDigitChar c || isNameStart c || c == '[' || c == ']' || c == '+' || c == '-'

/-- The characters of a line: those of its tokens and what stands between them. -/
def isLineChar (c : Char) : Bool := isTokenChar c || c == ',' || c == ' '

theorem isTokenChar_of_digit {c : Char} (h : isDigitChar c = true) : isTokenChar c = true := by simp [isTokenChar, h]

theorem isLineChar_of_token {c : Char} (h : isTokenChar c = true) : isLineChar c = true := by simp [isLineChar, h]

theorem isBlank_of_token {c : Char} (h : isTokenChar c = true) : isBlank c = false := by
  by_contra hb
  simp only [isBlank, Bool.not_eq_false, Bool.or_eq_true, beq_iff_eq] at hb
  rcases hb with ((rfl | rfl) | rfl) | rfl <;> exact absurd h (by decide)

theorem ne_comma_of_token {c : Char} (h : isTokenChar c = true) : c ≠ ',' := by
  rintro rfl
  exact absurd h (by decide)

theorem ne_semicolon_of_line {c : Char} (h : isLineChar c = true) : c ≠ ';' := by
  rintro rfl
  exact absurd h (by decide)

theorem ne_colon_of_line {c : Char} (h : isLineChar c = true) : c ≠ ':' := by
  rintro rfl
  exact absurd h (by decide)

/-- Every character of a line is an ASCII character other than NUL (log entry 1). -/
theorem ascii_of_line {c : Char} (h : isLineChar c = true) : 0 < c.toNat ∧ c.toNat < 128 := by
  simp only [isLineChar, isTokenChar, isDigitChar, isNameStart, Bool.or_eq_true, Bool.and_eq_true, decide_eq_true_eq,
    beq_iff_eq] at h
  have hchar : ∀ d : Char, c = d → c.toNat = d.toNat := fun d hd => congrArg Char.toNat hd
  rcases h with ((((((hd | (hu | hl) | h) | h) | h) | h) | h) | h) | h
  · omega
  · omega
  · omega
  all_goals subst h; decide

/-! ## Texts without blanks at their ends -/

/-- Neither the first nor the last character is a blank. -/
def Trimmed (cs : List Char) : Prop :=
  (∀ c ∈ cs.head?, isBlank c = false) ∧ ∀ c ∈ cs.getLast?, isBlank c = false

theorem trimmed_of_tokens {cs : List Char} (h : ∀ c ∈ cs, isTokenChar c = true) : Trimmed cs :=
  ⟨fun c hc => isBlank_of_token (h c (List.mem_of_mem_head? hc)),
    fun c hc => isBlank_of_token (h c (List.mem_of_mem_getLast? hc))⟩

/-- Whatever stands between two trimmed texts, the whole is trimmed. -/
theorem Trimmed.append {a b : List Char} (ha : Trimmed a) (hb : Trimmed b) (hane : a ≠ []) (hbne : b ≠ [])
    (mid : List Char) : Trimmed (a ++ (mid ++ b)) := by
  refine ⟨?_, ?_⟩
  · rw [List.head?_append_of_ne_nil _ hane]
    exact ha.1
  · rw [← List.append_assoc, List.getLast?_append_of_ne_nil _ hbne]
    exact hb.2

theorem dropWhile_blank_of_head {cs : List Char} (h : ∀ c ∈ cs.head?, isBlank c = false) : cs.dropWhile isBlank = cs := by
  cases cs with
  | nil => rfl
  | cons c cs => simp [h c (by simp)]

/-- Blanks before a trimmed text are all that trimming drops. -/
theorem trimBlanks_append {w cs : List Char} (hw : ∀ c ∈ w, isBlank c = true) (h : Trimmed cs) :
    trimBlanks (w ++ cs) = cs := by
  obtain ⟨hhead, hlast⟩ := h
  rw [trimBlanks, List.dropWhile_append_of_pos hw, dropWhile_blank_of_head hhead,
    dropWhile_blank_of_head (by rwa [List.head?_reverse]), List.reverse_reverse]

theorem trimBlanks_of_trimmed {cs : List Char} (h : Trimmed cs) : trimBlanks cs = cs :=
  trimBlanks_append (w := []) (by simp) h

/-! ## One operand -/

/-- The operands that stand for themselves: registers, memory operands and addresses. -/
def Operand.Plain : Operand → Prop
  | .name _ | .other _ => False
  | _ => True

theorem writeNat_tokens (n : Nat) : ∀ c ∈ writeNat n, isTokenChar c = true :=
  fun c hc => isTokenChar_of_digit (writeNat_digits n c hc)

theorem writeOffset_tokens (v : Int) : ∀ c ∈ writeOffset v, isTokenChar c = true := by
  unfold writeOffset
  rw [List.forall_mem_cons]
  exact ⟨by split <;> decide, writeNat_tokens _⟩

theorem writeInt_tokens (v : Int) : ∀ c ∈ writeInt v, isTokenChar c = true := by
  unfold writeInt
  split_ifs
  · exact List.forall_mem_cons.mpr ⟨by decide, writeNat_tokens _⟩
  · exact writeNat_tokens _

theorem writeOperand_tokens {o : Operand} (h : o.Plain) : ∀ c ∈ writeOperand o, isTokenChar c = true := by
  cases o with
  | r k | d k | q k | x k => exact List.forall_mem_cons.mpr ⟨by decide, writeNat_tokens _⟩
  | mem b o =>
    simp only [writeOperand, List.forall_mem_cons, List.forall_mem_append]
    exact ⟨by decide, by decide, ⟨writeNat_tokens _, writeOffset_tokens _⟩, by decide, by simp⟩
  | label a => exact writeInt_tokens a
  | name | other => exact h.elim

theorem writeOperand_ne_nil {o : Operand} (h : o.Plain) : writeOperand o ≠ [] := by
  cases o with
  | label a =>
    simp only [writeOperand, writeInt]
    split <;> simp [writeNat_ne_nil]
  | name | other => exact h.elim
  | _ => simp [writeOperand]

theorem head_writeInt {v : Int} {c : Char} {cs : List Char} (h : writeInt v = c :: cs) :
    c = '-' ∨ isDigitChar c = true := by
  unfold writeInt at h
  split_ifs at h
  · exact .inl (List.cons.inj h).1.symm
  · exact .inr (writeNat_digits v.natAbs c (by simp [h]))

/-- A text that begins with no register letter is no register. -/
theorem readRegister_writeInt (v : Int) : readRegister (writeInt v) = none := by
  unfold readRegister
  split
  case h_5 => rfl
  all_goals
    rename_i hc
    exact absurd (head_writeInt hc) (by decide)

theorem readBracketed_writeInt (v : Int) : readBracketed (writeInt v) = none := by
  unfold readBracketed
  split
  · rename_i hc
    exact absurd (head_writeInt hc) (by decide)
  · rfl

/-- R89: the base is read up to the sign of the offset. -/
theorem readMemInside_base_offset (b : Nat) (o : Int) :
    readMemInside ('R' :: (writeNat b ++ writeOffset o)) = some (.mem b o) := by
  have hsign : isDigitChar (if o < 0 then '-' else '+') = false := by split <;> decide
  have htake : (writeNat b ++ writeOffset o).takeWhile isDigitChar = writeNat b := by
    rw [List.takeWhile_append_of_pos (writeNat_digits b), writeOffset, List.takeWhile_cons_of_neg (by simp [hsign]),
      List.append_nil]
  have hdrop : (writeNat b ++ writeOffset o).dropWhile isDigitChar = writeOffset o := by
    rw [List.dropWhile_append_of_pos (writeNat_digits b), writeOffset, List.dropWhile_cons_of_neg (by simp [hsign])]
  simp [readMemInside, htake, hdrop]

theorem readBracketed_brackets (inside : List Char) : readBracketed ('[' :: (inside ++ [']'])) = readMemInside inside := by
  simp [readBracketed]

theorem readOperand_writeOperand {o : Operand} (h : o.Plain) : readOperand (writeOperand o) = o := by
  cases o with
  | r k | d k | q k | x k => simp [readOperand, writeOperand, readRegister]
  | mem b o =>
    have hreg : readRegister (writeOperand (.mem b o)) = none := rfl
    have hmem : readBracketed (writeOperand (.mem b o)) = some (.mem b o) :=
      (readBracketed_brackets ('R' :: (writeNat b ++ writeOffset o))).trans (readMemInside_base_offset b o)
    rw [readOperand, hreg, hmem]
  | label a => simp [readOperand, writeOperand, readRegister_writeInt, readBracketed_writeInt]
  | name | other => exact h.elim

/-! ## The operands of a line -/

theorem writeOperands_cons_cons (o o' : Operand) (more : List Operand) :
    writeOperands (o :: o' :: more) = writeOperand o ++ (',' :: ' ' :: writeOperands (o' :: more)) := rfl

theorem readOperands_nil : readOperands [] = [] := rfl

theorem splitCommas_of_no_comma {cs : List Char} (h : ∀ c ∈ cs, c ≠ ',') : splitCommas cs = [cs] := by
  induction cs with
  | nil => rfl
  | cons c cs ih =>
    obtain ⟨hc, hcs⟩ := List.forall_mem_cons.mp h
    simp [splitCommas, hc, ih hcs]

theorem splitCommas_append_comma {cs : List Char} (h : ∀ c ∈ cs, c ≠ ',') (rest : List Char) :
    splitCommas (cs ++ ',' :: rest) = cs :: splitCommas rest := by
  induction cs with
  | nil => simp [splitCommas]
  | cons c cs ih =>
    obtain ⟨hc, hcs⟩ := List.forall_mem_cons.mp h
    simp [splitCommas, hc, ih hcs]

theorem trimmed_writeOperand {o : Operand} (h : o.Plain) : Trimmed (writeOperand o) :=
  trimmed_of_tokens (writeOperand_tokens h)

theorem writeOperands_trimmed {ops : List Operand} (h : ∀ o ∈ ops, o.Plain) (hne : ops ≠ []) :
    Trimmed (writeOperands ops) ∧ writeOperands ops ≠ [] := by
  induction ops with
  | nil => exact absurd rfl hne
  | cons o more ih =>
    obtain ⟨ho, hmore⟩ := List.forall_mem_cons.mp h
    cases more with
    | nil => exact ⟨trimmed_writeOperand ho, writeOperand_ne_nil ho⟩
    | cons o' more =>
      obtain ⟨htrim, hne'⟩ := ih hmore (by simp)
      exact ⟨(trimmed_writeOperand ho).append htrim (writeOperand_ne_nil ho) hne' [',', ' '], by simp [writeOperands]⟩

/-- R88: the pieces between the commas are the operands, with blanks before them. -/
theorem splitCommas_writeOperands {w : List Char} (hw : ∀ c ∈ w, c = ' ') {ops : List Operand} (h : ∀ o ∈ ops, o.Plain)
    (hne : ops ≠ []) :
    (splitCommas (w ++ writeOperands ops)).map (fun piece => readOperand (trimBlanks piece)) = ops := by
  have hread : ∀ {w : List Char} {o : Operand}, (∀ c ∈ w, c = ' ') → o.Plain →
      readOperand (trimBlanks (w ++ writeOperand o)) = o := fun hw ho => by
    rw [trimBlanks_append (fun c hc => by rw [hw c hc]; rfl) (trimmed_writeOperand ho), readOperand_writeOperand ho]
  have hcomma : ∀ {w : List Char} {o : Operand}, (∀ c ∈ w, c = ' ') → o.Plain →
      ∀ c ∈ w ++ writeOperand o, c ≠ ',' := fun hw ho c hc => by
    rcases List.mem_append.mp hc with hc | hc
    · rw [hw c hc]; decide
    · exact ne_comma_of_token (writeOperand_tokens ho c hc)
  induction ops generalizing w with
  | nil => exact absurd rfl hne
  | cons o more ih =>
    obtain ⟨ho, hmore⟩ := List.forall_mem_cons.mp h
    cases more with
    | nil =>
      rw [writeOperands, splitCommas_of_no_comma (hcomma hw ho), List.map_singleton, hread hw ho]
    | cons o' more =>
      rw [writeOperands_cons_cons, ← List.append_assoc, splitCommas_append_comma (hcomma hw ho), List.map_cons, hread hw ho]
      exact congrArg (o :: ·) (ih (w := [' ']) (by simp) hmore (by simp))

theorem readOperands_writeOperands {ops : List Operand} (h : ∀ o ∈ ops, o.Plain) (hne : ops ≠ []) :
    readOperands (' ' :: writeOperands ops) = ops := by
  obtain ⟨htrim, hne'⟩ := writeOperands_trimmed h hne
  have ht : trimBlanks (' ' :: writeOperands ops) = writeOperands ops :=
    trimBlanks_append (w := [' ']) (by simp [isBlank]) htrim
  rw [readOperands, ht, if_neg (by simpa using hne')]
  exact splitCommas_writeOperands (w := []) (by simp) h hne

/-! ## The whole line -/

theorem writeOperands_line {ops : List Operand} (h : ∀ o ∈ ops, o.Plain) :
    ∀ c ∈ writeOperands ops, isLineChar c = true := by
  induction ops with
  | nil => simp [writeOperands]
  | cons o more ih =>
    obtain ⟨ho, hmore⟩ := List.forall_mem_cons.mp h
    have hline : ∀ c ∈ writeOperand o, isLineChar c = true := fun c hc =>
      isLineChar_of_token (writeOperand_tokens ho c hc)
    cases more with
    | nil => exact hline
    | cons o' more =>
      simp only [writeOperands_cons_cons, List.forall_mem_append, List.forall_mem_cons]
      exact ⟨hline, by decide, by decide, ih hmore⟩

/-- A term whose text can be read back: a mnemonic without blanks, and operands that stand for themselves. -/
structure Term.Writable (t : Term) : Prop where
  mnemonic_tokens : ∀ c ∈ t.mnemonic, isTokenChar c = true
  mnemonic_ne_nil : t.mnemonic ≠ []
  operands_plain : ∀ o ∈ t.operands, o.Plain

theorem writeTerm_line {t : Term} (h : t.Writable) : ∀ c ∈ writeTerm t, isLineChar c = true := by
  have hmn : ∀ c ∈ t.mnemonic, isLineChar c = true := fun c hc => isLineChar_of_token (h.mnemonic_tokens c hc)
  unfold writeTerm
  split_ifs
  · exact hmn
  · simp only [List.forall_mem_append, List.forall_mem_cons]
    exact ⟨hmn, by decide, writeOperands_line h.operands_plain⟩

theorem writeTerm_trimmed {t : Term} (h : t.Writable) : Trimmed (writeTerm t) := by
  have hmn := trimmed_of_tokens h.mnemonic_tokens
  unfold writeTerm
  split_ifs with hops
  · exact hmn
  · obtain ⟨htrim, hne⟩ := writeOperands_trimmed h.operands_plain (by simpa using hops)
    exact hmn.append htrim h.mnemonic_ne_nil hne [' ']

/-- R88: a text without comment and label is its own body. -/
theorem lineBody_of_line {cs : List Char} (h : ∀ c ∈ cs, isLineChar c = true) (ht : Trimmed cs) : lineBody cs = cs := by
  have hcomment : dropComment cs = cs :=
    List.takeWhile_eq_self_iff.mpr fun c hc => by simpa using ne_semicolon_of_line (h c hc)
  have hlabel : (cs.any fun c => c == ':') = false :=
    List.any_eq_false.mpr fun c hc => by simpa using ne_colon_of_line (h c hc)
  rw [lineBody, hcomment, hlabel]
  exact trimBlanks_of_trimmed ht

/-- R81, R88: the term of the line written is the term. -/
theorem readTerm_writeTerm {t : Term} (h : t.Writable) : readTerm (writeTerm t) = t := by
  have hbody := lineBody_of_line (writeTerm_line h) (writeTerm_trimmed h)
  have hmn : ∀ c ∈ t.mnemonic, (!isBlank c) = true := fun c hc => by rw [isBlank_of_token (h.mnemonic_tokens c hc)]; rfl
  have hblank : ¬ (fun c => !isBlank c) ' ' = true := by decide
  unfold readTerm
  rw [hbody, writeTerm]
  split_ifs with hops
  · rw [List.takeWhile_eq_self_iff.mpr hmn, List.dropWhile_eq_nil_iff.mpr hmn, readOperands_nil,
      ← List.isEmpty_iff.mp hops]
  · have hne : t.operands ≠ [] := by simpa using hops
    rw [List.takeWhile_append_of_pos hmn, List.dropWhile_append_of_pos hmn,
      List.takeWhile_cons_of_neg (p := fun c => !isBlank c) hblank,
      List.dropWhile_cons_of_neg (p := fun c => !isBlank c) hblank, List.append_nil,
      readOperands_writeOperands h.operands_plain hne]

/-- Log entry 1: the bytes of a line are the line. -/
theorem textOfBytes_bytesOfText {cs : List Char} (h : ∀ c ∈ cs, isLineChar c = true) :
    textOfBytes (bytesOfText cs) = cs := by
  have hbyte : ∀ c ∈ cs, (BitVec.ofNat 8 c.toNat).toNat = c.toNat := fun c hc => by
    obtain ⟨-, hlt⟩ := ascii_of_line (h c hc)
    rw [BitVec.toNat_ofNat]
    omega
  have hnul : ∀ b ∈ bytesOfText cs, (b != 0) = true := fun b hb => by
    obtain ⟨c, hc, rfl⟩ := List.mem_map.mp hb
    have hpos := (ascii_of_line (h c hc)).1
    rw [bne_iff_ne]
    intro hzero
    have hz := congrArg BitVec.toNat hzero
    rw [hbyte c hc] at hz
    exact absurd hz (Nat.ne_of_gt hpos)
  rw [textOfBytes, List.takeWhile_eq_self_iff.mpr hnul, bytesOfText, List.map_map]
  refine (List.map_congr_left fun c hc => ?_).trans (List.map_id cs)
  rw [Function.comp_apply, hbyte c hc, Char.ofNat_toNat]
  rfl

/-! ## The instructions -/

theorem mnemonic_tokens (i : Instr) : ∀ c ∈ i.mnemonic, isTokenChar c = true := by
  have hall : i.mnemonic.all isTokenChar = true := by cases i <;> rfl
  exact List.all_eq_true.mp hall

theorem mnemonic_ne_nil (i : Instr) : i.mnemonic ≠ [] := by
  cases i <;> exact List.cons_ne_nil _ _

theorem operands_plain (i : Instr) : ∀ o ∈ i.operands, o.Plain := by
  cases i <;> simp [Instr.operands, Operand.Plain]

theorem encode_writable (i : Instr) : (encode i).Writable := ⟨mnemonic_tokens i, mnemonic_ne_nil i, operands_plain i⟩

/-- R81, R82, R84, R90: the family of one lemma a constructor, put together. -/
theorem decode_encode (i : Instr) (hw : i.wf = true) : decode (encode i) = .ok i := by
  cases i with
  | add14 rd rs1 rs2 => exact Laws.DecodeEncode.add14 rd rs1 rs2 hw
  | sub14 rd rs1 rs2 => exact Laws.DecodeEncode.sub14 rd rs1 rs2 hw
  | mul14 rd rs1 rs2 => exact Laws.DecodeEncode.mul14 rd rs1 rs2 hw
  | div14 rd rs1 rs2 => exact Laws.DecodeEncode.div14 rd rs1 rs2 hw
  | extend14 xd rs => exact Laws.DecodeEncode.extend14 xd rs hw
  | trunc16 rd xs => exact Laws.DecodeEncode.trunc16 rd xs hw
  | add28 dd ds1 ds2 => exact Laws.DecodeEncode.add28 dd ds1 ds2 hw
  | sub28 dd ds1 ds2 => exact Laws.DecodeEncode.sub28 dd ds1 ds2 hw
  | mul28 dd ds1 ds2 => exact Laws.DecodeEncode.mul28 dd ds1 ds2 hw
  | div28 dd ds1 ds2 => exact Laws.DecodeEncode.div28 dd ds1 ds2 hw
  | neg28 dd ds => exact Laws.DecodeEncode.neg28 dd ds hw
  | cmp28 ds1 ds2 => exact Laws.DecodeEncode.cmp28 ds1 ds2 hw
  | tst28 ds => exact Laws.DecodeEncode.tst28 ds hw
  | load28 dd m => exact Laws.DecodeEncode.load28 dd m hw
  | store28 m ds => exact Laws.DecodeEncode.store28 m ds hw
  | split28 rdHi rdLo ds => exact Laws.DecodeEncode.split28 rdHi rdLo ds hw
  | join28 dd rsHi rsLo => exact Laws.DecodeEncode.join28 dd rsHi rsLo hw
  | macc28 ds1 ds2 => exact Laws.DecodeEncode.macc28 ds1 ds2 hw
  | msub28 ds1 ds2 => exact Laws.DecodeEncode.msub28 ds1 ds2 hw
  | getacc28Hi dd => exact Laws.DecodeEncode.getacc28Hi dd hw
  | getacc28Lo dd => exact Laws.DecodeEncode.getacc28Lo dd hw
  | clracc => exact Laws.DecodeEncode.clracc hw
  | add56 qd qs1 qs2 => exact Laws.DecodeEncode.add56 qd qs1 qs2 hw
  | sub56 qd qs1 qs2 => exact Laws.DecodeEncode.sub56 qd qs1 qs2 hw
  | mul56 qd qs1 qs2 => exact Laws.DecodeEncode.mul56 qd qs1 qs2 hw
  | div56 qd qs1 qs2 => exact Laws.DecodeEncode.div56 qd qs1 qs2 hw
  | neg56 qd qs => exact Laws.DecodeEncode.neg56 qd qs hw
  | b128ToP56 qd m => exact Laws.DecodeEncode.b128ToP56 qd m hw
  | p56ToB128 m qs => exact Laws.DecodeEncode.p56ToB128 m qs hw
  | p56ToB128Sat m qs => exact Laws.DecodeEncode.p56ToB128Sat m qs hw
  | cmp56 qs1 qs2 => exact Laws.DecodeEncode.cmp56 qs1 qs2 hw
  | tst56 qs => exact Laws.DecodeEncode.tst56 qs hw
  | load56 qd m => exact Laws.DecodeEncode.load56 qd m hw
  | store56 m qs => exact Laws.DecodeEncode.store56 m qs hw
  | macc56 qs1 qs2 => exact Laws.DecodeEncode.macc56 qs1 qs2 hw
  | msub56 qs1 qs2 => exact Laws.DecodeEncode.msub56 qs1 qs2 hw
  | getacc56Hi qd => exact Laws.DecodeEncode.getacc56Hi qd hw
  | getacc56Lo qd => exact Laws.DecodeEncode.getacc56Lo qd hw
  | clracc112 => exact Laws.DecodeEncode.clracc112 hw
  | addMix dd xs rt => exact Laws.DecodeEncode.addMix dd xs rt hw
  | adds14 rd rs1 rs2 => exact Laws.DecodeEncode.adds14 rd rs1 rs2 hw
  | adds28 dd ds1 ds2 => exact Laws.DecodeEncode.adds28 dd ds1 ds2 hw
  | sext14To28 dd rs => exact Laws.DecodeEncode.sext14To28 dd rs hw
  | sext14To56 qd rs => exact Laws.DecodeEncode.sext14To56 qd rs hw
  | sext28To56 qd ds => exact Laws.DecodeEncode.sext28To56 qd ds hw
  | trunc28To14 rd ds => exact Laws.DecodeEncode.trunc28To14 rd ds hw
  | trunc56To28 dd qs => exact Laws.DecodeEncode.trunc56To28 dd qs hw
  | trunc56To14 rd qs => exact Laws.DecodeEncode.trunc56To14 rd qs hw
  | p56TruncB128 qd qs => exact Laws.DecodeEncode.p56TruncB128 qd qs hw
  | p28TruncB64 dd ds => exact Laws.DecodeEncode.p28TruncB64 dd ds hw
  | p14TruncB32 rd rs => exact Laws.DecodeEncode.p14TruncB32 rd rs hw
  | add28c dd ds1 ds2 => exact Laws.DecodeEncode.add28c dd ds1 ds2 hw
  | addc28 dd ds1 ds2 => exact Laws.DecodeEncode.addc28 dd ds1 ds2 hw
  | ovfchk14 rd rs1 rs2 => exact Laws.DecodeEncode.ovfchk14 rd rs1 rs2 hw
  | ovfchk28 dd ds1 ds2 => exact Laws.DecodeEncode.ovfchk28 dd ds1 ds2 hw
  | loadu28 dd m => exact Laws.DecodeEncode.loadu28 dd m hw
  | storeu28 m ds => exact Laws.DecodeEncode.storeu28 m ds hw
  | loadu56 qd m => exact Laws.DecodeEncode.loadu56 qd m hw
  | storeu56 m qs => exact Laws.DecodeEncode.storeu56 m qs hw
  | bvs target => exact Laws.DecodeEncode.bvs target hw

/-- Settles O57: the line and the bytes of an instruction are read back to its term, which decodes to it. -/
theorem assemblerTextRoundTrips : Obligations.AssemblerTextRoundTrips := by
  intro i hw
  have htext : decodeText (encodeText i) = .ok i := by
    rw [decodeText, encodeText, readTerm_writeTerm (encode_writable i), decode_encode i hw]
  refine ⟨htext, ?_⟩
  rw [decodeBytes, encodeBytes, encodeText, textOfBytes_bytesOfText (writeTerm_line (encode_writable i))]
  exact htext

end Sys2Proof
end

section
/-! The decoder loses nothing (30_encoding.md rules R81, R82, R84, R90): what each reader accepts is what the encoder writes. -/

namespace Sys2Proof

/-! ## The operand classes -/

/-- A reader of one operand that accepts only the operand it stands for. -/
def ClassSound {α : Type} (read : Operand → Except Check α) (write : α → Operand) : Prop :=
  ∀ o a, read o = .ok a → o = write a

theorem readIndex_ok {n k : Nat} {c : Check} {i : Fin n} (h : readIndex n c k = .ok i) : k = i.val := by
  unfold readIndex at h
  split_ifs at h with hk
  exact congrArg Fin.val (Except.ok.inj h)

theorem readClassR_sound : ClassSound readClassR fun k => .r k.val := fun o a h => by
  cases o with
  | r k => exact congrArg Operand.r (readIndex_ok h)
  | _ => exact nomatch h

theorem readClassD_sound : ClassSound readClassD fun k => .d k.val := fun o a h => by
  cases o with
  | d k => exact congrArg Operand.d (readIndex_ok h)
  | _ => exact nomatch h

theorem readClassQ_sound : ClassSound readClassQ fun k => .q k.val := fun o a h => by
  cases o with
  | q k => exact congrArg Operand.q (readIndex_ok h)
  | _ => exact nomatch h

theorem readClassX_sound : ClassSound readClassX fun k => .x k.val := fun o a h => by
  cases o with
  | x k => exact congrArg Operand.x (readIndex_ok h)
  | _ => exact nomatch h

/-- The value of a reading that continues another. -/
theorem bind_ok {α β : Type} {x : Except Check α} {f : α → Except Check β} {b : β} (h : x.bind f = .ok b) :
    ∃ a, x = .ok a ∧ f a = .ok b := by
  cases x with
  | error c => exact nomatch h
  | ok a => exact ⟨a, rfl, h⟩

theorem readClassM_sound : ClassSound readClassM fun m => .mem m.base.val m.offset := fun o a h => by
  cases o with
  | mem base offset =>
    obtain ⟨b, hb, hm⟩ := bind_ok h
    obtain rfl := Except.ok.inj hm
    exact congrArg (Operand.mem · offset) (readIndex_ok hb)
  | _ => exact nomatch h

theorem readClassL_sound : ClassSound readClassL .label := fun o a h => by
  cases o with
  | label address => exact congrArg Operand.label (Except.ok.inj h)
  | _ => exact nomatch h

/-! ## The formats -/

/-- A row of the instruction table whose reader accepts only the operands of the instruction it answers, under the
instruction's own mnemonic. -/
def RowSound (row : List Char × (List Operand → Except Check Instr)) : Prop :=
  ∀ ops i, row.2 ops = .ok i → i.mnemonic = row.1 ∧ i.operands = ops

section

variable {α β γ : Type} {fa : Operand → Except Check α} {fb : Operand → Except Check β} {fc : Operand → Except Check γ}
  {wa : α → Operand} {wb : β → Operand} {wc : γ → Operand} {name : List Char}

theorem readFormat0_sound {k : Instr} (hk : k.mnemonic = name ∧ k.operands = []) : RowSound (name, readFormat0 k) :=
  fun ops i h => by
    cases ops with
    | nil => exact Except.ok.inj h ▸ hk
    | cons => exact nomatch h

theorem readFormat1_sound {k : α → Instr} (ha : ClassSound fa wa)
    (hk : ∀ a, (k a).mnemonic = name ∧ (k a).operands = [wa a]) : RowSound (name, readFormat1 fa k) := fun ops i h => by
  match ops, h with
  | [a], h =>
    obtain ⟨x, hx, h⟩ := bind_ok h
    obtain rfl := Except.ok.inj h
    rw [ha a x hx]
    exact hk x

theorem readFormat2_sound {k : α → β → Instr} (ha : ClassSound fa wa) (hb : ClassSound fb wb)
    (hk : ∀ a b, (k a b).mnemonic = name ∧ (k a b).operands = [wa a, wb b]) : RowSound (name, readFormat2 fa fb k) :=
  fun ops i h => by
    match ops, h with
    | [a, b], h =>
      obtain ⟨x, hx, h⟩ := bind_ok h
      obtain ⟨y, hy, h⟩ := bind_ok h
      obtain rfl := Except.ok.inj h
      rw [ha a x hx, hb b y hy]
      exact hk x y

theorem readFormat3_sound {k : α → β → γ → Instr} (ha : ClassSound fa wa) (hb : ClassSound fb wb) (hc : ClassSound fc wc)
    (hk : ∀ a b c, (k a b c).mnemonic = name ∧ (k a b c).operands = [wa a, wb b, wc c]) :
    RowSound (name, readFormat3 fa fb fc k) := fun ops i h => by
  match ops, h with
  | [a, b, c], h =>
    obtain ⟨x, hx, h⟩ := bind_ok h
    obtain ⟨y, hy, h⟩ := bind_ok h
    obtain ⟨z, hz, h⟩ := bind_ok h
    obtain rfl := Except.ok.inj h
    rw [ha a x hx, hb b y hy, hc c z hz]
    exact hk x y z

end

/-! ## The table -/

/-- R84, row by row in the order of the table. -/
theorem instrTable_sound : ∀ row ∈ instrTable, RowSound row := by
  simp only [instrTable, List.forall_mem_cons]
  exact ⟨readFormat3_sound readClassR_sound readClassR_sound readClassR_sound fun _ _ _ => ⟨rfl, rfl⟩,
    readFormat3_sound readClassR_sound readClassR_sound readClassR_sound fun _ _ _ => ⟨rfl, rfl⟩,
    readFormat3_sound readClassR_sound readClassR_sound readClassR_sound fun _ _ _ => ⟨rfl, rfl⟩,
    readFormat3_sound readClassR_sound readClassR_sound readClassR_sound fun _ _ _ => ⟨rfl, rfl⟩,
    readFormat2_sound readClassX_sound readClassR_sound fun _ _ => ⟨rfl, rfl⟩,
    readFormat2_sound readClassR_sound readClassX_sound fun _ _ => ⟨rfl, rfl⟩,
    readFormat3_sound readClassD_sound readClassD_sound readClassD_sound fun _ _ _ => ⟨rfl, rfl⟩,
    readFormat3_sound readClassD_sound readClassD_sound readClassD_sound fun _ _ _ => ⟨rfl, rfl⟩,
    readFormat3_sound readClassD_sound readClassD_sound readClassD_sound fun _ _ _ => ⟨rfl, rfl⟩,
    readFormat3_sound readClassD_sound readClassD_sound readClassD_sound fun _ _ _ => ⟨rfl, rfl⟩,
    readFormat2_sound readClassD_sound readClassD_sound fun _ _ => ⟨rfl, rfl⟩,
    readFormat2_sound readClassD_sound readClassD_sound fun _ _ => ⟨rfl, rfl⟩,
    readFormat1_sound readClassD_sound fun _ => ⟨rfl, rfl⟩,
    readFormat2_sound readClassD_sound readClassM_sound fun _ _ => ⟨rfl, rfl⟩,
    readFormat2_sound readClassM_sound readClassD_sound fun _ _ => ⟨rfl, rfl⟩,
    readFormat3_sound readClassR_sound readClassR_sound readClassD_sound fun _ _ _ => ⟨rfl, rfl⟩,
    readFormat3_sound readClassD_sound readClassR_sound readClassR_sound fun _ _ _ => ⟨rfl, rfl⟩,
    readFormat2_sound readClassD_sound readClassD_sound fun _ _ => ⟨rfl, rfl⟩,
    readFormat2_sound readClassD_sound readClassD_sound fun _ _ => ⟨rfl, rfl⟩,
    readFormat1_sound readClassD_sound fun _ => ⟨rfl, rfl⟩,
    readFormat1_sound readClassD_sound fun _ => ⟨rfl, rfl⟩,
    readFormat0_sound ⟨rfl, rfl⟩,
    readFormat3_sound readClassQ_sound readClassQ_sound readClassQ_sound fun _ _ _ => ⟨rfl, rfl⟩,
    readFormat3_sound readClassQ_sound readClassQ_sound readClassQ_sound fun _ _ _ => ⟨rfl, rfl⟩,
    readFormat3_sound readClassQ_sound readClassQ_sound readClassQ_sound fun _ _ _ => ⟨rfl, rfl⟩,
    readFormat3_sound readClassQ_sound readClassQ_sound readClassQ_sound fun _ _ _ => ⟨rfl, rfl⟩,
    readFormat2_sound readClassQ_sound readClassQ_sound fun _ _ => ⟨rfl, rfl⟩,
    readFormat2_sound readClassQ_sound readClassM_sound fun _ _ => ⟨rfl, rfl⟩,
    readFormat2_sound readClassM_sound readClassQ_sound fun _ _ => ⟨rfl, rfl⟩,
    readFormat2_sound readClassM_sound readClassQ_sound fun _ _ => ⟨rfl, rfl⟩,
    readFormat2_sound readClassQ_sound readClassQ_sound fun _ _ => ⟨rfl, rfl⟩,
    readFormat1_sound readClassQ_sound fun _ => ⟨rfl, rfl⟩,
    readFormat2_sound readClassQ_sound readClassM_sound fun _ _ => ⟨rfl, rfl⟩,
    readFormat2_sound readClassM_sound readClassQ_sound fun _ _ => ⟨rfl, rfl⟩,
    readFormat2_sound readClassQ_sound readClassQ_sound fun _ _ => ⟨rfl, rfl⟩,
    readFormat2_sound readClassQ_sound readClassQ_sound fun _ _ => ⟨rfl, rfl⟩,
    readFormat1_sound readClassQ_sound fun _ => ⟨rfl, rfl⟩,
    readFormat1_sound readClassQ_sound fun _ => ⟨rfl, rfl⟩,
    readFormat0_sound ⟨rfl, rfl⟩,
    readFormat3_sound readClassD_sound readClassX_sound readClassR_sound fun _ _ _ => ⟨rfl, rfl⟩,
    readFormat3_sound readClassR_sound readClassR_sound readClassR_sound fun _ _ _ => ⟨rfl, rfl⟩,
    readFormat3_sound readClassD_sound readClassD_sound readClassD_sound fun _ _ _ => ⟨rfl, rfl⟩,
    readFormat2_sound readClassD_sound readClassR_sound fun _ _ => ⟨rfl, rfl⟩,
    readFormat2_sound readClassQ_sound readClassR_sound fun _ _ => ⟨rfl, rfl⟩,
    readFormat2_sound readClassQ_sound readClassD_sound fun _ _ => ⟨rfl, rfl⟩,
    readFormat2_sound readClassR_sound readClassD_sound fun _ _ => ⟨rfl, rfl⟩,
    readFormat2_sound readClassD_sound readClassQ_sound fun _ _ => ⟨rfl, rfl⟩,
    readFormat2_sound readClassR_sound readClassQ_sound fun _ _ => ⟨rfl, rfl⟩,
    readFormat2_sound readClassQ_sound readClassQ_sound fun _ _ => ⟨rfl, rfl⟩,
    readFormat2_sound readClassD_sound readClassD_sound fun _ _ => ⟨rfl, rfl⟩,
    readFormat2_sound readClassR_sound readClassR_sound fun _ _ => ⟨rfl, rfl⟩,
    readFormat3_sound readClassD_sound readClassD_sound readClassD_sound fun _ _ _ => ⟨rfl, rfl⟩,
    readFormat3_sound readClassD_sound readClassD_sound readClassD_sound fun _ _ _ => ⟨rfl, rfl⟩,
    readFormat3_sound readClassR_sound readClassR_sound readClassR_sound fun _ _ _ => ⟨rfl, rfl⟩,
    readFormat3_sound readClassD_sound readClassD_sound readClassD_sound fun _ _ _ => ⟨rfl, rfl⟩,
    readFormat2_sound readClassD_sound readClassM_sound fun _ _ => ⟨rfl, rfl⟩,
    readFormat2_sound readClassM_sound readClassD_sound fun _ _ => ⟨rfl, rfl⟩,
    readFormat2_sound readClassQ_sound readClassM_sound fun _ _ => ⟨rfl, rfl⟩,
    readFormat2_sound readClassM_sound readClassQ_sound fun _ _ => ⟨rfl, rfl⟩,
    readFormat1_sound readClassL_sound fun _ => ⟨rfl, rfl⟩,
    List.forall_mem_nil _⟩

/-- Everything a term that decodes has passed (R90). -/
theorem decode_ok {t : Term} {i : Instr} (h : decode t = .ok i) :
    ∃ row ∈ instrTable, row.1 = t.mnemonic ∧ row.2 t.operands = .ok i ∧ i.failedCheck = none := by
  unfold decode at h
  split at h
  · exact nomatch h
  · rename_i row hrow
    split at h
    · exact nomatch h
    · rename_i k hk
      split at h
      · exact nomatch h
      · rename_i hw
        obtain rfl := Except.ok.inj h
        exact ⟨row, List.mem_of_find?_eq_some hrow, by simpa using List.find?_some hrow, hk, hw⟩

/-- Settles O58: the row that accepts the term answers an instruction with its mnemonic and its operands, and the decoder makes
the instruction's own check. -/
theorem decodedTermIsTheEncodedOne : Obligations.DecodedTermIsTheEncodedOne := by
  intro t i h
  obtain ⟨row, hrow, hname, hread, hw⟩ := decode_ok h
  obtain ⟨hmn, hops⟩ := instrTable_sound row hrow t.operands i hread
  refine ⟨?_, by rw [Instr.wf, hw]; rfl⟩
  rw [encode, hmn, hname, hops]

end Sys2Proof
end

section
/-! One step by what stands at `pc`, and the runs of an admitted program (10_state.md section 3; 46_branch.md; 60_exceptions.md
section 1; 70_reset_and_hazards.md section 2). -/

namespace Sys2Proof.Machine

variable {s t s₀ : State} {cfg : Config} {prog : List (Int × Term)}

/-! ## One step -/

theorem step_of_finished (h : s.Finished) : step s = .next s := if_pos h

theorem step_of_fetch_none (hfin : ¬ s.Finished) (h : s.fetch = none) : step s = .fault (.noInstruction s.pc.val) := by
  rw [step, if_neg hfin, h]

theorem step_of_decode_ok {e : Term} {i : Instr} (hfin : ¬ s.Finished) (hf : s.fetch = some e) (hd : decode e = .ok i) :
    step s = exec i s := by
  simp only [step, if_neg hfin, hf, hd]

theorem step_of_decode_error {e : Term} {c : Check} (hfin : ¬ s.Finished) (hf : s.fetch = some e)
    (hd : decode e = .error c) : step s = .refused (.notAdmitted c) := by
  simp only [step, if_neg hfin, hf, hd]

/-- Settles O54. -/
theorem stepRunsTheDecodedInstruction : Obligations.StepRunsTheDecodedInstruction :=
  fun _ _ _ hfin hf hd => step_of_decode_ok hfin hf hd

/-- Settles O55, one equation of `step` a case. -/
theorem stepWithoutAnInstruction : Obligations.StepWithoutAnInstruction :=
  fun _ => ⟨step_of_finished, step_of_fetch_none, fun _ _ hfin hf hd => step_of_decode_error hfin hf hd⟩

/-- Settles O56: the five terms are those the encoder writes for their instructions; the four others fail at the mnemonic, at
an index, and at the two checks of an instruction. -/
theorem exampleTermsDecode : Obligations.ExampleTermsDecode :=
  ⟨decode_encode (.add14 3 1 2) rfl, decode_encode (.add28c 0 2 4) rfl, decode_encode (.store28 ⟨8, 32⟩ 3) rfl,
    decode_encode (.p56ToB128 ⟨0, 256⟩ 1) rfl, decode_encode (.addMix 6 5 4) rfl, rfl, rfl, rfl, rfl⟩

/-! ## Admitted programs (R90, R202) -/

theorem decodeProgram_cons {a : Int} {e : Term} {p : Program} (h : decodeProgram ((a, e) :: prog) = .ok p) :
    ∃ i q, decode e = .ok i ∧ decodeProgram prog = .ok q ∧ p = (a, i) :: q := by
  unfold decodeProgram at h
  cases he : decode e with
  | error c => simp [he] at h
  | ok i =>
    cases hq : decodeProgram prog with
    | error c => simp [he, hq] at h
    | ok q => exact ⟨i, q, rfl, rfl, by simpa [he, hq] using h.symm⟩

/-- The decoded program has an instruction wherever the program text has a term, the one the term decodes to. -/
theorem decodeProgram_at {p : Program} (h : decodeProgram prog = .ok p) {a : Int} {e : Term} (he : progAt prog a = some e) :
    ∃ i, decode e = .ok i ∧ (a, i) ∈ p := by
  induction prog generalizing p with
  | nil => exact nomatch he
  | cons row rest ih =>
    obtain ⟨b, u⟩ := row
    obtain ⟨k, q, hu, hrest, rfl⟩ := decodeProgram_cons h
    by_cases hb : b = a
    · subst hb
      obtain rfl : u = e := by simpa [progAt] using he
      exact ⟨k, hu, List.mem_cons_self⟩
    · obtain ⟨i, hi, hmem⟩ := ih hrest (by simpa [progAt, hb] using he)
      exact ⟨i, hi, List.mem_cons_of_mem _ hmem⟩

theorem progAt_of_definedAt {p : Program} (h : decodeProgram prog = .ok p) {a : Int} (ha : p.definedAt a = true) :
    (progAt prog a).isSome = true := by
  induction prog generalizing p with
  | nil =>
    obtain rfl : [] = p := Except.ok.inj h
    exact nomatch ha
  | cons row rest ih =>
    obtain ⟨b, u⟩ := row
    obtain ⟨k, q, hu, hrest, rfl⟩ := decodeProgram_cons h
    by_cases hb : b = a
    · simp [progAt, hb]
    · have hq : q.definedAt a = true := by simpa [Program.definedAt, hb] using ha
      simpa [progAt, hb] using ih hrest hq

/-- The checks of terms and labels that an admitted program has passed. -/
theorem of_admitted (h : failedCheck cfg prog = none) : ∃ p : Program, decodeProgram prog = .ok p ∧
    ∀ e ∈ p, p.labelOk (endAddress cfg prog) e.2 = true := by
  unfold failedCheck at h
  split at h
  · exact nomatch h
  · rename_i p hp
    split at h
    · exact nomatch h
    · rename_i hchecks
      refine ⟨p, hp, fun e he => ?_⟩
      unfold Program.failedCheck at hchecks
      split at hchecks
      · exact nomatch hchecks
      · split_ifs at hchecks with hlabels
        by_contra hno
        exact hlabels (List.any_eq_true.mpr ⟨e, he, by simpa using hno⟩)

/-! ## Runs -/

theorem step_frame (h : step s = .next t) : t.cfg = s.cfg ∧ t.prog = s.prog := stepKeepsConfigurationAndProgram s t h

theorem reaches_frame (h : Reaches s₀ s) : s.cfg = s₀.cfg ∧ s.prog = s₀.prog := by
  induction h with
  | start => exact ⟨rfl, rfl⟩
  | step _ hstep ih =>
    obtain ⟨hcfg, hprog⟩ := step_frame hstep
    exact ⟨hcfg.trans ih.1, hprog.trans ih.2⟩

/-- Every state of a run of an admitted program has the configuration and the program that were loaded and checked. -/
theorem of_load_reaches (hload : load cfg prog = .next s₀) (h : Reaches s₀ s) :
    failedCheck cfg prog = none ∧ s.cfg = cfg ∧ s.prog = prog := by
  obtain ⟨hchecks, rfl⟩ := load_next.mp hload
  obtain ⟨hcfg, hprog⟩ := reaches_frame h
  exact ⟨hchecks, hcfg, hprog⟩

/-- Settles O59: the target passed `label_defined` before the run, and what it was checked against is unchanged. -/
theorem admittedProgramsBranchToInstructions : Obligations.AdmittedProgramsBranchToInstructions := by
  intro cfg prog s₀ s t e target hload hreach hfetch hdecode hv hstep
  rcases step_next hstep with ⟨hfin, rfl⟩ | ⟨e', i, -, hfetch', hdecode', hexec⟩
  · exact .inl hfin
  obtain rfl : e = e' := Option.some.inj (hfetch.symm.trans hfetch')
  obtain rfl : Instr.bvs target = i := Except.ok.inj (hdecode.symm.trans hdecode')
  obtain ⟨hchecks, rfl, rfl⟩ := of_load_reaches hload hreach
  obtain ⟨p, hp, hlabels⟩ := of_admitted hchecks
  obtain ⟨i, hi, hmem⟩ := decodeProgram_at hp hfetch
  obtain rfl : Instr.bvs target = i := Except.ok.inj (hdecode.symm.trans hi)
  have htarget : t.pc.val = target := (pcMovesByIlenOrTakenBranch _ _ _ hexec).1 target rfl hv
  obtain ⟨hcfg, hprog⟩ := step_frame hstep
  have hlabel : p.definedAt target = true ∨ endAddress s.cfg s.prog = some target := by
    simpa [Program.labelOk] using hlabels _ hmem
  rcases hlabel with hdef | hend
  · right
    rw [State.fetch, hprog, htarget]
    exact progAt_of_definedAt hp hdef
  · left
    rw [State.Finished, State.endPC, hcfg, hprog, htarget]
    exact hend

/-- Settles O60: the loader names the check that fails; every term of an admitted program decodes, and a decoded instruction is
well formed, which leaves nothing to refuse. -/
theorem admittedProgramsAreNeverRefused : Obligations.AdmittedProgramsAreNeverRefused := by
  intro cfg prog
  refine ⟨fun c hc => by simp only [load, hc], fun s₀ s r hload hreach hrefused => ?_⟩
  obtain ⟨hchecks, rfl, rfl⟩ := of_load_reaches hload hreach
  obtain ⟨p, hp, -⟩ := of_admitted hchecks
  by_cases hfin : s.Finished
  · rw [step_of_finished hfin] at hrefused
    exact nomatch hrefused
  · cases hf : s.fetch with
    | none =>
      rw [step_of_fetch_none hfin hf] at hrefused
      exact nomatch hrefused
    | some e =>
      obtain ⟨i, hi, -⟩ := decodeProgram_at hp hf
      rw [step_of_decode_ok hfin hf hi] at hrefused
      obtain ⟨c, hc, -⟩ := exec_refused hrefused
      obtain ⟨_, -, -, -, hw⟩ := decode_ok hi
      exact nomatch hw.symm.trans hc

end Sys2Proof.Machine
end

section
/-! The number system (00_scope.md rules R8 to R14; 40_p14.md rule R100 law 5; 43_mixed_and_conversion.md section 5): pents and
values, wrapping, splitting, quotients, and the two's-complement wrap. -/

namespace Sys2Proof.Machine

/-! ## Pents and values (R8, R12, R13) -/

@[simp] theorem valOf_replicate_zero (n : Nat) : valOf (List.replicate n .zero) = 0 := by
  induction n with
  | zero => rfl
  | succ n ih => rw [List.replicate_succ, valOf, ih]; rfl

/-- R12: zero pents above a word keep its value. -/
theorem valOf_append_replicate_zero (w : List Pent) (n : Nat) : valOf (w ++ List.replicate n .zero) = valOf w := by
  rw [valOf_append, valOf_replicate_zero, mul_zero, add_zero]

/-- The low part of a value is too small to change its sign. -/
theorem sgn_low_add_mul {k : Nat} {l h : Int} (hl : Fits k l) (hh : h ≠ 0) : sgn (l + radixPow k * h) = sgn h := by
  have hM := two_maxMag_add_one k
  have hp := radixPow_pos k
  obtain ⟨hlo, hhi⟩ := hl
  unfold sgn
  rcases lt_or_gt_of_ne hh with hneg | hpos
  · have : l + radixPow k * h < 0 := by nlinarith
    rw [if_neg (by omega), if_neg (by omega), if_neg (by omega), if_neg hh]
  · have : l + radixPow k * h > 0 := by nlinarith
    rw [if_pos this, if_pos hpos]

theorem pent_toInt_ne_zero {p : Pent} (h : p ≠ .zero) : p.toInt ≠ 0 := fun h0 => h (pent_toInt_injective h0)

@[simp] theorem pent_toInt_neg (p : Pent) : p.neg.toInt = -p.toInt := by cases p <;> rfl

/-- R13: negating every pent negates the value. -/
theorem valOf_map_neg (w : List Pent) : valOf (w.map Pent.neg) = -valOf w := by
  induction w with
  | nil => rfl
  | cons p ps ih =>
    rw [List.map_cons, valOf, valOf, ih, pent_toInt_neg]
    ring

theorem pents_neg (n : Nat) {v : Int} (h : Fits n v) : pents n (-v) = (pents n v).map Pent.neg := by
  have hw := pents_valOf ((pents n v).map Pent.neg)
  rwa [List.length_map, pents_length, valOf_map_neg, valOf_pents, bal_of_fits h] at hw

/-- The pents of a wrapped value are those of the value. -/
theorem pents_bal (n : Nat) (v : Int) : pents n (bal n v) = pents n v := by
  have hw := pents_valOf (pents n v)
  rwa [pents_length, valOf_pents] at hw

/-- Settles O1: `pents` and `valOf` are inverse, the most significant non-zero pent outweighs the pents below it, and the
laws of negation and extension. -/
theorem pentWordsCorrespondToValues : Obligations.PentWordsCorrespondToValues := by
  intro n
  have hsign : ∀ (w : List Pent) (p : Pent), p ≠ .zero →
      sgn (valOf (w ++ p :: List.replicate n .zero)) = sgn p.toInt := fun w p hp => by
    rw [valOf_append, valOf, valOf_replicate_zero, mul_zero, add_zero,
      sgn_low_add_mul (valOf_fits w) (pent_toInt_ne_zero hp)]
  refine ⟨fun v hv => ⟨pents_length n v, (valOf_pents n v).trans (bal_of_fits hv)⟩, ?_, hsign,
    fun v hv => ⟨neg_fits hv, pents_neg n hv⟩, fun w => valOf_append_replicate_zero w n⟩
  rintro w rfl
  exact ⟨valOf_fits w, pents_valOf w⟩

/-! ## Wrapping and splitting (R10, R11) -/

theorem carry_unique {n : Nat} {v r q : Int} (hr : Fits n r) (h : v = q * radixPow n + r) : carry n v = q :=
  hi_unique hr h

/-- R10, R170: the carry of a sum of two words and a carry says which bound the sum passes. -/
theorem carry_eq_ite {n : Nat} {v : Int} (hlo : -(2 * maxMag n + 1) ≤ v) (hhi : v ≤ 2 * maxMag n + 1) :
    carry n v = if v > maxMag n then 1 else if v < -maxMag n then -1 else 0 := by
  have hM := two_maxMag_add_one n
  split_ifs with habove hbelow
  · exact carry_unique (r := v - radixPow n) ⟨by omega, by omega⟩ (by omega)
  · exact carry_unique (r := v + radixPow n) ⟨by omega, by omega⟩ (by omega)
  · exact carry_unique (r := v) ⟨by omega, by omega⟩ (by omega)

/-- Settles O2. -/
theorem wrapAndCarryAreUnique : Obligations.WrapAndCarryAreUnique := fun n v =>
  ⟨bal_fits n v, (carry_mul_add_bal n v).symm, fun _ _ hr h => ⟨(bal_unique hr h).symm, (carry_unique hr h).symm⟩,
    carry_eq_ite⟩

/-- Settles O3. -/
theorem splitIsASplitOfTheDigitString : Obligations.SplitIsASplitOfTheDigitString := fun j k v =>
  ⟨(hi_mul_add_lo k v).symm, lo_fits k v, fun _ _ hl h => ⟨(hi_unique hl h).symm, (lo_unique hl h).symm⟩, hi_fits,
    (pents_append k j v).trans (congrArg (· ++ pents j (hi k v)) (pents_bal k v).symm)⟩

/-! ## Quotients (R100 law 5) -/

theorem sgn_toInt (v : Int) : (sgn v).toInt = v.sign := by
  unfold sgn
  split_ifs with hpos hzero
  · exact (Int.sign_eq_one_of_pos hpos).symm
  · rw [hzero]; rfl
  · exact (Int.sign_eq_neg_one_of_neg (by omega)).symm

/-- Truncation toward zero is the library's. -/
theorem truncQuotient_eq_tdiv (a b : Int) : truncQuotient a b = a.tdiv b := by
  rw [truncQuotient, sgn_toInt, sgn_toInt, ← Int.sign_mul_natAbs (a.tdiv b), Int.natAbs_tdiv, Int.sign_tdiv]
  split_ifs with h
  · rw [Nat.div_eq_of_lt h, zero_mul, Int.natCast_zero, mul_zero]
  · rfl

/-- An exact division has the exact quotient, whichever rule holds. -/
theorem divQ_of_dvd (rule : QuotientRule) {a b : Int} (h : b ∣ a) : divQ rule a b = a.tdiv b := by
  cases rule with
  | truncate => exact truncQuotient_eq_tdiv a b
  | free k => rw [divQ, if_pos (Int.emod_eq_zero_of_dvd h), truncQuotient_eq_tdiv]

/-- Settles O4. -/
theorem quotientBoundAndExactness : Obligations.QuotientBoundAndExactness := fun rule a b _ =>
  ⟨divQ_natAbs_le rule a b, fun h => (congrArg (· * b) (divQ_of_dvd rule h)).trans (Int.tdiv_mul_cancel h),
    truncQuotient_eq_tdiv a b⟩

/-! ## The two's-complement wrap (R159 to R161) -/

theorem binWrap_bounds {m : Nat} (hm : 0 < m) (v : Int) :
    -(2 ^ (m - 1)) ≤ binWrap m v ∧ binWrap m v ≤ 2 ^ (m - 1) - 1 := by
  obtain ⟨k, rfl⟩ := Nat.exists_eq_succ_of_ne_zero hm.ne'
  have hpos : (0 : Int) < 2 ^ (k + 1) := by positivity
  have hlo := Int.emod_nonneg (v + 2 ^ k) hpos.ne'
  have hhi := Int.emod_lt_of_pos (v + 2 ^ k) hpos
  have hpow : (2 : Int) ^ (k + 1) = 2 * 2 ^ k := pow_succ' 2 k
  simp only [binWrap, Nat.succ_eq_add_one, Nat.add_sub_cancel]
  omega

theorem dvd_sub_binWrap (m : Nat) (v : Int) : (2 : Int) ^ m ∣ v - binWrap m v := by
  have h : v - binWrap m v = (v + 2 ^ (m - 1)) - (v + 2 ^ (m - 1)) % 2 ^ m := by unfold binWrap; ring
  rw [h]
  exact Int.dvd_self_sub_emod

/-- A wrapped value fits every width whose range holds the binary range. -/
theorem bal_binWrap {m n : Nat} (hm : 0 < m) (hn : (2 : Int) ^ (m - 1) ≤ maxMag n) (v : Int) :
    bal n (binWrap m v) = binWrap m v := by
  obtain ⟨hlo, hhi⟩ := binWrap_bounds hm v
  exact bal_of_fits ⟨by omega, by omega⟩

/-- Settles O49. -/
theorem defaultBinaryTruncationIsTheWrap : Obligations.DefaultBinaryTruncationIsTheWrap := by
  intro m v hm
  obtain ⟨hlo, hhi⟩ := binWrap_bounds hm v
  exact ⟨hlo, hhi, dvd_sub_binWrap m v, bal_binWrap (by decide) (by decide +kernel) v,
    bal_binWrap (by decide) (by decide +kernel) v, bal_binWrap (by decide) (by decide +kernel) v⟩

end Sys2Proof.Machine
end

section
/-! The views of the registers (10_state.md sections 2, 4 and 9): pairs and quads as names of general registers, the P16 file,
and what reset leaves. -/

namespace Sys2Proof.Machine

/-! ## Pairs (R24, R26) -/

@[simp] theorem high_val (k : DIdx) : k.high.val = 2 * k.val + 1 := rfl

@[simp] theorem low_val (k : DIdx) : k.low.val = 2 * k.val := rfl

theorem low_eq_zero {k : DIdx} : k.low = 0 ↔ k = 0 := by
  rw [Fin.ext_iff, Fin.ext_iff, low_val, Fin.val_zero, Fin.val_zero]
  omega

/-- R24, R26: a pair reads back as written, but D0 keeps only the high word. -/
theorem readD_writeD (s : State) (k : DIdx) {v : Int} (hv : Fits 28 v) :
    (s.writeD k v).readD k = if k = 0 then hi 14 v * radixPow 14 else v := by
  have hhi : bal 14 (hi 14 v) = hi 14 v := bal_of_fits (hi_fits (j := 14) (k := 14) hv)
  have hhigh : (s.writeD k v).readR k.high = hi 14 v := by rw [readR_writeD, if_pos (high_val k), hhi]
  rw [State.readD, hhigh]
  split_ifs with hk
  · subst hk
    exact add_zero _
  · have hlow : (s.writeD k v).readR k.low = lo 14 v := by
      rw [readR_writeD, if_neg (by rw [low_val]; omega), if_pos ⟨low_val k, mt low_eq_zero.mp hk⟩]
    rw [hlow, hi_mul_add_lo]

theorem readD_writeD_same (s : State) {k : DIdx} (hk : k ≠ 0) {v : Int} (hv : Fits 28 v) : (s.writeD k v).readD k = v := by
  rw [readD_writeD s k hv, if_neg hk]

theorem readD_writeD_of_ne (s : State) {j k : DIdx} (h : j ≠ k) (v : Int) : (s.writeD k v).readD j = s.readD j := by
  have hne : j.val ≠ k.val := fun hv => h (Fin.ext hv)
  have hhigh : (s.writeD k v).readR j.high = s.readR j.high := by
    rw [readR_writeD, if_neg (by rw [high_val]; omega), if_neg (by rw [high_val]; omega)]
  have hlow : (s.writeD k v).readR j.low = s.readR j.low := by
    rw [readR_writeD, if_neg (by rw [low_val]; omega), if_neg (by rw [low_val]; omega)]
  rw [State.readD, State.readD, hhigh, hlow]

theorem view_writeD_of_fits (s : State) (k : DIdx) {v : Int} (hv : Fits 28 v) : (s.writeD k v).view = s.view.withD k v := by
  rw [view_writeD, bal_of_fits hv]

/-- Settles O6. -/
theorem pairViewsAliasTheRegisters : Obligations.PairViewsAliasTheRegisters := fun s k =>
  ⟨rfl, readD_fits s k, fun _ hv => ⟨view_writeD_of_fits s k hv, readD_writeD s k hv⟩⟩

/-! ## Quads (R25, R26) -/

@[simp] theorem qhigh_val (k : QIdx) : k.high.val = 2 * k.val + 1 := rfl

@[simp] theorem qlow_val (k : QIdx) : k.low.val = 2 * k.val := rfl

theorem qhigh_ne_zero (k : QIdx) : k.high ≠ 0 := by
  rw [Ne, Fin.ext_iff, qhigh_val, Fin.val_zero]
  omega

theorem qlow_eq_zero {k : QIdx} : k.low = 0 ↔ k = 0 := by
  rw [Fin.ext_iff, Fin.ext_iff, qlow_val, Fin.val_zero, Fin.val_zero]
  omega

theorem qlow_ne_qhigh (j k : QIdx) : j.low ≠ k.high := by
  rw [Ne, Fin.ext_iff, qlow_val, qhigh_val]
  omega

theorem qlow_injective {j k : QIdx} (h : j ≠ k) : j.low ≠ k.low := fun he =>
  h (Fin.ext (by rw [Fin.ext_iff, qlow_val, qlow_val] at he; omega))

theorem qhigh_injective {j k : QIdx} (h : j ≠ k) : j.high ≠ k.high := fun he =>
  h (Fin.ext (by rw [Fin.ext_iff, qhigh_val, qhigh_val] at he; omega))

/-- R25: the four words of a quad. -/
theorem readQ_eq_words (s : State) (k : QIdx) :
    s.readQ k = s.readR k.high.high * radixPow 42 + s.readR k.high.low * radixPow 28 +
      s.readR k.low.high * radixPow 14 + s.readR k.low.low := by
  have h42 : radixPow 42 = radixPow 14 * radixPow 28 := radixPow_add 14 28
  rw [State.readQ, State.readD, State.readD, h42]
  ring

/-- R25, R26: a quad reads back as written, but Q0 drops its lowest word. -/
theorem readQ_writeQ (s : State) (k : QIdx) {v : Int} (hv : Fits 56 v) :
    (s.writeQ k v).readQ k = if k = 0 then v - lo 14 v else v := by
  have hhigh : (s.writeQ k v).readD k.high = hi 28 v :=
    readD_writeD_same _ (qhigh_ne_zero k) (hi_fits (j := 28) (k := 28) hv)
  have hlow : (s.writeQ k v).readD k.low = if k.low = 0 then hi 14 (lo 28 v) * radixPow 14 else lo 28 v := by
    rw [State.writeQ, readD_writeD_of_ne _ (qlow_ne_qhigh k k), readD_writeD s k.low (lo_fits 28 v)]
  have hsplit := hi_mul_add_lo 28 v
  rw [State.readQ, hhigh, hlow]
  simp only [qlow_eq_zero]
  split_ifs
  · have hlo : lo 14 (lo 28 v) = lo 14 v := lo_bal 14 14 v
    have hsplit' := hi_mul_add_lo 14 (lo 28 v)
    omega
  · exact hsplit

theorem readQ_writeQ_same (s : State) {k : QIdx} (hk : k ≠ 0) {v : Int} (hv : Fits 56 v) : (s.writeQ k v).readQ k = v := by
  rw [readQ_writeQ s k hv, if_neg hk]

theorem readQ_writeQ_of_ne (s : State) {j k : QIdx} (h : j ≠ k) (v : Int) : (s.writeQ k v).readQ j = s.readQ j := by
  rw [State.readQ, State.readQ, State.writeQ, readD_writeD_of_ne _ (qhigh_injective h),
    readD_writeD_of_ne _ (qlow_ne_qhigh k j).symm, readD_writeD_of_ne _ (qlow_ne_qhigh j k),
    readD_writeD_of_ne _ (qlow_injective h)]

theorem view_writeQ_of_fits (s : State) (k : QIdx) {v : Int} (hv : Fits 56 v) : (s.writeQ k v).view = s.view.withQ k v := by
  rw [view_writeQ, bal_of_fits hv]

/-- Settles O7. -/
theorem quadViewsAliasTheRegisters : Obligations.QuadViewsAliasTheRegisters := fun s k =>
  ⟨readQ_eq_words s k, readQ_fits s k, fun _ hv => ⟨view_writeQ_of_fits s k hv, readQ_writeQ s k hv⟩⟩

/-! ## The P16 file (R30) -/

theorem view_writeX_of_fits (s : State) (i : XIdx) {v : Int} (hv : Fits 16 v) : (s.writeX i v).view = s.view.withX i v := by
  rw [view_writeX, bal_of_fits hv]

/-- Settles O8. -/
theorem p16FileIsSeparateStorage : Obligations.P16FileIsSeparateStorage := fun s i j v =>
  ⟨writeX_readR s i v, writeR_readX s j v, view_writeX_of_fits s i⟩

/-! ## Reset (R39, R220) -/

@[simp] theorem readX_resetWith (cfg : Config) (prog : List (Int × Term)) (i : XIdx) :
    (State.resetWith cfg prog).readX i = 0 := by
  simp [State.readX, State.resetWith, PWord.zero]

/-- Settles O9. -/
theorem resetLeavesZerosAndParameters : Obligations.ResetLeavesZerosAndParameters := by
  intro cfg prog
  have hreg : (State.resetWith cfg prog).readR = fun _ => 0 := funext (readR_resetWith cfg prog)
  have hxreg : (State.resetWith cfg prog).readX = fun _ => 0 := funext (readX_resetWith cfg prog)
  rw [State.view, hreg, hxreg]
  rfl

theorem resetWith_inv (cfg : Config) (prog : List (Int × Term)) : (State.resetWith cfg prog).Inv :=
  ⟨rfl, List.forall_mem_nil _, by simp [State.resetWith]⟩

/-- Settles O10. -/
theorem resetHasTheInvariant : Obligations.ResetHasTheInvariant := fun cfg prog =>
  ⟨resetWith_inv cfg prog, resetWith_inv Config.default []⟩

end Sys2Proof.Machine
end

section
/-! The arithmetic instructions (40_p14.md, 41_p28.md, 42_p56.md; 43_mixed_and_conversion.md sections 2, 4 and 5;
44_carry_and_overflow.md): each completes with the value it writes, in range. -/

namespace Sys2Proof.Machine

/-! ## Completion by what is written -/

section

variable {i : Instr} {s u : State} {w : View}

/-- An instruction that ends by advancing from a state with the old `pc` and configuration completes with that state's view. -/
theorem completes_of_advance_view (he : exec i s = u.advance) (hpc : u.pc = s.pc) (hcfg : u.cfg = s.cfg)
    (hc : s.CanAdvance) (hv : u.view = w) : Completes i s w.next :=
  hv ▸ completes_of_advance_frame he hpc hcfg hc

/-- R22, R27: an instruction whose work is to write a value that fits into a register. -/
theorem completes_of_writeR {k : RIdx} {v : Int} (he : exec i s = (s.writeR k v).advance) (hc : s.CanAdvance)
    (hv : Fits 14 v) : Completes i s (s.view.withR k v).next :=
  completes_of_advance_view he (writeR_pc s k v) (writeR_cfg s k v) hc (view_writeR_of_fits s k hv)

end

/-! ## Wrapped and exact results -/

/-- Settles O21: `bal_14` of the result fits the register. -/
theorem add14AndSub14Wrap : Obligations.Add14AndSub14Wrap := fun _ _ _ _ hc =>
  ⟨completes_of_writeR rfl hc (bal_fits 14 _), completes_of_writeR rfl hc (bal_fits 14 _)⟩

/-- Settles O25: `bal_28` of a result fits the pair, and the negation of a pair is in its symmetric range. -/
theorem add28Sub28Neg28DeliverTheirResults : Obligations.Add28Sub28Neg28DeliverTheirResults := fun s hc =>
  ⟨fun _ _ _ => ⟨completes_of_writeD rfl hc (bal_fits 28 _), completes_of_writeD rfl hc (bal_fits 28 _)⟩,
    fun _ ds => ⟨completes_of_writeD rfl hc (neg_fits (readD_fits s ds)), neg_fits (readD_fits s ds)⟩⟩

/-- Settles O26: `bal_56` of a result fits the quad, and the negation of a quad is in its symmetric range. -/
theorem add56Sub56Neg56DeliverTheirResults : Obligations.Add56Sub56Neg56DeliverTheirResults := fun s hc =>
  ⟨fun _ _ _ => ⟨completes_of_writeQ rfl hc (bal_fits 56 _), completes_of_writeQ rfl hc (bal_fits 56 _)⟩,
    fun _ qs => ⟨completes_of_writeQ rfl hc (neg_fits (readQ_fits s qs)), neg_fits (readQ_fits s qs)⟩⟩

/-- Settles O27: the work of each is one write of `CC`. -/
theorem comparesAndTestsWriteCC : Obligations.ComparesAndTestsWriteCC := fun _ hc =>
  ⟨fun _ _ => completes_of_advance_view rfl rfl rfl hc (view_setCC _ _),
    fun _ => completes_of_advance_view rfl rfl rfl hc (view_setCC _ _),
    fun _ _ => completes_of_advance_view rfl rfl rfl hc (view_setCC _ _),
    fun _ => completes_of_advance_view rfl rfl rfl hc (view_setCC _ _)⟩

/-! ## Products (R103, R112, R121, R132, R142) -/

/-- The product of an m-pent and an n-pent value has m+n pents. -/
theorem mul_fits {m n : Nat} {a b : Int} (ha : Fits m a) (hb : Fits n b) : Fits (m + n) (a * b) := by
  have hm := two_maxMag_add_one m
  have hn := two_maxMag_add_one n
  have hmn := two_maxMag_add_one (m + n)
  rw [radixPow_add, ← hm, ← hn] at hmn
  have hm0 := maxMag_nonneg m
  have hn0 := maxMag_nonneg n
  have habs : |a * b| ≤ maxMag m * maxMag n := by
    rw [abs_mul]
    exact mul_le_mul (abs_le.mpr ha) (abs_le.mpr hb) (abs_nonneg b) hm0
  exact abs_le.mp (habs.trans (by nlinarith [mul_nonneg hm0 hn0]))

theorem mulR_fits (s : State) (i j : RIdx) : Fits 28 (s.readR i * s.readR j) :=
  mul_fits (m := 14) (n := 14) (readR_fits s i) (readR_fits s j)

theorem mulD_fits (s : State) (i j : DIdx) : Fits 56 (s.readD i * s.readD j) :=
  mul_fits (m := 28) (n := 28) (readD_fits s i) (readD_fits s j)

theorem mulQ_fits (s : State) (i j : QIdx) : Fits 112 (s.readQ i * s.readQ j) :=
  mul_fits (m := 56) (n := 56) (readQ_fits s i) (readQ_fits s j)

theorem view_writeAcc28_of_fits (s : State) {v : Int} (hv : Fits 28 v) :
    (s.writeAcc28 v).view = { s.view with acc28 := v } := by
  rw [view_writeAcc28, bal_of_fits hv]

theorem view_writeAcc56_of_fits (s : State) {v : Int} (hv : Fits 56 v) :
    (s.writeAcc56 v).view = { s.view with acc56 := v } := by
  rw [view_writeAcc56, bal_of_fits hv]

theorem view_writeAcc112_of_fits (s : State) {v : Int} (hv : Fits 112 v) :
    (s.writeAcc112 v).view = { s.view with acc112 := v } := by
  rw [view_writeAcc112, bal_of_fits hv]

/-- Settles O22: the product fits the accumulator, so it is written there as it is; the destination is written beside it. -/
theorem multipliesLeaveTheExactProduct : Obligations.MultipliesLeaveTheExactProduct := by
  intro s hc
  refine ⟨fun rd rs1 rs2 => ?_, fun dd ds1 ds2 => ?_, fun qd qs1 qs2 => ?_⟩
  · refine completes_of_advance_view rfl (writeR_pc _ _ _) (writeR_cfg _ _ _) hc ?_
    rw [view_writeR_of_fits _ _ (lo_fits 14 _), view_writeAcc28_of_fits s (mulR_fits s rs1 rs2)]
    rfl
  · refine completes_of_advance_view rfl (writeD_pc _ _ _) (writeD_cfg _ _ _) hc ?_
    rw [view_writeD_of_fits _ _ (lo_fits 28 _), view_writeAcc56_of_fits s (mulD_fits s ds1 ds2)]
    rfl
  · refine completes_of_advance_view rfl (writeQ_pc _ _ _) (writeQ_cfg _ _ _) hc ?_
    rw [view_writeQ_of_fits _ _ (lo_fits 56 _), view_writeAcc112_of_fits s (mulQ_fits s qs1 qs2)]
    rfl

/-- Settles O36: the accumulated value is wrapped before it is written, so the write keeps it. -/
theorem accumulatingFormsAddTheProduct : Obligations.AccumulatingFormsAddTheProduct := fun s hc =>
  ⟨fun ds1 ds2 => ⟨completes_of_advance_view rfl rfl rfl hc (view_writeAcc56_of_fits s (bal_fits 56 _)),
      completes_of_advance_view rfl rfl rfl hc (view_writeAcc56_of_fits s (bal_fits 56 _)), mulD_fits s ds1 ds2⟩,
    fun qs1 qs2 => ⟨completes_of_advance_view rfl rfl rfl hc (view_writeAcc112_of_fits s (bal_fits 112 _)),
      completes_of_advance_view rfl rfl rfl hc (view_writeAcc112_of_fits s (bal_fits 112 _)), mulQ_fits s qs1 qs2⟩⟩

/-! ## Quotients (R104, R113, R133) -/

/-- Settles O23: a quotient is no larger than its dividend, so it fits the destination. -/
theorem divisionsDeliverTheQuotientOrFault : Obligations.DivisionsDeliverTheQuotientOrFault := by
  intro s hc
  refine ⟨fun rd rs1 rs2 => ?_, fun dd ds1 ds2 => ?_, fun qd qs1 qs2 => ?_⟩ <;> split_ifs with hz
  · exact exec_of_faultOf rfl (faultOf_of_divisor (congrArg some hz))
  · exact completes_of_writeR (if_neg hz) hc (divQ_fits _ _ (readR_fits s rs1))
  · exact exec_of_faultOf rfl (faultOf_of_divisor (congrArg some hz))
  · exact completes_of_writeD (if_neg hz) hc (divQ_fits _ _ (readD_fits s ds1))
  · exact exec_of_faultOf rfl (faultOf_of_divisor (congrArg some hz))
  · exact completes_of_writeQ (if_neg hz) hc (divQ_fits _ _ (readQ_fits s qs1))

/-! ## Conversions -/

/-- Settles O24: a 14-pent value fits 16 pents, and the low pents of any value fit a register. -/
theorem extend14AndTrunc16Convert : Obligations.Extend14AndTrunc16Convert := fun s r x =>
  ⟨fun hc hx => completes_of_advance_view (if_neg hx) rfl rfl hc
      (view_writeX_of_fits s x (fits_mono (by decide) (readR_fits s r))),
    hi_of_fits (readR_fits s r), rfl, fun hc => completes_of_writeR rfl hc (lo_fits 14 _), lo_of_fits⟩

/-- Settles O34: the two halves of a pair are its two registers, and each fits its destination. -/
theorem split28CopiesTheHalves : Obligations.Split28CopiesTheHalves := by
  intro s rdHi rdLo ds
  have hhigh : s.readR ds.high = hi 14 (s.readD ds) := (hi_unique (readR_fits s ds.low) rfl).symm
  have hlow : s.readR ds.low = lo 14 (s.readD ds) := (lo_unique (readR_fits s ds.low) rfl).symm
  refine ⟨fun hc hne => ?_, ⟨hhigh, hlow⟩, fun heq hnz => exec_of_failedCheck (if_pos ⟨heq, hnz⟩)⟩
  have hadmitted : ¬ (rdHi = rdLo ∧ rdHi ≠ 0) := fun ⟨heq, hnz⟩ => hne.elim (· heq) hnz
  refine completes_of_advance_view (if_neg hadmitted) (by simp) (by simp) hc ?_
  rw [← hhigh, ← hlow, view_writeR_of_fits _ _ (readR_fits s _), view_writeR_of_fits _ _ (readR_fits s _)]

/-- R33: the overflow condition of a sum is that it does not fit. -/
theorem exceeds_eq (n : Nat) (v : Int) : exceeds n v = decide (¬ Fits n v) := by
  rw [exceeds, ← Bool.decide_or]
  exact decide_eq_decide.mpr (by omega)

/-- R33: the overflow condition of a truncation is that the value does not fit. -/
theorem hasHigh_eq (k : Nat) (v : Int) : hasHigh k v = decide (¬ Fits k v) := by
  have hsplit := hi_mul_add_lo k v
  refine decide_eq_decide.mpr ⟨fun hne hfits => hne (hi_of_fits hfits), fun hno hzero => hno ?_⟩
  rw [hzero, zero_mul, zero_add] at hsplit
  exact hsplit ▸ lo_fits k v

theorem clamp_eq (n : Nat) (v : Int) : clamp n v = max (-maxMag n) (min (maxMag n) v) := by
  have := maxMag_nonneg n
  unfold clamp
  split_ifs <;> omega

/-- Settles O45: the clamped sum fits the destination, and `S` is written after it. -/
theorem saturatingAddsClamp : Obligations.SaturatingAddsClamp := by
  intro s hc
  refine ⟨fun rd rs1 rs2 => ?_, fun dd ds1 ds2 => ?_⟩
  · refine completes_of_advance_view rfl (writeR_pc _ _ _) (writeR_cfg _ _ _) hc ?_
    rw [view_setS, view_writeR_of_fits _ _ (clamp_fits 14 _), clamp_eq, exceeds_eq]
  · refine completes_of_advance_view rfl (writeD_pc _ _ _) (writeD_cfg _ _ _) hc ?_
    rw [view_setS, view_writeD_of_fits _ _ (clamp_fits 28 _), clamp_eq, exceeds_eq]

/-- Settles O47: the low pents fit the destination, and `V` is written after it. -/
theorem truncationsKeepTheLowPents : Obligations.TruncationsKeepTheLowPents := by
  intro s hc
  refine ⟨fun rd ds => ?_, fun dd qs => ?_, fun rd qs => ?_⟩
  · refine completes_of_advance_view rfl (writeR_pc _ _ _) (writeR_cfg _ _ _) hc ?_
    rw [view_setV, view_writeR_of_fits _ _ (lo_fits 14 _), hasHigh_eq]
  · refine completes_of_advance_view rfl (writeD_pc _ _ _) (writeD_cfg _ _ _) hc ?_
    rw [view_setV, view_writeD_of_fits _ _ (lo_fits 28 _), hasHigh_eq]
  · refine completes_of_advance_view rfl (writeR_pc _ _ _) (writeR_cfg _ _ _) hc ?_
    rw [view_setV, view_writeR_of_fits _ _ (lo_fits 14 _), hasHigh_eq]

/-- R159 to R161: the two outcomes of a binary truncation, by the range of the source. -/
theorem completes_by_binary_range {i : Instr} {s u k : State} {w x : View} {m : Nat} {v : Int}
    (he : exec i s = if exceedsBin m v then u.advance else k.advance) (hc : s.CanAdvance)
    (hk : k.pc = s.pc ∧ k.cfg = s.cfg ∧ k.view = w) (hu : u.pc = s.pc ∧ u.cfg = s.cfg ∧ u.view = x) :
    if -binMax m ≤ v ∧ v ≤ binMax m then Completes i s w.next else Completes i s x.next := by
  split_ifs with hin
  · obtain ⟨hpc, hcfg, hview⟩ := hk
    exact completes_of_advance_view (he.trans (if_neg (by simp [exceedsBin_eq_false.mpr hin]))) hpc hcfg hc hview
  · obtain ⟨hpc, hcfg, hview⟩ := hu
    exact completes_of_advance_view (he.trans (if_pos (by simpa using mt exceedsBin_eq_false.mp hin))) hpc hcfg hc hview

/-- Settles O48: in range the source is written as it is; out of range the destination's write wraps `BinTrunc`. -/
theorem binaryTruncationsReportTheRange : Obligations.BinaryTruncationsReportTheRange := by
  intro s hc
  refine ⟨fun qd qs => completes_by_binary_range (m := 128) rfl hc ⟨by simp, by simp, ?_⟩ ⟨by simp, by simp, ?_⟩,
    fun dd ds => completes_by_binary_range (m := 64) rfl hc ⟨by simp, by simp, ?_⟩ ⟨by simp, by simp, ?_⟩,
    fun rd rs => completes_by_binary_range (m := 32) rfl hc ⟨by simp, by simp, ?_⟩ ⟨by simp, by simp, ?_⟩⟩
  · rw [view_setV, view_writeQ_of_fits _ _ (readQ_fits s qs)]
  · rw [view_setV, view_writeQ]
  · rw [view_setV, view_writeD_of_fits _ _ (readD_fits s ds)]
  · rw [view_setV, view_writeD]
  · rw [view_setV, view_writeR_of_fits _ _ (readR_fits s rs)]
  · rw [view_setV, view_writeR]

/-! ## Carry, overflow checks and the branch -/

theorem sign_toInt_bounds (c : Sign) : -1 ≤ c.toInt ∧ c.toInt ≤ 1 := by cases c <;> decide

/-- The sum of two pairs and a carry passes a bound by less than the width of a pair. -/
theorem sum_bounds (s : State) (j k : DIdx) {c : Int} (hc : -1 ≤ c ∧ c ≤ 1) :
    -(2 * maxMag 28 + 1) ≤ s.readD j + s.readD k + c ∧ s.readD j + s.readD k + c ≤ 2 * maxMag 28 + 1 := by
  obtain ⟨hjlo, hjhi⟩ := readD_fits s j
  obtain ⟨hklo, hkhi⟩ := readD_fits s k
  omega

/-- R170: the carry flag says which bound the exact sum passes. -/
theorem signOf_carry {n : Nat} {v : Int} (h : -(2 * maxMag n + 1) ≤ v ∧ v ≤ 2 * maxMag n + 1) :
    signOf (carry n v) = if v > maxMag n then .pos else if v < -maxMag n then .neg else .zero := by
  rw [carry_eq_ite h.1 h.2]
  split_ifs <;> rfl

/-- Settles O50: the wrapped sum fits the pair, and `C` is written after it. -/
theorem carryAddsDeliverSumAndCarry : Obligations.CarryAddsDeliverSumAndCarry := by
  intro s dd ds1 ds2 hc
  have hsum := sum_bounds s ds1 ds2 (c := 0) (by decide)
  rw [add_zero] at hsum
  refine ⟨completes_of_advance_view rfl (writeD_pc _ _ _) (writeD_cfg _ _ _) hc ?_,
    completes_of_advance_view rfl (writeD_pc _ _ _) (writeD_cfg _ _ _) hc ?_⟩
  · rw [view_setC, view_writeD_of_fits _ _ (bal_fits 28 _), signOf_carry hsum]
  · rw [view_setC, view_writeD_of_fits _ _ (bal_fits 28 _),
      signOf_carry (sum_bounds s ds1 ds2 (sign_toInt_bounds s.flagC))]

/-- Settles O52: the work of each is one write of `V`. -/
theorem overflowChecksWriteVAlone : Obligations.OverflowChecksWriteVAlone := fun s hc =>
  ⟨fun _ rs1 rs2 => exceeds_eq 14 (s.readR rs1 + s.readR rs2) ▸
      completes_of_advance_view rfl rfl rfl hc (view_setV s _),
    fun _ ds1 ds2 => exceeds_eq 28 (s.readD ds1 + s.readD ds2) ▸
      completes_of_advance_view rfl rfl rfl hc (view_setV s _)⟩

/-- Settles O53: the one meaning is `goto`, to the target or to the next address, which completes in range and faults out of
it. -/
theorem bvsBranchesOnV : Obligations.BvsBranchesOnV := by
  intro s target
  have hgoto : ∀ a, exec (.bvs target) s = s.goto a →
      (Fits 14 a → Completes (.bvs target) s { s.view with pc := a }) ∧
        (¬ Fits 14 a → exec (.bvs target) s = .fault (.pcOutOfRange s.pc.val)) := fun a he =>
    ⟨fun hfit => ⟨_, he.trans (goto_of_fits hfit), view_pc s hfit⟩, fun hno => he.trans (goto_of_not_fits hno)⟩
  split_ifs with hv
  · exact hgoto target (if_pos hv)
  · exact hgoto (s.pc.val + s.cfg.ilen) (if_neg hv)

end Sys2Proof.Machine
end

section
/-! Words and binary128 images in memory (20_memory.md rules R54 to R60; 42_p56.md rules R135 to R137): what is written is what
is read, and what lies elsewhere stays. -/

namespace Sys2Proof.Machine

variable {s t u : State} {i : Instr}

/-! ## Reading after writing -/

theorem memWrite_cfg (s : State) (a : Int) (n : Nat) (v : Int) : (s.memWrite a n v).cfg = s.cfg := writePents_cfg s a _

theorem memWriteB128_cfg (s : State) (a v : Int) : (s.memWriteB128 a v).cfg = s.cfg := writePents_cfg s a _

theorem readPents_of_mem (hcfg : t.cfg = s.cfg) (hmem : t.mem = s.mem) (n : Nat) (a : Int) :
    t.readPents n a = s.readPents n a :=
  readPents_congr fun b _ _ => by rw [State.readPent, State.readPent, hcfg, hmem]

/-- What a word of memory reads as depends on nothing but memory and the configuration. -/
theorem memRead_of_mem (hcfg : t.cfg = s.cfg) (hmem : t.mem = s.mem) (a : Int) (n : Nat) :
    t.memRead a n = s.memRead a n := by
  rw [State.memRead, State.memRead, hcfg, readPents_of_mem hcfg hmem]

theorem memReadB128_of_mem (hcfg : t.cfg = s.cfg) (hmem : t.mem = s.mem) (a : Int) :
    t.memReadB128 a = s.memReadB128 a := by
  rw [State.memReadB128, State.memReadB128, hcfg, readPents_of_mem hcfg hmem]

/-- R55: a word away from the pents written reads as before. -/
theorem memRead_memWrite_disjoint (s : State) {a b : Int} {n k : Nat} (v : Int) (h : b + k ≤ a ∨ a + n ≤ b) :
    (s.memWrite a n v).memRead b k = s.memRead b k := by
  have hpents : (s.memWrite a n v).readPents k b = s.readPents k b := readPents_congr fun c hlo hhi => by
    rw [State.memWrite, readPent_writePents, memoryOrder_length, pents_length, if_neg (by omega)]
  rw [State.memRead, State.memRead, hpents, memWrite_cfg]

/-- Settles O32. -/
theorem readAfterWriteOfWords : Obligations.ReadAfterWriteOfWords := fun s a n v =>
  ⟨fun hv => (memRead_memWrite s a n v).trans (bal_of_fits hv), fun _ _ h => memRead_memWrite_disjoint s v h⟩

/-- What is left of an instruction that answers a next state: its work, and a new `pc`. -/
theorem exec_next_work (h : exec i s = .next t) : ∃ p, t = { s.work i with pc := p } := by
  obtain ⟨-, -, -, ht⟩ := exec_next.mp h
  exact ⟨_, ht⟩

/-- Settles O33: the 56 pents read back as the quad, and both the read and the quad split in only one way. -/
theorem mixedWidthReadsSeeTheHalves : Obligations.MixedWidthReadsSeeTheHalves := by
  intro s t m qs hord h
  have hstored : t.cfg = s.cfg ∧ t.mem = (s.memWrite (s.effAddr m) 56 (s.readQ qs)).mem := by
    rcases h with h | h <;> obtain ⟨p, rfl⟩ := exec_next_work h <;> exact ⟨work_cfg, rfl⟩
  obtain ⟨hcfg, hmem⟩ := hstored
  have hread : ∀ a n, t.memRead a n = (s.memWrite (s.effAddr m) 56 (s.readQ qs)).memRead a n :=
    memRead_of_mem (hcfg.trans (memWrite_cfg s _ _ _).symm) hmem
  have hquad : t.memRead (s.effAddr m) 56 = s.readQ qs := by
    rw [hread, memRead_memWrite, bal_of_fits (readQ_fits s qs)]
  have hsplit := memRead_add (hcfg ▸ hord) (s.effAddr m) 28 28
  have hlow : s.readD qs.low = lo 28 (s.readQ qs) := (lo_unique (readD_fits s _) rfl).symm
  have hhigh : s.readD qs.high = hi 28 (s.readQ qs) := (hi_unique (readD_fits s _) rfl).symm
  have hreadlow : t.memRead (s.effAddr m) 28 = lo 28 (s.readQ qs) :=
    (lo_unique (memRead_fits t _ 28) (hquad.symm.trans hsplit)).symm
  have hreadhigh : t.memRead (s.effAddr m + 28) 28 = hi 28 (s.readQ qs) :=
    (hi_unique (memRead_fits t _ 28) (hquad.symm.trans hsplit)).symm
  exact ⟨hreadlow, hreadhigh, hreadlow.trans hlow.symm, hreadhigh.trans hhigh.symm⟩

/-! ## binary128 -/

/-- A memory instruction whose access is admitted does its work and goes on. -/
theorem exec_of_canAccess {ea : Int} {align n : Nat} (ha : s.accessOf i = some (ea, align, n))
    (hc : s.CanAccess align ea n) : exec i s = (s.work i).advance := by
  obtain ⟨hd, hw⟩ := of_accessOf ha
  have hf : s.faultOf i = none := (faultOf_of_access hd ha).trans (accessCheck_none.mpr hc)
  have hn : s.nextPC i = s.pc.val + s.cfg.ilen := by
    cases i with
    | bvs => exact nomatch ha
    | _ => rfl
  rw [exec_of_passes hw hf, hn, advance_work]

/-- Settles O40: every image decodes to a binary128 value, which fits a quad. -/
theorem b128ToP56LoadsTheValue : Obligations.B128ToP56LoadsTheValue := by
  intro s qd m hc ha
  have hb := memReadB128_isB128 s (s.effAddr m)
  have hfits := fits_of_isB128 (le_refl 56) hb
  exact ⟨completes_of_writeQ (exec_of_canAccess (i := .b128ToP56 qd m) rfl ha) hc hfits, hb, hfits⟩

/-- Settles O41: the two outcomes of the store, the image of the value or that of the next draw. -/
theorem p56ToB128StoresOrOverflows : Obligations.P56ToB128StoresOrOverflows := by
  intro s m qs hc ha
  have he := exec_of_canAccess (i := .p56ToB128 m qs) rfl ha
  split_ifs with hin
  · have hin : exceedsBin 128 (s.readQ qs) = false := exceedsBin_eq_false.mpr hin
    have hwork : s.work (.p56ToB128 m qs) = (s.memWriteB128 (s.effAddr m) (s.readQ qs)).setV false :=
      if_neg (by simp [hin])
    refine completes_of_advance_view he work_pc work_cfg hc ?_
    rw [hwork, view_setV, view_memWriteB128 s _ (isB128_of_not_exceedsBin hin)]
  · have hwork : s.work (.p56ToB128 m qs) = (s.memDrawB128 (s.effAddr m)).setV true :=
      if_pos (by simpa using mt exceedsBin_eq_false.mp hin)
    refine ⟨drawnImage s.cfg s.draws, drawnImage_length _ _, completes_of_advance_view he work_pc work_cfg hc ?_⟩
    rw [hwork, view_setV, view_memDrawB128]

theorem b128Max_nonneg : 0 ≤ b128Max := by decide

theorem clampB128_eq (v : Int) : clampB128 v = max (-b128Max) (min b128Max v) := by
  have hpos := b128Max_nonneg
  unfold clampB128
  generalize b128Max = M at hpos ⊢
  split_ifs <;> omega

theorem clampB128_eq_self {v : Int} : clampB128 v = v ↔ -b128Max ≤ v ∧ v ≤ b128Max := by
  have hpos := b128Max_nonneg
  rw [clampB128_eq]
  generalize b128Max = M at hpos ⊢
  omega

/-- Settles O42: the clamped value has an image, and it differs from the value exactly out of the range. -/
theorem p56ToB128SatStoresTheClampedValue : Obligations.P56ToB128SatStoresTheClampedValue := by
  intro s m qs hc ha
  have hs : decide (clampB128 (s.readQ qs) ≠ s.readQ qs) = decide (s.readQ qs < -b128Max ∨ b128Max < s.readQ qs) :=
    decide_eq_decide.mpr (by rw [Ne, clampB128_eq_self]; omega)
  refine completes_of_advance_view (exec_of_canAccess (i := .p56ToB128Sat m qs) rfl ha) work_pc work_cfg hc ?_
  rw [State.work, view_setS, view_memWriteB128 s _ (clampB128_isB128 _), hs, clampB128_eq]

/-- R135: the quad loaded, but for Q0. -/
theorem readQ_of_b128ToP56 {qd : QIdx} {m : MemOperand} (hq : qd ≠ 0) (h : exec (.b128ToP56 qd m) s = .next t) :
    t.readQ qd = s.memReadB128 (s.effAddr m) := by
  obtain ⟨p, rfl⟩ := exec_next_work h
  exact readQ_writeQ_same s hq (fits_of_isB128 (le_refl 56) (memReadB128_isB128 s _))

theorem work_readR_of_store (h : writesMemory i = true) : (s.work i).readR = s.readR := by
  cases i with
  | store28 | storeu28 | store56 | storeu56 | p56ToB128 | p56ToB128Sat =>
    simp [State.work, State.memWrite, State.memWriteB128, apply_ite State.readR]
  | _ => exact nomatch h

/-- R136, R137: both storing conversions write a value of the symmetric range as it is. -/
theorem work_mem_of_b128_store {m : MemOperand} {qs : QIdx} (hv : -b128Max ≤ s.readQ qs ∧ s.readQ qs ≤ b128Max)
    (hi : i = .p56ToB128 m qs ∨ i = .p56ToB128Sat m qs) :
    (s.work i).mem = (s.memWriteB128 (s.effAddr m) (s.readQ qs)).mem := by
  rcases hi with rfl | rfl
  · have hin : exceedsBin 128 (s.readQ qs) = false := exceedsBin_eq_false.mpr hv
    simp [State.work, hin]
  · simp only [State.work, setS_mem, clampB128_eq_self.mpr hv]

/-- Settles O43: both forms store a value in range as its own image and keep the base register, and R60's law decodes the
image. -/
theorem storedBinary128ComesBack : Obligations.StoredBinary128ComesBack := by
  intro s t u m qs qd hlo hhi hstore hload hq
  have hb : IsB128 (s.readQ qs) := isB128_of_not_exceedsBin (exceedsBin_eq_false.mpr ⟨hlo, hhi⟩)
  have hstored : t.cfg = s.cfg ∧ t.readR = s.readR ∧ t.mem = (s.memWriteB128 (s.effAddr m) (s.readQ qs)).mem := by
    rcases hstore with h | h <;> obtain ⟨p, rfl⟩ := exec_next_work h
    · exact ⟨work_cfg, work_readR_of_store rfl, work_mem_of_b128_store ⟨hlo, hhi⟩ (.inl rfl)⟩
    · exact ⟨work_cfg, work_readR_of_store rfl, work_mem_of_b128_store ⟨hlo, hhi⟩ (.inr rfl)⟩
  obtain ⟨hcfg, hreg, hmem⟩ := hstored
  have haddr : t.effAddr m = s.effAddr m := by rw [State.effAddr, State.effAddr, hreg]
  rw [readQ_of_b128ToP56 hq hload, haddr, memReadB128_of_mem (hcfg.trans (memWriteB128_cfg s _ _).symm) hmem,
    memReadB128_memWriteB128 s _ hb]

end Sys2Proof.Machine
end

section
/-! Sequences of two and three instructions: a product handed over by its halves (41_p28.md section 5, 42_p56.md section 5), and
the carry chain (44_carry_and_overflow.md section 1). -/

namespace Sys2Proof.Machine

variable {s t : State} {i : Instr}

/-! ## What an instruction leaves in registers, flags and accumulators -/

theorem readD_of_exec (h : exec i s = .next t) (k : DIdx) : t.readD k = (s.work i).readD k := by
  obtain ⟨p, rfl⟩ := exec_next_work h
  rfl

theorem readQ_of_exec (h : exec i s = .next t) (k : QIdx) : t.readQ k = (s.work i).readQ k := by
  obtain ⟨p, rfl⟩ := exec_next_work h
  rfl

theorem flagC_of_exec (h : exec i s = .next t) : t.flagC = (s.work i).flagC := by
  obtain ⟨p, rfl⟩ := exec_next_work h
  rfl

theorem acc56_of_exec (h : exec i s = .next t) : t.acc56 = (s.work i).acc56 := by
  obtain ⟨p, rfl⟩ := exec_next_work h
  rfl

theorem acc112_of_exec (h : exec i s = .next t) : t.acc112 = (s.work i).acc112 := by
  obtain ⟨p, rfl⟩ := exec_next_work h
  rfl

/-! ## Multiply and hand over -/

/-- R112: the accumulator after MUL28. -/
theorem acc56_of_mul28 {d j k : DIdx} (h : exec (.mul28 d j k) s = .next t) : t.acc56.val = s.readD j * s.readD k := by
  rw [acc56_of_exec h, State.work, writeD_acc56, writeAcc56_acc56, wordOf_val, bal_of_fits (mulD_fits s j k)]

/-- R132: the accumulator after MUL56. -/
theorem acc112_of_mul56 {q j k : QIdx} (h : exec (.mul56 q j k) s = .next t) :
    t.acc112.val = s.readQ j * s.readQ k := by
  rw [acc112_of_exec h, State.work, writeQ_acc112, writeAcc112_acc112, wordOf_val, bal_of_fits (mulQ_fits s j k)]

theorem acc56_hi_fits (s : State) : Fits 28 (hi 28 s.acc56.val) := hi_fits (j := 28) (k := 28) (pword_fits s.acc56)

theorem acc112_hi_fits (s : State) : Fits 56 (hi 56 s.acc112.val) := hi_fits (j := 56) (k := 56) (pword_fits s.acc112)

/-- Settles O39: the second GETACC form leaves the first one's destination, neither touches the accumulator, and the two halves
of a digit split make the whole. -/
theorem multiplyThenGetaccGivesTheExactProduct : Obligations.MultiplyThenGetaccGivesTheExactProduct := by
  intro s a b c
  refine ⟨fun d j k dh dl hmul hget hget' hdh hdl hne => ?_, fun q j k qh ql hmul hget hget' hqh hql hne => ?_⟩
  · have hacc : b.acc56 = a.acc56 := (accumulatorsChangeOnlyByTheirWriters _ _ _ hget).2.1 rfl
    have hhigh : c.readD dh = hi 28 a.acc56.val := by
      rw [readD_of_exec hget', State.work, readD_writeD_of_ne _ hne, readD_of_exec hget, State.work,
        readD_writeD_same _ hdh (acc56_hi_fits a)]
    have hlow : c.readD dl = lo 28 a.acc56.val := by
      rw [readD_of_exec hget', State.work, hacc, readD_writeD_same _ hdl (lo_fits 28 _)]
    rw [hhigh, hlow, hi_mul_add_lo, acc56_of_mul28 hmul]
  · have hacc : b.acc112 = a.acc112 := (accumulatorsChangeOnlyByTheirWriters _ _ _ hget).2.2 rfl
    have hhigh : c.readQ qh = hi 56 a.acc112.val := by
      rw [readQ_of_exec hget', State.work, readQ_writeQ_of_ne _ hne, readQ_of_exec hget, State.work,
        readQ_writeQ_same _ hqh (acc112_hi_fits a)]
    have hlow : c.readQ ql = lo 56 a.acc112.val := by
      rw [readQ_of_exec hget', State.work, hacc, readQ_writeQ_same _ hql (lo_fits 56 _)]
    rw [hhigh, hlow, hi_mul_add_lo, acc112_of_mul56 hmul]

/-! ## The carry chain (R171, R172, R175) -/

theorem carry_bounds {n : Nat} {v : Int} (h : -(2 * maxMag n + 1) ≤ v ∧ v ≤ 2 * maxMag n + 1) :
    -1 ≤ carry n v ∧ carry n v ≤ 1 := by
  rw [carry_eq_ite h.1 h.2]
  split_ifs <;> decide

theorem signOf_carry_toInt {n : Nat} {v : Int} (h : -(2 * maxMag n + 1) ≤ v ∧ v ≤ 2 * maxMag n + 1) :
    (signOf (carry n v)).toInt = carry n v := signOf_toInt (carry_bounds h)

/-- The digit split of a sum of two two-word numbers: the wrapped low sum, and the high sum with the low carry. -/
theorem split_of_word_sums (k : Nat) (ah al bh bl : Int) :
    hi k ((ah * radixPow k + al) + (bh * radixPow k + bl)) = ah + bh + carry k (al + bl) ∧
      lo k ((ah * radixPow k + al) + (bh * radixPow k + bl)) = bal k (al + bl) := by
  have hlow := carry_mul_add_bal k (al + bl)
  have hsum : (ah * radixPow k + al) + (bh * radixPow k + bl) =
      (ah + bh + carry k (al + bl)) * radixPow k + bal k (al + bl) := by linear_combination -hlow
  exact ⟨hi_unique (bal_fits k _) hsum, lo_unique (bal_fits k _) hsum⟩

/-- Settles O51: the carry of the low sum is the carry of the digit split, so the chain computes the wrapped sum and its carry
word by word. -/
theorem carryChainAdds56Pents : Obligations.CarryChainAdds56Pents := by
  intro s t u dlo alo blo dhi ahi bhi hdlo hdhi hne hahi hbhi hfirst hsecond
  have hlowsum := sum_bounds s alo blo (c := 0) (by decide)
  rw [add_zero] at hlowsum
  have hcarry : t.flagC.toInt = carry 28 (s.readD alo + s.readD blo) := by
    rw [flagC_of_exec hfirst, State.work, setC_flagC, signOf_carry_toInt hlowsum]
  have hkept : ∀ k, dlo ≠ k → t.readD k = s.readD k := fun k hk => by
    rw [readD_of_exec hfirst, State.work, setC_readD, readD_writeD_of_ne _ hk.symm]
  have hhighsum := sum_bounds t ahi bhi (sign_toInt_bounds t.flagC)
  have hlow : u.readD dlo = bal 28 (s.readD alo + s.readD blo) := by
    rw [readD_of_exec hsecond, State.work, setC_readD, readD_writeD_of_ne _ hne, readD_of_exec hfirst, State.work,
      setC_readD, readD_writeD_same _ hdlo (bal_fits 28 _)]
  have hhigh : u.readD dhi = bal 28 (t.readD ahi + t.readD bhi + t.flagC.toInt) := by
    rw [readD_of_exec hsecond, State.work, setC_readD, readD_writeD_same _ hdhi (bal_fits 28 _)]
  have hout : u.flagC.toInt = carry 28 (t.readD ahi + t.readD bhi + t.flagC.toInt) := by
    rw [flagC_of_exec hsecond, State.work, setC_flagC, signOf_carry_toInt hhighsum]
  obtain ⟨hsplit, hsplit'⟩ := split_of_word_sums 28 (s.readD ahi) (s.readD alo) (s.readD bhi) (s.readD blo)
  rw [hkept ahi hahi, hkept bhi hbhi, hcarry, ← hsplit] at hhigh hout
  refine ⟨?_, ?_⟩
  · rw [hhigh, hlow, ← hsplit']
    exact (bal_add_eq 28 28 _).symm
  · exact hout.trans (hi_hi 28 28 _)

end Sys2Proof.Machine
end
